-- ==== Sys2Proof/Word.lean ====
section
/-! DEFINITION. The byte, and the records of bytes and fields that the rules name (00_scope.md R8; 30_encoding.md R81, R82). -/

namespace Sys2Proof

/-- A byte: 8 bits, bit 7 the most significant (R8). -/
abbrev Byte := BitVec 8

/-- Four bytes, `b0` first on the wire: a wire packet (R80), or the content of the trailing window (R52). -/
structure Packet where
  b0 : Byte
  b1 : Byte
  b2 : Byte
  b3 : Byte
deriving DecidableEq, Repr

/-- The fields of a command packet (R81): two reserved bits and three 10-bit channels. -/
structure Command where
  cmd   : BitVec 2
  red   : BitVec 10
  green : BitVec 10
  blue  : BitVec 10
deriving DecidableEq, Repr

/-- The triple that the Actuator Driver is given (R241). -/
structure Rgb where
  red   : BitVec 10
  green : BitVec 10
  blue  : BitVec 10
deriving DecidableEq, Repr

end Sys2Proof
end

