-- ==== Sys2Proof/Config.lean ====
section
/-! DEFINITION. What an implementation fixes (00_scope.md R7) and the free values (93_implementation_defined.md U5, U15).
Every `opaque` below has no body: nothing in Lean can evaluate it, so a claim about the machine holds for every allowed value. -/

namespace Sys2Proof.Config

/-- `MAX_CHAIN` less 1 (U16, D25: OPEN). -/
opaque maxChainLessOne : Nat

/-- How many slots beyond the least allowed the buffer of node `k` has (U16, D1: `CAP` is OPEN; 44_chain.md R201: the nodes of a
chain may have "different `CAP`"). The node studied by itself is number 0. -/
opaque spareSlots : Nat → Nat

/-- `MAX_CHAIN >= 1`, the "configurable maximum-chain-length parameter" (R7). -/
def MAX_CHAIN : Nat := maxChainLessOne + 1

/-- The number of byte slots of node `k`'s shift buffer: `CAP >= 8` and `CAP >= 4 * MAX_CHAIN` (R7, D1, D25).
With `spareSlots` free this is every capacity that R7 allows, and no other. -/
def capOfNode (k : Nat) : Nat := max 8 (4 * MAX_CHAIN) + spareSlots k

/-- `CAP` of the node studied by itself (R7). -/
def CAP : Nat := capOfNode 0

/-- Which edge of a signal is meant (R7). -/
inductive Edge
  | rising
  | falling
deriving DecidableEq, Repr, Inhabited

/-- `FS_ACTIVE_LEVEL`: the electrical level of `frame_select` that means "asserted" (R7, U17, D9: OPEN). -/
opaque FS_ACTIVE_LEVEL : Bool

/-- `BC_ACTIVE_EDGE`: the electrical edge of `byte_clock` that means "one byte has been exchanged" (R7, U17, D9: OPEN). -/
opaque BC_ACTIVE_EDGE : Edge

/-- Free value: the bit that node `k`'s `data_out` carries while the node is not selected, at the instant `ticks`
(U5: `any value`). -/
opaque idleDataOut : Nat → Nat → Bool

/-- Free value: the byte that the neighbour of node `k` reads from its `data_out` in a byte slot in which node `k` is not
selected, at the instant `ticks` (U5: `any value`). -/
opaque idleLineByte : Nat → Nat → Byte

/-- Free values: the three channels that the light of node `k` shows before the first command (U15: `any value`; N9). -/
opaque actuatorChannelAtPowerOn : Nat → Nat → BitVec 10

/-- Free value: the output of node `k`'s actuator before the first `set_rgb` (U15), every node its own (60_exceptions.md R240). -/
def actuatorOfNode (k : Nat) : Rgb :=
  ⟨actuatorChannelAtPowerOn k 0, actuatorChannelAtPowerOn k 1, actuatorChannelAtPowerOn k 2⟩

/-- Free value: the output of the actuator of the node studied by itself, before the first `set_rgb` (U15). -/
def actuatorAtPowerOn : Rgb := actuatorOfNode 0

end Sys2Proof.Config
end

