-- ==== Sys2Proof/Syntax.lean ====
section
/-! DEFINITION. The operations (30_encoding.md R97: "The complete list of operations, which `opcode_table.json` repeats row
by row"), one constructor for each row, and the ports at which they are presented (10_state.md R33; R80). -/

namespace Sys2Proof

/-- Where the byte of a `BYTE_CLK` comes from: delivered whole (the byte-level form, R113), or taken from the serial shift
register (the bit-level form, R120: "`BYTE_CLK` takes `rx = sr`"). -/
inductive Rx
  | byte (b : Byte)
  | shifted
deriving DecidableEq, Repr

/-- The levels of the two control lines (R85). -/
structure Levels where
  fs : Bool
  bc : Bool
deriving DecidableEq, Repr

/-- What an edge word that selects no `BYTE_CLK` shows of `byte_clock`: `E[1:0]` is 00, 11 or 10 (R86). -/
inductive ClockLevels
  | inactive
  | active
  | inactiveEdge
deriving DecidableEq, Repr

/-- The fifteen operations. The bus events come in two ways (R111): by themselves, as a model that is driven by events has them,
which leaves the detector's memory alone (R26), and as the step of the detector that a whole edge word describes; then the
operand at the end, left out in the first case, holds the rest of that word (log 31). The arguments of the encoders are wider
than their ranges, so that an argument out of range can be written down and is refused (42_frame_codec.md R160). -/
inductive Instr
  /-- R260: the `reset` port asserted. -/
  | reset
  /-- R111: one step of the edge detector; the logical levels of `frame_select` and `byte_clock`, and the byte. `old` is what a
  whole edge word says of the levels before; without it they are the detector's memory. -/
  | sample (fs bc : Bool) (rx : Rx) (old : Option Levels := none)
  /-- R112; `clock` is `E[1:0]` of an edge word. -/
  | fsAssert (clock : Option ClockLevels := none)
  /-- R113: the byte received in the exchange that this edge completes; `select` is `E[3]` and `E[2]`, which agree. -/
  | byteClk (rx : Rx) (select : Option Bool := none)
  /-- R114; `clock` is `E[1:0]` of an edge word. -/
  | fsDeassert (clock : Option ClockLevels := none)
  /-- R120: the level of `data_in` in this bit time. -/
  | bit (d : Bool)
  /-- R141. -/
  | poll
  /-- R142. -/
  | extract
  /-- R144: the packet, byte 0 first. -/
  | inject (p : Packet)
  /-- R143: the reserved op code. -/
  | hostRsvd
  /-- R161. -/
  | encCmd (cmd red green blue : Nat)
  /-- R162. -/
  | decCmd (p : Packet)
  /-- R163. -/
  | encSensor (weight : Int)
  /-- R164. -/
  | decSensor (p : Packet)
  /-- R184: one pass of the Node Controller, the sensor reading `w` as a byte in two's complement. -/
  | service (w : Byte)
deriving DecidableEq, Repr

/-- Where an operation is presented. No bit of a word says which port it stands at: the port does (R80). -/
inductive Port
  /-- Format `SYS`: the 1-bit `reset` port. -/
  | sys
  /-- Format `EDGE`, driven by levels: the logical levels of the two control lines (R111). -/
  | levels
  /-- Format `EDGE`: a whole edge word, old and new levels (R85, R86). -/
  | edge
  /-- One of the three events by itself (R111: "A model that is driven directly by the three events"). -/
  | event
  /-- One bit time of `data_in` (R120). -/
  | serial
  /-- Format `HOST`: the op code and the write data (R87). -/
  | host
  /-- Format `FUNC/PKT32`: the four codec functions are "called by name" (R97). -/
  | encCmd
  | decCmd
  | encSensor
  | decSensor
  /-- The pseudo-operation `SVC w` (R96). -/
  | service
deriving DecidableEq, Repr

end Sys2Proof
end

