-- ==== Sys2Proof/WellFormed.lean ====
section
/-! DEFINITION. Which operations are well formed: the ranges of the codec's arguments (42_frame_codec.md R160, R161, R163;
00_scope.md R6). Every other operand is typed to its range. -/

namespace Sys2Proof

/-- `cmd` in `0 .. 3` and each channel in `0 .. CH_MAX` = 1023 (R161). -/
abbrev commandInRange (cmd red green blue : Nat) : Prop :=
  cmd ≤ 3 ∧ red ≤ 1023 ∧ green ≤ 1023 ∧ blue ≤ 1023

/-- `weight` in `W_MIN .. W_MAX` = `-128 .. 127` (R163). -/
abbrev weightInRange (weight : Int) : Prop :=
  -128 ≤ weight ∧ weight ≤ 127

/-- An edge word that is a `SAMPLE` and none of the three events selects both a frame-select event and `BYTE_CLK`, or neither (R86;
a word that selects one event is that event's). -/
abbrev notOneEvent (old : Levels) (fs bc : Bool) : Prop :=
  (old.fs ≠ fs) ↔ (old.bc = false ∧ bc = true)

/-- The operation can be written down in the spec's own types (R160). -/
def Instr.wellFormed : Instr → Bool
  | .reset => true
  | .sample _ _ _ none => true
  | .sample fs bc _ (some old) => decide (notOneEvent old fs bc)
  | .fsAssert _ => true
  | .byteClk _ _ => true
  | .fsDeassert _ => true
  | .bit _ => true
  | .poll => true
  | .extract => true
  | .inject _ => true
  | .hostRsvd => true
  | .encCmd cmd red green blue => decide (commandInRange cmd red green blue)
  | .decCmd _ => true
  | .encSensor weight => decide (weightInRange weight)
  | .decSensor _ => true
  | .service _ => true

end Sys2Proof
end

