-- ==== Sys2Proof/Decode.lean ====
section
/-! DEFINITION. The encodings (30_encoding.md): packets as 32-bit words, edge words, host op codes; the decoder, total on any
bytes at any port and refusing by name; the encoder; and the reading of a word numbered as opcode_table.json numbers it. -/

namespace Sys2Proof

/-! ### Packets as words (R81, R82, R88, R89) -/

/-- `byte0 ++ byte1 ++ byte2 ++ byte3`, byte 0 in bits 31:24 (R81). -/
def packetWord (p : Packet) : BitVec 32 := p.b0 ++ p.b1 ++ p.b2 ++ p.b3

/-- `[ W[31:24], W[23:16], W[15:8], W[7:0] ]` (R161). -/
def packetOfWord (w : BitVec 32) : Packet :=
  ⟨w.extractLsb' 24 8, w.extractLsb' 16 8, w.extractLsb' 8 8, w.extractLsb' 0 8⟩

/-- `cmd ++ red ++ green ++ blue` (R81, R161). -/
def commandWord (c : Command) : BitVec 32 := c.cmd ++ c.red ++ c.green ++ c.blue

/-- `W[31:30]`, `W[29:20]`, `W[19:10]`, `W[9:0]` (R81, R162). -/
def commandOfWord (w : BitVec 32) : Command :=
  ⟨w.extractLsb' 30 2, w.extractLsb' 20 10, w.extractLsb' 10 10, w.extractLsb' 0 10⟩

/-- The packet that carries the fields `c` (R88 "And back"). -/
def packetOfCommand (c : Command) : Packet := packetOfWord (commandWord c)

/-- The fields that the packet `p` carries (R88). -/
def commandOfPacket (p : Packet) : Command := commandOfWord (packetWord p)

/-- `u8(w) = w mod 256` (R8). -/
def u8 (w : Int) : Byte := BitVec.ofInt 8 w

/-- `s8(b)`: a byte read as a signed number (R8). -/
def s8 (b : Byte) : Int := b.toInt

/-- The fields whose values are the arguments of `ENC_CMD`; used only for arguments in range (R160). -/
def commandOfNats (cmd red green blue : Nat) : Command :=
  ⟨BitVec.ofNat 2 cmd, BitVec.ofNat 10 red, BitVec.ofNat 10 green, BitVec.ofNat 10 blue⟩

/-- The packet `[w, 0, 0, 0]` (R82, R89). -/
def sensorPacket (w : Byte) : Packet := ⟨w, 0x00, 0x00, 0x00⟩

/-! ### The edge word (R85, R86) -/

/-- `E = fs_q ++ fs ++ bc_q ++ bc` (R85). -/
def edgeWord (fsQ fs bcQ bc : Bool) : BitVec 4 :=
  BitVec.ofBool fsQ ++ BitVec.ofBool fs ++ BitVec.ofBool bcQ ++ BitVec.ofBool bc

/-- `E & 0b1100 = 0b0100` selects `FS_ASSERT` (R86). -/
def selectsFsAssert (e : BitVec 4) : Bool := e &&& 0b1100#4 == 0b0100#4

/-- `E & 0b0011 = 0b0001` selects `BYTE_CLK` (R86). -/
def selectsByteClk (e : BitVec 4) : Bool := e &&& 0b0011#4 == 0b0001#4

/-- `E & 0b1100 = 0b1000` selects `FS_DEASSERT` (R86). -/
def selectsFsDeassert (e : BitVec 4) : Bool := e &&& 0b1100#4 == 0b1000#4

/-- `E[1:0]` of an edge word that selects no `BYTE_CLK`. -/
def clockLevelsOf (e : BitVec 4) : ClockLevels :=
  if e.getLsbD 1 then (if e.getLsbD 0 then .active else .inactiveEdge) else .inactive

/-- `E[1:0]` back. -/
def clockBits : ClockLevels → BitVec 2
  | .inactive => 0b00#2
  | .active => 0b11#2
  | .inactiveEdge => 0b10#2

/-- The edge word of an `FS_ASSERT`: match `0b0100`, mask `0b1100` (R86). -/
def assertWord (c : ClockLevels) : BitVec 4 := 0b01#2 ++ clockBits c

/-- The edge word of an `FS_DEASSERT`: match `0b1000`, mask `0b1100` (R86). -/
def deassertWord (c : ClockLevels) : BitVec 4 := 0b10#2 ++ clockBits c

/-- The edge word of a `BYTE_CLK` alone: match `0b0001`, mask `0b0011` (R86), `frame_select` standing at `fs`. -/
def clockWord (fs : Bool) : BitVec 4 := edgeWord fs fs false true

/-! ### The decoder -/

/-- Why a word at a port is no operation. -/
inductive Reject
  /-- The port's words have another number of bytes. -/
  | wrongLength
  /-- A bit that the port does not have is set. -/
  | noSuchBit
  /-- The word at the event port names none of the three events. -/
  | noSuchEvent
  /-- The word at the `reset` port is 0: nothing is selected (R80: "`reset = 1` selects `RESET`"). -/
  | resetNotAsserted
  /-- Bytes 1 to 3 of the pattern of `ENC_SENSOR` are zeros (R82) and are not in this word. -/
  | sensorPadding
deriving DecidableEq, Repr

/-- What the decoder reads. -/
inductive Decoded
  | ok (i : Instr)
  | reject (r : Reject)
deriving DecidableEq, Repr

/-- The byte source of an `EDGE` word as the model lays it out: bit 4 of the first byte set means that no byte is delivered
and `rx = sr`; clear means that the second byte is `rx` (DESIGN CHOICE, log 3; log 11). -/
def rxOf (first second : Byte) : Rx :=
  if first.getLsbD 4 then .shifted else .byte second

/-- The operation of a whole edge word: the event it selects when it selects exactly one, and otherwise the dispatcher
`SAMPLE`, which matches every edge word (R86, R97). All four bits of the word go into the operation. -/
def decodeEdge (e : BitVec 4) (rx : Rx) : Instr :=
  match selectsFsAssert e, selectsByteClk e, selectsFsDeassert e with
  | true, false, false => .fsAssert (some (clockLevelsOf e))
  | false, true, false => .byteClk rx (some (e.getLsbD 2))
  | false, false, true => .fsDeassert (some (clockLevelsOf e))
  | _, _, _ => .sample (e.getLsbD 2) (e.getLsbD 0) rx (some ⟨e.getLsbD 3, e.getLsbD 1⟩)

/-- An event by itself, named by its match value in R86 (log 3). -/
def decodeEvent (e : BitVec 4) (rx : Rx) : Decoded :=
  if e = 0b0100#4 then .ok .fsAssert
  else if e = 0b0001#4 then .ok (.byteClk rx)
  else if e = 0b1000#4 then .ok .fsDeassert
  else .reject .noSuchEvent

/-- The operation of a host op code (R87). -/
def decodeHost (op : BitVec 2) (wdata : Packet) : Instr :=
  if op = 0b00#2 then .poll
  else if op = 0b01#2 then .extract
  else if op = 0b10#2 then .inject wdata
  else .hostRsvd

/-- The bits of a byte at and above bit `n` are all 0. -/
def bitsAboveClear (n : Nat) (b : Byte) : Bool := b >>> n == 0

/-- The decoder: total on any bytes at any port. -/
def decode : Port → List Byte → Decoded
  | .sys, [b] =>
    if bitsAboveClear 1 b = false then .reject .noSuchBit
    else if b.getLsbD 0 then .ok .reset else .reject .resetNotAsserted
  | .levels, [b, r] =>
    if bitsAboveClear 5 b = false ∨ b.getLsbD 3 ∨ b.getLsbD 1 then .reject .noSuchBit
    else .ok (.sample (b.getLsbD 2) (b.getLsbD 0) (rxOf b r))
  | .edge, [b, r] =>
    if bitsAboveClear 5 b = false then .reject .noSuchBit
    else .ok (decodeEdge (b.extractLsb' 0 4) (rxOf b r))
  | .event, [b, r] =>
    if bitsAboveClear 5 b = false then .reject .noSuchBit
    else decodeEvent (b.extractLsb' 0 4) (rxOf b r)
  | .serial, [b] =>
    if bitsAboveClear 1 b = false then .reject .noSuchBit else .ok (.bit (b.getLsbD 0))
  | .host, [op, p0, p1, p2, p3] =>
    if bitsAboveClear 2 op = false then .reject .noSuchBit
    else .ok (decodeHost (op.extractLsb' 0 2) ⟨p0, p1, p2, p3⟩)
  | .encCmd, [p0, p1, p2, p3] =>
    let c := commandOfPacket ⟨p0, p1, p2, p3⟩
    .ok (.encCmd c.cmd.toNat c.red.toNat c.green.toNat c.blue.toNat)
  | .decCmd, [p0, p1, p2, p3] => .ok (.decCmd ⟨p0, p1, p2, p3⟩)
  | .encSensor, [p0, p1, p2, p3] =>
    if p1 = 0 ∧ p2 = 0 ∧ p3 = 0 then .ok (.encSensor (s8 p0)) else .reject .sensorPadding
  | .decSensor, [p0, p1, p2, p3] => .ok (.decSensor ⟨p0, p1, p2, p3⟩)
  | .service, [w] => .ok (.service w)
  | _, _ => .reject .wrongLength

/-! ### The encoder -/

/-- A packet as the bytes of a word, byte 0 first. -/
def packetBytes (p : Packet) : List Byte := [p.b0, p.b1, p.b2, p.b3]

/-- The two bytes of an `EDGE` word: `E` in bits 3:0 and the byte source (log 3). -/
def edgeBytes (e : BitVec 4) : Rx → List Byte
  | .byte b => [0b0000#4 ++ e, b]
  | .shifted => [0b0001#4 ++ e, 0x00]

/-- The port and the bytes of an operation. -/
def encode : Instr → Port × List Byte
  | .reset => (.sys, [0x01])
  | .sample fs bc rx none => (.levels, edgeBytes (edgeWord false fs false bc) rx)
  | .sample fs bc rx (some old) => (.edge, edgeBytes (edgeWord old.fs fs old.bc bc) rx)
  | .fsAssert none => (.event, edgeBytes 0b0100#4 (.byte 0x00))
  | .fsAssert (some c) => (.edge, edgeBytes (assertWord c) (.byte 0x00))
  | .byteClk rx none => (.event, edgeBytes 0b0001#4 rx)
  | .byteClk rx (some fs) => (.edge, edgeBytes (clockWord fs) rx)
  | .fsDeassert none => (.event, edgeBytes 0b1000#4 (.byte 0x00))
  | .fsDeassert (some c) => (.edge, edgeBytes (deassertWord c) (.byte 0x00))
  | .bit d => (.serial, [BitVec.setWidth 8 (BitVec.ofBool d)])
  | .poll => (.host, [0b00, 0, 0, 0, 0])
  | .extract => (.host, [0b01, 0, 0, 0, 0])
  | .inject p => (.host, 0b10 :: packetBytes p)
  | .hostRsvd => (.host, [0b11, 0, 0, 0, 0])
  | .encCmd cmd red green blue => (.encCmd, packetBytes (packetOfCommand (commandOfNats cmd red green blue)))
  | .decCmd p => (.decCmd, packetBytes p)
  | .encSensor weight => (.encSensor, packetBytes (sensorPacket (u8 weight)))
  | .decSensor p => (.decSensor, packetBytes p)
  | .service w => (.service, [w])

/-! ### Words numbered as opcode_table.json numbers them -/

/-- The bytes of a 32-bit word, byte 0 in bits 31:24 (R81). -/
def bytesOfWord (w : Nat) : List Byte := packetBytes (packetOfWord (BitVec.ofNat 32 w))

/-- A whole byte at the port whose row it selects (DESIGN CHOICE, log 2): the table's rows overlap, since no bit names the
port. `RESET` "overrides every other operation of the same instant", so byte 1 is read at the `reset` port; the other values
below 4 are host op codes; values below 16 are edge words; larger ones are the operand of `SERVICE`. A byte brings no operand
beside it, and the one that is missing is read as zeros: byte 2 is `INJECT` of the packet 00 00 00 00, where R144 leaves the write
data to whoever drives the port, and an edge word's received byte is 00 (DESIGN CHOICE, log 2). -/
def byteTableWord (w : Nat) : Port × List Byte :=
  if w = 1 then (.sys, [0x01])
  else if w < 4 then (.host, [BitVec.ofNat 8 w, 0, 0, 0, 0])
  else if w < 16 then (.edge, [BitVec.ofNat 8 w, 0])
  else (.service, [BitVec.ofNat 8 w])

/-- The port and the bytes that stand for a word of the table (log 2). The widths of R80 name the port where they can: 1 bit
`SYS`, 2 bits `HOST`, 4 bits `EDGE`. A whole byte is read by `byteTableWord`, a word of 9 to 16 bits is an edge word with its
byte, one of 17 to 32 bits a packet (a sensor packet when bits 23:0 are zeros, R82, and a command packet otherwise, R93), a
wider one a host op code with its write data. DESIGN CHOICE (log 2): R87 gives the op code and the write data and no one number
for both; here the op code is in bits 7:0 and the packet follows lowest byte first, byte 0 in bits 15:8 and byte 3 in bits 39:32,
the reverse of their order within `wdata`, whose bits 31:24 are byte 0. DESIGN CHOICE (log 2): a word that is too short for its
operand is filled up with zeros, so a 2-bit word (or a byte) with the op code of `INJECT` injects 00 00 00 00, and an edge word of 4
bits (or a byte) receives 00. -/
def tableWordAtPort (nbits w : Nat) : Port × List Byte :=
  if nbits ≤ 1 then (.sys, [BitVec.ofNat 8 w])
  else if nbits ≤ 2 then (.host, [BitVec.ofNat 8 w, 0, 0, 0, 0])
  else if nbits ≤ 4 then (.edge, [BitVec.ofNat 8 w, 0])
  else if nbits ≤ 8 then byteTableWord (w % 2 ^ 8)
  else if nbits ≤ 16 then (.edge, [BitVec.ofNat 8 w, BitVec.ofNat 8 (w / 2 ^ 8)])
  else if nbits ≤ 32 then
    if w % 2 ^ 24 = 0 then (.encSensor, bytesOfWord w) else (.decCmd, bytesOfWord w)
  else (.host, [BitVec.ofNat 8 w, BitVec.ofNat 8 (w / 2 ^ 8), BitVec.ofNat 8 (w / 2 ^ 16), BitVec.ofNat 8 (w / 2 ^ 24),
      BitVec.ofNat 8 (w / 2 ^ 32)])

/-- The instruction that the decoder reads from a word of the table. -/
def decodeTableWord (nbits w : Nat) : Option Instr :=
  match decode (tableWordAtPort nbits w).1 (tableWordAtPort nbits w).2 with
  | .ok i => some i
  | .reject _ => none

end Sys2Proof
end

