-- ==== Sys2Proof/Machine/State.lean ====
section
/-! DEFINITION. The state of one node, whole (10_state.md R20, R34), as plain data, with the model's own observation and
environment fields beside it; the reasons a step can stop; the state after reset (R35). -/

namespace Sys2Proof.Machine

/-- The shift buffer's contents (R21): the slots that hold something else than 0x00, by slot number, rising. A slot that is not
listed holds 0x00, the reset value of every slot (R35; log 16). -/
abbrev Memory := List Host.Cell

/-- The canonical form from slot `lo` on: slot numbers strictly rising, no listed 0x00. -/
def Memory.wfFrom : Nat → Memory → Bool
  | _, [] => true
  | lo, (a, v) :: m => decide (lo ≤ a) && decide (v ≠ 0x00) && Memory.wfFrom (a + 1) m

/-- The canonical form of a buffer: equal buffers are equal lists. -/
def Memory.wf (m : Memory) : Bool := Memory.wfFrom 0 m

/-- Every listed slot exists: its number is in `0 .. cap-1` (R50). -/
def Memory.within (cap : Nat) (m : Memory) : Bool := m.all fun c => decide (c.1 < cap)

/-- The frame state (R23). Its code in two bits is not fixed (U12); a fourth value does not exist (R32). -/
inductive FrameState
  | idle
  | receiving
  | frameComplete
deriving DecidableEq, Repr, Inhabited

/-- The control state of the Node Controller (R180). -/
inductive Ctl
  | awaitFrame
  | decodeAndApply
  | injectNextPacket
deriving DecidableEq, Repr

/-- The two interrupt sources (60_exceptions.md R229). -/
inductive Source
  | frameSelect
  | byteClock
deriving DecidableEq, Repr

/-- The seven conditions with what each carries (60_exceptions.md R220). A condition is a label on a step (R11). -/
inductive Condition
  | malformedFrame (cnt : Nat)
  | bufferNearOverrun
  | staleSensorReading
  | missedUpdate (fstate : FrameState)
  | lostFrame
  | partialByte (bitn : BitVec 3)
  | deadlineMiss (source : Source)
deriving DecidableEq, Repr

/-- What a step puts out (R12, R33). -/
inductive Output
  /-- The byte that the node put on `data_out` during the exchange that this step completes: `emit(b)`. -/
  | emit (b : Byte)
  /-- The bit driven on `data_out` during this bit time (R120). -/
  | dataOut (b : Bool)
  /-- Host port `flag` (R33). -/
  | flag (b : Bool)
  /-- Host port `rdata`, window byte 0 in bits 31:24 (R33). -/
  | rdata (w : BitVec 32)
  /-- The Node Controller's `set_rgb(r, g, b)` (R12). -/
  | setRgb (c : Rgb)
  /-- The packet that an encoder returns. -/
  | packet (p : Packet)
  /-- The fields that `DEC_CMD` returns. -/
  | command (c : Command)
  /-- The weight that `DEC_SENSOR` returns. -/
  | weight (w : Int)
  /-- The step carries this label: `raise`. -/
  | label (c : Condition)
deriving DecidableEq, Repr

/-- The block (R20): the data model, the edge detector, the interrupt logic and the bit-level refinement. -/
structure Block where
  /-- The shift buffer (R21). -/
  buf    : Memory
  /-- The write cursor, `0 .. CAP-1` (R22). -/
  cur    : Nat
  /-- The frame state (R23). -/
  fstate : FrameState
  /-- The byte count in frame; unbounded (R24). -/
  cnt    : Nat
  /-- The outgoing byte (R25). -/
  tx     : Byte
  /-- The level of `frame_select` last seen (R26). -/
  fsQ    : Bool
  /-- The level of `byte_clock` last seen (R26). -/
  bcQ    : Bool
  /-- Interrupt pending: frame select (R27). -/
  ipFs   : Bool
  /-- Interrupt pending: byte clock (R27). -/
  ipBc   : Bool
  /-- The serial shift register (R28). -/
  sr     : Byte
  /-- The bit counter (R28). -/
  bitn   : BitVec 3
deriving DecidableEq, Repr, Inhabited

/-- The Node Controller (R34, R180): its control state and its temporaries. R34 names the extracted window and the decoded
command, R180 the window and the weight; all three are held. -/
structure Controller where
  ctl     : Ctl
  /-- The temporary `w`: the extracted window. -/
  window  : Packet
  /-- The temporary of R34: the decoded command, `cmd` included (R182). -/
  command : Command
  /-- The temporary `s`: the drawn weight, in two's complement. -/
  reading : Byte
deriving DecidableEq, Repr

/-- What the environment or an agent does in one instant. -/
inductive Act
  /-- An operation word stands at a port. -/
  | word (port : Port) (bytes : List Byte)
  /-- The electrical levels of `frame_select` and `byte_clock` have changed to these (R111). -/
  | pins (fsPin bcPin : Bool) (rx : Rx)
  /-- The Node Controller takes one of its steps; the byte is what `latest_reading()` answers if it asks (R180, R241). -/
  | controller (reading : Byte)
  /-- An edge of `source` comes before the handler of the edge before it has finished: the premise `HandlersMeetDeadline` of R265
  is broken (R227; log 9). -/
  | overlappingEdge (source : Source)
deriving DecidableEq, Repr

/-- One instant: the level of the `reset` port, which overrides the rest (R260), and what else happens. -/
structure Turn where
  reset : Bool
  act   : Act
deriving DecidableEq, Repr

/-- The state that the spec gives one node (R20, R34). Nothing that R37 keeps out of the state is here: no parameter, no level of
a line, no `rx`, no order of events, no label. -/
structure Node where
  /-- The Shift-Transport block. -/
  block      : Block
  /-- The Node Controller. -/
  controller : Controller
  /-- The actuator state: the last triple applied (R34). -/
  actuator   : Rgb
  /-- The fault state of a missed deadline, with the source that missed it (R227, U2: "a model enters a fault state", "cleared at the
  next `FS_ASSERT`"; D12); absent while `HandlersMeetDeadline` has held since the last `FS_ASSERT` or `RESET` (log 9). -/
  missed     : Option Source
deriving DecidableEq, Repr

/-- What stands outside the node (R37): the environment's inputs to come and an observer's record of the last step. No
operation of the spec reads any of it (log 1, log 5, log 8). -/
structure Outside where
  /-- The model's own: the packet of the last accepted `INJECT`, remembered for the label of R223 (log 8). -/
  lastInjected : Option Packet
  /-- The model's own: the turns to come (log 1). -/
  turns        : List Turn
  /-- The model's own: what the last step put out, in order (log 5). -/
  out          : List Output
  /-- The model's own: counts steps; the free values of U5 are drawn by it (log 5). -/
  ticks        : Nat
deriving DecidableEq, Repr

/-- What the machine steps from: the node, and beside it what stands outside it. -/
structure State extends Node, Outside
deriving DecidableEq, Repr

/-- Why the machine stops with a fault. -/
inductive Fault
  /-- Raised by the meaning of a detector's step (`SAMPLE`, a whole edge word) when an edge of `source` finds its pending bit still
  set: `DeadlineMiss` (R227: "This spec gives the step no defined result"). The machine's step does not end in it: it enters the
  fault state `Node.missed`, which the next `FS_ASSERT` ends. Safe: nothing is known of what the fault leaves (log 9). -/
  | deadlineMiss (source : Source)
deriving DecidableEq, Repr

/-- Why there is no meaning for what was presented. -/
inductive Refusal
  /-- An instruction whose meaning has not been written. Raised by `exec` alone. Safe. -/
  | notModelled (mnemonic : String)
  /-- Raised by `ENC_CMD` and `ENC_SENSOR` for an argument outside its range (R160, U8: "refuse"). Safe. -/
  | outOfRange
  /-- Raised by the step for a word at a port that is no operation (log 27). Safe. -/
  | undecodable (r : Reject)
  /-- Raised by the chain for a node number outside `1 .. N` (log 23). Safe. -/
  | noSuchNode
  /-- Raised by the chain for a bus event that is addressed to one node: the control lines are common to all nodes (R200).
  Safe (log 23). -/
  | commonToAllNodes
deriving DecidableEq, Repr

/-- The block's reset values (R35, R260). -/
def Block.reset : Block :=
  { buf := [], cur := 0, fstate := .idle, cnt := 0, tx := 0x00, fsQ := false, bcQ := false, ipFs := false, ipBc := false,
    sr := 0x00, bitn := 0 }

/-- The controller right after power-on: `AwaitFrame` (R35); the temporaries are the model's choice (log 15). -/
def Controller.reset : Controller :=
  { ctl := .awaitFrame, window := ⟨0x00, 0x00, 0x00, 0x00⟩, command := ⟨0, 0, 0, 0⟩, reading := 0x00 }

/-- The node right after reset (R35). Nothing is pending: a run's turns are placed from outside (log 1). -/
def State.reset : State :=
  { block := Block.reset, controller := Controller.reset, actuator := Config.actuatorAtPowerOn, missed := none, lastInjected := none,
    turns := [], out := [], ticks := 0 }

end Sys2Proof.Machine
end

