-- ==== Sys2Proof/Machine/Ops.lean ====
section
/-! DEFINITION. The shared operations: the memory primitives on the shift buffer (00_scope.md R10), what an operation of the
block leaves and puts out, and entering and leaving an interrupt handler (60_exceptions.md R232, R233). -/

namespace Sys2Proof.Machine

/-! ### The buffer -/

/-- `buf[i]` for a slot number already reduced: what is listed, else 0x00 (log 16). -/
def Memory.read : Memory → Nat → Byte
  | [], _ => 0x00
  | (a, v) :: m, i => if a = i then v else Memory.read m i

/-- `buf[i] <- v` for a slot number already reduced; keeps the canonical form. -/
def Memory.write : Memory → Nat → Byte → Memory
  | [], i, v => if v = 0x00 then [] else [(i, v)]
  | (a, u) :: m, i, v =>
    if a < i then (a, u) :: Memory.write m i v
    else if a = i then (if v = 0x00 then m else (i, v) :: m)
    else (if v = 0x00 then (a, u) :: m else (i, v) :: (a, u) :: m)

/-- `a mod CAP`, the non-negative remainder also for negative `a` (R8, R9: "the index is always taken `mod CAP` first"). -/
def slot (cap : Nat) (a : Int) : Nat := (a % (cap : Int)).toNat

/-- `buf[a mod CAP]` (R9). -/
def readSlot (cap : Nat) (m : Memory) (a : Int) : Byte := Memory.read m (slot cap a)

/-- `buf[a mod CAP] <- v` (R9). -/
def writeSlot (cap : Nat) (m : Memory) (a : Int) (v : Byte) : Memory := Memory.write m (slot cap a) v

/-- `MemRead(a, n)` (R10). -/
def memRead (cap : Nat) (m : Memory) (a : Int) : Nat → List Byte
  | 0 => []
  | n + 1 => readSlot cap m a :: memRead cap m (a + 1) n

/-- `MemWrite(a, n, v)` with `n` the length of `v`, the lowest address first (R10). -/
def memWrite (cap : Nat) (m : Memory) (a : Int) : List Byte → Memory
  | [] => m
  | v :: vs => memWrite cap (writeSlot cap m a v) (a + 1) vs

/-! ### What an operation does -/

/-- The block after an operation, and what the operation put out, in order. -/
structure Effect where
  block : Block
  out   : List Output
deriving DecidableEq, Repr

/-- One operation after another, the second on the block that the first left (R9: "All assignments of one rule happen in the
order written"). -/
def andThen (e : Effect) (f : Block → Effect) : Effect :=
  { block := (f e.block).block, out := e.out ++ (f e.block).out }

/-- No change and nothing put out. -/
def noEffect (b : Block) : Effect := { block := b, out := [] }

/-- The node after an operation of its block: the rest of the node as it was, `out` what the operation put out. -/
def withEffect (s : State) (e : Effect) : State := { s with block := e.block, out := e.out }

/-- The node after an operation that only puts something out. -/
def withOutput (s : State) (o : List Output) : State := { s with out := o }

/-! ### Interrupts (R229 to R233) -/

/-- The pending bit of a source (R27). -/
def pending (src : Source) (b : Block) : Bool :=
  match src with
  | .frameSelect => b.ipFs
  | .byteClock => b.ipBc

/-- The edge of a source sets its pending bit (R230). -/
def raisePending (src : Source) (b : Block) : Block :=
  match src with
  | .frameSelect => { b with ipFs := true }
  | .byteClock => { b with ipBc := true }

/-- Taking an interrupt: "The block saves nothing and changes nothing on entry except to clear the source's pending bit" (R232). -/
def enterHandler (src : Source) (b : Block) : Block :=
  match src with
  | .frameSelect => { b with ipFs := false }
  | .byteClock => { b with ipBc := false }

/-- Returning from a handler: "nothing restored because nothing was saved" (R233). -/
def leaveHandler (e : Effect) : Effect := e

/-- A source's handler: entry, the operation, return, as one atomic step (R232, R233). -/
def runHandler (src : Source) (body : Block → Effect) (b : Block) : Effect :=
  leaveHandler (body (enterHandler src b))

end Sys2Proof.Machine
end

