-- ==== Sys2Proof/Machine/Flags.lean ====
section
/-! DEFINITION. The flags, which are predicates and not state (10_state.md R31): the `FrameComplete` flag, *selected*,
*well-formed*; and the numbering of the conditions (60_exceptions.md R220). -/

namespace Sys2Proof.Machine

/-- The `FrameComplete` flag: `fstate = FrameComplete` (R31). -/
def frameCompleteFlag (b : Block) : Bool := b.fstate == .frameComplete

/-- *Selected*: `fstate = Receiving` (R31). -/
def selected (b : Block) : Bool := b.fstate == .receiving

/-- *Well-formed*: `cnt != 0 and cnt mod 4 = 0` (R31, R65). -/
def wellFormedCount (cnt : Nat) : Bool := cnt != 0 && cnt % 4 == 0

/-- The number of a condition in the table of R220. -/
def conditionNumber : Condition → Nat
  | .malformedFrame _ => 1
  | .bufferNearOverrun => 2
  | .staleSensorReading => 3
  | .missedUpdate _ => 4
  | .lostFrame => 5
  | .partialByte _ => 6
  | .deadlineMiss _ => 7

/-- The bytes that a step emitted, in order (R12). -/
def emitted : List Output → List Byte
  | [] => []
  | .emit b :: os => b :: emitted os
  | .dataOut _ :: os => emitted os
  | .flag _ :: os => emitted os
  | .rdata _ :: os => emitted os
  | .setRgb _ :: os => emitted os
  | .packet _ :: os => emitted os
  | .command _ :: os => emitted os
  | .weight _ :: os => emitted os
  | .label _ :: os => emitted os

/-- The bits that a step drove on `data_out`, in order (R120). -/
def drivenBits : List Output → List Bool
  | [] => []
  | .emit _ :: os => drivenBits os
  | .dataOut b :: os => b :: drivenBits os
  | .flag _ :: os => drivenBits os
  | .rdata _ :: os => drivenBits os
  | .setRgb _ :: os => drivenBits os
  | .packet _ :: os => drivenBits os
  | .command _ :: os => drivenBits os
  | .weight _ :: os => drivenBits os
  | .label _ :: os => drivenBits os

/-- The actuator calls of a step, in order (R12). -/
def actuatorCalls : List Output → List Rgb
  | [] => []
  | .emit _ :: os => actuatorCalls os
  | .dataOut _ :: os => actuatorCalls os
  | .flag _ :: os => actuatorCalls os
  | .rdata _ :: os => actuatorCalls os
  | .setRgb c :: os => c :: actuatorCalls os
  | .packet _ :: os => actuatorCalls os
  | .command _ :: os => actuatorCalls os
  | .weight _ :: os => actuatorCalls os
  | .label _ :: os => actuatorCalls os

/-- The labels of a step, in order (R11). -/
def labels : List Output → List Condition
  | [] => []
  | .emit _ :: os => labels os
  | .dataOut _ :: os => labels os
  | .flag _ :: os => labels os
  | .rdata _ :: os => labels os
  | .setRgb _ :: os => labels os
  | .packet _ :: os => labels os
  | .command _ :: os => labels os
  | .weight _ :: os => labels os
  | .label c :: os => c :: labels os

end Sys2Proof.Machine
end

