-- ==== Sys2Proof/Machine/Operands.lean ====
section
/-! DEFINITION. The operand forms: the three addressing forms of the buffer (20_memory.md R53), the trailing window, the byte
of a `BYTE_CLK`, and the edge word of a `SAMPLE`. `cap` is `CAP`, a named argument of every operation (00_scope.md R7). -/

namespace Sys2Proof.Machine

/-- Form *append*: write 1 byte at `cur` (R53). -/
def appendByte (cap : Nat) (b : Block) (v : Byte) : Memory := writeSlot cap b.buf b.cur v

/-- `(cur + 1) mod CAP` (R22). -/
def nextCursor (cap cur : Nat) : Nat := (cur + 1) % cap

/-- Form *relay read*: the byte 4 positions behind the cursor (R53). -/
def relayByte (cap : Nat) (m : Memory) (cur : Nat) : Byte := readSlot cap m ((cur : Int) - 4)

/-- Form *window*, read: `win() = MemRead(cur - 4, 4)` (R10, R53). -/
def window (cap : Nat) (b : Block) : Packet :=
  ⟨readSlot cap b.buf ((b.cur : Int) - 4), readSlot cap b.buf ((b.cur : Int) - 3),
    readSlot cap b.buf ((b.cur : Int) - 2), readSlot cap b.buf ((b.cur : Int) - 1)⟩

/-- Form *window*, write: `MemWrite(cur - 4, 4, p)` (R10, R53). -/
def writeWindow (cap : Nat) (b : Block) (p : Packet) : Memory :=
  memWrite cap b.buf ((b.cur : Int) - 4) (packetBytes p)

/-- The byte that a `BYTE_CLK` receives: its operand (R113), or `sr` in the bit-level form (R120). -/
def receivedByte (b : Block) : Rx → Byte
  | .byte v => v
  | .shifted => b.sr

/-- The edge word of a `SAMPLE` (R85, R111). -/
def sampleEdgeWord (b : Block) (fs bc : Bool) : BitVec 4 := edgeWord b.fsQ fs b.bcQ bc

/-- The edge of a source that an edge word shows: either edge of `frame_select`, the active edge of `byte_clock` (R229). -/
def hasEdge (src : Source) (e : BitVec 4) : Bool :=
  match src with
  | .frameSelect => selectsFsAssert e || selectsFsDeassert e
  | .byteClock => selectsByteClk e

/-- The logical level of `frame_select` from its electrical level (R7, R85). -/
def logicalFs (pin : Bool) : Bool := pin == Config.FS_ACTIVE_LEVEL

/-- The logical level of `byte_clock`, 1 for *after the active edge* (R26), from its electrical level: high when the rising edge
is the active one, low when the falling edge is. -/
def logicalBc (pin : Bool) : Bool :=
  match Config.BC_ACTIVE_EDGE with
  | .rising => pin
  | .falling => !pin

end Sys2Proof.Machine
end

