-- ==== Sys2Proof/Machine/Events.lean ====
section
/-! DEFINITION. The operations of the handler context (40_bus_events.md): the three events, the edge detector, the bit-level step. -/

namespace Sys2Proof.Machine

/-! ### The three events (R112, R113, R114), with what the bit-level refinement adds to them (R120, R121) -/

/-- The body of `FS_ASSERT` (R112), with `sr <- tx; bitn <- 0` (R120). -/
def fsAssertBody (cap : Nat) (b : Block) : Effect :=
  let t := relayByte cap b.buf b.cur
  { block := { b with cnt := 0, tx := t, fstate := .receiving, sr := t, bitn := 0 }
    out := if frameCompleteFlag b then [.label .lostFrame] else [] }

/-- The label of a `BYTE_CLK` whose advance wraps (R113, R222). -/
def overrunLabel (cap cur : Nat) : List Output :=
  if cur = cap - 1 then [.label .bufferNearOverrun] else []

/-- The body of `BYTE_CLK` (R113), with `sr <- tx; bitn <- 0` after arming (R120). -/
def byteClkBody (cap : Nat) (rx : Rx) (b : Block) : Effect :=
  if selected b then
    let buf := appendByte cap b (receivedByte b rx)
    let cur := nextCursor cap b.cur
    let t := relayByte cap buf cur
    { block := { b with buf := buf, cur := cur, cnt := b.cnt + 1, tx := t, sr := t, bitn := 0 }
      out := .emit b.tx :: overrunLabel cap b.cur }
  else noEffect b

/-- The label of an `FS_DEASSERT` in the middle of a byte (R121, R226; log 12). -/
def partialByteLabel (bitn : BitVec 3) : List Output :=
  if bitn = 0 then [] else [.label (.partialByte bitn)]

/-- The body of `FS_DEASSERT` (R114). When both labels are carried, `MalformedFrame` stands before `PartialByte` in what is put out:
R234 gives them no priority, the order is the model's (DESIGN CHOICE, log 5). -/
def fsDeassertBody (b : Block) : Effect :=
  if selected b then
    if wellFormedCount b.cnt then
      { block := { b with fstate := .frameComplete }, out := partialByteLabel b.bitn }
    else
      { block := { b with fstate := .idle }, out := .label (.malformedFrame b.cnt) :: partialByteLabel b.bitn }
  else noEffect b

/-- `FS_ASSERT` as the frame-select handler runs it. -/
def fsAssert (cap : Nat) (b : Block) : Effect := runHandler .frameSelect (fsAssertBody cap) b

/-- `BYTE_CLK` as the byte-clock handler runs it. -/
def byteClk (cap : Nat) (rx : Rx) (b : Block) : Effect := runHandler .byteClock (byteClkBody cap rx) b

/-- `FS_DEASSERT` as the frame-select handler runs it. -/
def fsDeassert (b : Block) : Effect := runHandler .frameSelect fsDeassertBody b

/-! ### The edge detector (R111) -/

/-- The detector takes in the new levels, and each edge sets the pending bit of its source (R111, R27, R230). -/
def latch (fs bc : Bool) (b : Block) : Block :=
  let e := sampleEdgeWord b fs bc
  let b1 := { b with fsQ := fs, bcQ := bc }
  let b2 := if hasEdge .frameSelect e then raisePending .frameSelect b1 else b1
  if hasEdge .byteClock e then raisePending .byteClock b2 else b2

/-- The source whose edge finds its pending bit still set, the frame-select source first (R227, R230; log 9). -/
def missedDeadline (b : Block) (fs bc : Bool) : Option Source :=
  let e := sampleEdgeWord b fs bc
  if hasEdge .frameSelect e && pending .frameSelect b then some .frameSelect
  else if hasEdge .byteClock e && pending .byteClock b then some .byteClock
  else none

/-- `if E[3:2] = 0b01 then FS_ASSERT` (R111). -/
def sampleAssert (cap : Nat) (e : BitVec 4) (b : Block) : Effect :=
  if selectsFsAssert e then fsAssert cap b else noEffect b

/-- `if E[1:0] = 0b01 then BYTE_CLK(rx)` (R111). -/
def sampleByte (cap : Nat) (e : BitVec 4) (rx : Rx) (b : Block) : Effect :=
  if selectsByteClk e then byteClk cap rx b else noEffect b

/-- `if E[3:2] = 0b10 then FS_DEASSERT` (R111). -/
def sampleDeassert (e : BitVec 4) (b : Block) : Effect :=
  if selectsFsDeassert e then fsDeassert b else noEffect b

/-- `SAMPLE(fs, bc, rx)` (R111): "The three `if`s run in the order written". -/
def sample (cap : Nat) (fs bc : Bool) (rx : Rx) (b : Block) : Effect :=
  let e := sampleEdgeWord b fs bc
  andThen (andThen (sampleAssert cap e (latch fs bc b)) (sampleByte cap e rx)) (sampleDeassert e)

/-- The three events, by name (R86). -/
inductive BusEvent
  | fsAssert
  | byteClk
  | fsDeassert
deriving DecidableEq, Repr

/-- The second table of R86: "All sixteen values, with the order of events when two are selected". -/
def edgeEvents (e : BitVec 4) : List BusEvent :=
  match e.toNat with
  | 0b0000 => []
  | 0b0001 => [.byteClk]
  | 0b0010 => []
  | 0b0011 => []
  | 0b0100 => [.fsAssert]
  | 0b0101 => [.fsAssert, .byteClk]
  | 0b0110 => [.fsAssert]
  | 0b0111 => [.fsAssert]
  | 0b1000 => [.fsDeassert]
  | 0b1001 => [.byteClk, .fsDeassert]
  | 0b1010 => [.fsDeassert]
  | 0b1011 => [.fsDeassert]
  | 0b1100 => []
  | 0b1101 => [.byteClk]
  | 0b1110 => []
  | _ => []

/-- One event, run by its handler. -/
def runEvent (cap : Nat) (rx : Rx) (ev : BusEvent) (b : Block) : Effect :=
  match ev with
  | .fsAssert => fsAssert cap b
  | .byteClk => byteClk cap rx b
  | .fsDeassert => fsDeassert b

/-- Events one after another. -/
def runEvents (cap : Nat) (rx : Rx) : List BusEvent → Block → Effect
  | [], b => noEffect b
  | ev :: evs, b => andThen (runEvent cap rx ev b) (runEvents cap rx evs)

/-! ### The bit-level step (R120) -/

/-- `sr[6:0] ++ d` (R120). -/
def shiftIn (sr : Byte) (d : Bool) : Byte := sr.extractLsb' 0 7 ++ BitVec.ofBool d

/-- `BIT(d)` (R120). -/
def bitTime (d : Bool) (b : Block) : Effect :=
  if selected b then
    { block := { b with sr := shiftIn b.sr d, bitn := b.bitn + 1 }, out := [.dataOut (b.sr.getLsbD 7)] }
  else noEffect b

/-- The level of `data_out` of node `k` (R25, R84, R120): bit 7 of what is being sent while selected, any value otherwise (U5). -/
def dataOutPin (k : Nat) (s : State) : Bool :=
  if selected s.block then s.block.sr.getLsbD 7 else Config.idleDataOut k s.ticks

/-! ### The meanings, at any capacity (44_chain.md R201) -/

/-- One step of the edge detector on the block `b` of the node `s` (R111). An edge that comes before its source's handler has
started is `DeadlineMiss` (R227). -/
def detect (cap : Nat) (fs bc : Bool) (rx : Rx) (b : Block) (s : State) : Host.Outcome State Fault Refusal :=
  match missedDeadline b fs bc with
  | some src => .fault (.deadlineMiss src)
  | none => .next (withEffect s (sample cap fs bc rx b))

/-- The detector's memory as an edge word gives it: `E[3] = fs_q`, `E[1] = bc_q` (R85; log 31). -/
def recallLevels (old : Levels) (b : Block) : Block := { b with fsQ := old.fs, bcQ := old.bc }

/-- The step of the detector that a whole edge word describes: "The event or events of the step are selected by `E` alone" (R85),
and `fs_q`, `bc_q` take its new levels (R92). -/
def detectWord (cap : Nat) (e : BitVec 4) (rx : Rx) (s : State) : Host.Outcome State Fault Refusal :=
  detect cap (e.getLsbD 2) (e.getLsbD 0) rx (recallLevels ⟨e.getLsbD 3, e.getLsbD 1⟩ s.block) s

/-- `SAMPLE` (R111). -/
def sampleAt (cap : Nat) (fs bc : Bool) (rx : Rx) (s : State) (old : Option Levels) : Host.Outcome State Fault Refusal :=
  match old with
  | none => detect cap fs bc rx s.block s
  | some l => detectWord cap (edgeWord l.fs fs l.bc bc) rx s

/-- `FS_ASSERT` (R112), by itself or as an edge word selects it (R86). -/
def fsAssertAt (cap : Nat) (s : State) (clock : Option ClockLevels) : Host.Outcome State Fault Refusal :=
  match clock with
  | none => .next (withEffect s (fsAssert cap s.block))
  | some c => detectWord cap (assertWord c) .shifted s

/-- `BYTE_CLK(rx)` (R113), by itself or as an edge word selects it (R86). -/
def byteClkAt (cap : Nat) (rx : Rx) (s : State) (select : Option Bool) : Host.Outcome State Fault Refusal :=
  match select with
  | none => .next (withEffect s (byteClk cap rx s.block))
  | some fs => detectWord cap (clockWord fs) rx s

/-- `FS_DEASSERT` (R114), by itself or as an edge word selects it (R86). -/
def fsDeassertAt (cap : Nat) (s : State) (clock : Option ClockLevels) : Host.Outcome State Fault Refusal :=
  match clock with
  | none => .next (withEffect s (fsDeassert s.block))
  | some c => detectWord cap (deassertWord c) .shifted s

/-! ### The meanings -/

/-- `SAMPLE` (R111). -/
def execSample (fs bc : Bool) (rx : Rx) (s : State) (old : Option Levels := none) : Host.Outcome State Fault Refusal :=
  sampleAt Config.CAP fs bc rx s old

/-- `FS_ASSERT` (R112). -/
def execFsAssert (s : State) (clock : Option ClockLevels := none) : Host.Outcome State Fault Refusal :=
  fsAssertAt Config.CAP s clock

/-- `BYTE_CLK(rx)` (R113). -/
def execByteClk (rx : Rx) (s : State) (select : Option Bool := none) : Host.Outcome State Fault Refusal :=
  byteClkAt Config.CAP rx s select

/-- `FS_DEASSERT` (R114). -/
def execFsDeassert (s : State) (clock : Option ClockLevels := none) : Host.Outcome State Fault Refusal :=
  fsDeassertAt Config.CAP s clock

/-- `BIT(d)` (R120). -/
def execBit (d : Bool) (s : State) : Host.Outcome State Fault Refusal :=
  .next (withEffect s (bitTime d s.block))

end Sys2Proof.Machine
end

