-- ==== Sys2Proof/Machine/Codec.lean ====
section
/-! DEFINITION. The Frame Codec (42_frame_codec.md): four pure functions. "A codec function reads no state of the block and
writes none" (R160), so a meaning only puts its result out. -/

namespace Sys2Proof.Machine

/-- `ENC_CMD` on arguments in range (R161). -/
def encodeCommand (c : Command) : Packet := packetOfCommand c

/-- `DEC_CMD` (R162). -/
def decodeCommand (p : Packet) : Command := commandOfPacket p

/-- `ENC_SENSOR` on a weight in range, given as its byte in two's complement (R163). -/
def encodeSensor (w : Byte) : Packet := sensorPacket w

/-- `DEC_SENSOR` (R164): `s8(p0)`. -/
def decodeSensor (p : Packet) : Int := s8 p.b0

/-- The channels of a command; `cmd` is ignored (R90, R182). -/
def channels (c : Command) : Rgb := ⟨c.red, c.green, c.blue⟩

/-- `ENC_CMD(cmd, red, green, blue)` (R161); an argument out of range is refused, "and must not mask or saturate it" (R160). -/
def execEncCmd (cmd red green blue : Nat) (s : State) : Host.Outcome State Fault Refusal :=
  if commandInRange cmd red green blue then
    .next (withOutput s [.packet (encodeCommand (commandOfNats cmd red green blue))])
  else .refused .outOfRange

/-- `DEC_CMD(p)` (R162). -/
def execDecCmd (p : Packet) (s : State) : Host.Outcome State Fault Refusal :=
  .next (withOutput s [.command (decodeCommand p)])

/-- `ENC_SENSOR(weight)` (R163); an argument out of range is refused (R160). -/
def execEncSensor (weight : Int) (s : State) : Host.Outcome State Fault Refusal :=
  if weightInRange weight then .next (withOutput s [.packet (encodeSensor (u8 weight))])
  else .refused .outOfRange

/-- `DEC_SENSOR(p)` (R164). -/
def execDecSensor (p : Packet) (s : State) : Host.Outcome State Fault Refusal :=
  .next (withOutput s [.weight (decodeSensor p)])

end Sys2Proof.Machine
end

