-- ==== Sys2Proof/Machine/HostPort.lean ====
section
/-! DEFINITION. The operations of the main-loop context (41_host_port.md): `POLL`, `EXTRACT`, `INJECT`, and the reserved op code. -/

namespace Sys2Proof.Machine

/-- `POLL` (R141): `return (fstate = FrameComplete)`. -/
def poll (b : Block) : Effect := { block := b, out := [.flag (frameCompleteFlag b)] }

/-- `EXTRACT` (R142): `valid` and the window, from the same instant. -/
def extract (cap : Nat) (b : Block) : Effect :=
  { block := b, out := [.flag (frameCompleteFlag b), .rdata (packetWord (window cap b))] }

/-- `HOST_RSVD` (R143): `return (0, [0,0,0,0])`. -/
def hostReserved (b : Block) : Effect := { block := b, out := [.flag false, .rdata 0] }

/-- `INJECT(p)` on the block (R144). -/
def inject (cap : Nat) (p : Packet) (b : Block) : Effect :=
  if frameCompleteFlag b then
    { block := { b with buf := writeWindow cap b p, fstate := .idle }, out := [.flag true] }
  else { block := b, out := [.label (.missedUpdate b.fstate), .flag false] }

/-- The observer's memory of the last accepted `INJECT` (R223; log 8). -/
def rememberInjected (p : Packet) (b : Block) (before : Option Packet) : Option Packet :=
  if frameCompleteFlag b then some p else before

/-- `INJECT(p)` on the node. -/
def injectState (cap : Nat) (p : Packet) (s : State) : State :=
  { withEffect s (inject cap p s.block) with lastInjected := rememberInjected p s.block s.lastInjected }

/-- `POLL` (R141). -/
def execPoll (s : State) : Host.Outcome State Fault Refusal := .next (withEffect s (poll s.block))

/-- `EXTRACT` (R142). -/
def execExtract (s : State) : Host.Outcome State Fault Refusal := .next (withEffect s (extract Config.CAP s.block))

/-- `INJECT(p)` (R144). -/
def execInject (p : Packet) (s : State) : Host.Outcome State Fault Refusal := .next (injectState Config.CAP p s)

/-- `HOST_RSVD` (R143): no effect, zeros returned (U3; log 19). -/
def execHostRsvd (s : State) : Host.Outcome State Fault Refusal := .next (withEffect s (hostReserved s.block))

end Sys2Proof.Machine
end

