-- ==== Sys2Proof/Machine/NodeController.lean ====
section
/-! DEFINITION. The Node Controller (43_node_controller.md): its three steps, between any two of which bus events may occur
(R180), and the whole pass `SERVICE`. -/

namespace Sys2Proof.Machine

/-- `AwaitFrame` (R181). -/
def awaitFrame (s : State) : State :=
  let f := frameCompleteFlag s.block
  { withEffect s (poll s.block) with
    controller := { s.controller with ctl := if f then .decodeAndApply else .awaitFrame } }

/-- `DecodeAndApply` (R182): the window is used only if `valid`. -/
def decodeAndApply (cap : Nat) (s : State) : State :=
  let w := window cap s.block
  let s1 := withEffect s (extract cap s.block)
  if frameCompleteFlag s.block then
    let c := decodeCommand w
    { s1 with
      out := s1.out ++ [.setRgb (channels c)]
      actuator := channels c
      controller := { s.controller with window := w, command := c, ctl := .injectNextPacket } }
  else { s1 with controller := { s.controller with window := w, ctl := .awaitFrame } }

/-- The label of an injection of the reading that was injected last (R223, R186; log 8). -/
def staleLabel (p : Packet) (last : Option Packet) : List Output :=
  if last = some p then [.label .staleSensorReading] else []

/-- `InjectNextPacket` (R183), `reading` being what the sensor answered. -/
def injectNextPacket (cap : Nat) (reading : Byte) (s : State) : State :=
  let p := encodeSensor reading
  let s1 := injectState cap p s
  { s1 with
    out := staleLabel p s.lastInjected ++ s1.out
    controller := { s.controller with reading := reading, ctl := .awaitFrame } }

/-- One step of the Node Controller (R180). -/
def controllerStep (cap : Nat) (reading : Byte) (s : State) : State :=
  match s.controller.ctl with
  | .awaitFrame => awaitFrame s
  | .decodeAndApply => decodeAndApply cap s
  | .injectNextPacket => injectNextPacket cap reading s

/-- `SERVICE(w)` (R184): `POLL`; if it answers 1, `EXTRACT`, `DEC_CMD`, `set_rgb`, `INJECT(ENC_SENSOR(w))`. The control state is
as it was, since the whole pass ends where it began (log 14); the temporaries are those of R182 and R183. -/
def service (cap : Nat) (w : Byte) (s : State) : State :=
  if frameCompleteFlag s.block then
    let win := window cap s.block
    let c := decodeCommand win
    let p := encodeSensor w
    let s1 := injectState cap p s
    { s1 with
      out := (poll s.block).out ++ (extract cap s.block).out ++ [.setRgb (channels c)] ++ staleLabel p s.lastInjected ++ s1.out
      actuator := channels c
      controller := { s.controller with window := win, command := c, reading := w } }
  else withEffect s (poll s.block)

/-- `SERVICE(w)` (R184). -/
def execService (w : Byte) (s : State) : Host.Outcome State Fault Refusal := .next (service Config.CAP w s)

end Sys2Proof.Machine
end

