-- ==== Sys2Proof/Machine/Reset.lean ====
section
/-! DEFINITION. `RESET` (70_reset_and_hazards.md R260). -/

namespace Sys2Proof.Machine

/-- `RESET` on the node: every field of the block to its reset value, `ctl` to `AwaitFrame`; "Not reset, because not state of the
block: the actuator's output" (R261). A missed deadline is over (log 9). The controller's temporaries stay (log 15); the observer
starts afresh (log 8). -/
def resetState (s : State) : State :=
  { s with
    block := Block.reset
    controller := { s.controller with ctl := .awaitFrame }
    missed := none
    lastInjected := none
    out := [] }

/-- `RESET` (R260): "acts from every state, at any moment", and raises nothing. -/
def execReset (s : State) : Host.Outcome State Fault Refusal := .next (resetState s)

end Sys2Proof.Machine
end

