-- ==== Sys2Proof/Machine/Dispatch.lean ====
section
/-! DEFINITION. One arm for each operation (30_encoding.md R97). -/

namespace Sys2Proof.Machine

def exec (i : Instr) (s : State) : Host.Outcome State Fault Refusal :=
  match i with
  | .reset => Sys2Proof.Machine.execReset s
  -- handler context (40_bus_events.md)
  | .sample fs bc rx old => Sys2Proof.Machine.execSample fs bc rx s old
  | .fsAssert clock => Sys2Proof.Machine.execFsAssert s clock
  | .byteClk rx select => Sys2Proof.Machine.execByteClk rx s select
  | .fsDeassert clock => Sys2Proof.Machine.execFsDeassert s clock
  | .bit d => Sys2Proof.Machine.execBit d s
  -- main-loop context (41_host_port.md)
  | .poll => Sys2Proof.Machine.execPoll s
  | .extract => Sys2Proof.Machine.execExtract s
  | .inject p => Sys2Proof.Machine.execInject p s
  | .hostRsvd => Sys2Proof.Machine.execHostRsvd s
  -- Frame Codec (42_frame_codec.md)
  | .encCmd cmd red green blue => Sys2Proof.Machine.execEncCmd cmd red green blue s
  | .decCmd p => Sys2Proof.Machine.execDecCmd p s
  | .encSensor weight => Sys2Proof.Machine.execEncSensor weight s
  | .decSensor p => Sys2Proof.Machine.execDecSensor p s
  -- Node Controller (43_node_controller.md)
  | .service w => Sys2Proof.Machine.execService w s

end Sys2Proof.Machine
end

