-- ==== Sys2Proof/Machine/DeadlineFault.lean ====
section
/-! DEFINITION. The fault state of a missed deadline (60_exceptions.md R227; 93_implementation_defined.md U2: "`fault`, cleared at the next
`FS_ASSERT`"; D12). A step that misses the deadline "has no defined result": it enters the fault state, in which nothing is known of
the block and of what its handlers put out, and the `FS_ASSERT` that follows runs as ever and ends the fault, "self-healing on the
next frame". -/

namespace Sys2Proof.Config

/-- Free value: the block of node `k` at the instant `ticks`, while a missed deadline has corrupted it (U2; log 32). -/
opaque blockInFault : Nat → Nat → Machine.Block

/-- Free value: what a handler of node `k` puts out at the instant `ticks`, while a missed deadline has corrupted it (U2; log 32). -/
opaque outputsInFault : Nat → Nat → List Machine.Output

end Sys2Proof.Config

namespace Sys2Proof.Machine

/-! ### What is not known -/

/-- Any bytes in the slots that exist, in the canonical form. -/
def anyBuffer (cap : Nat) (m : Memory) : Memory := memWrite cap [] 0 ((List.range cap).map (Memory.read m))

/-- Any block of capacity `cap`, `u` being unknown, that saw the levels of `b` last: the detector goes on seeing the lines, since what
is late is a handler (DEDUCED, log 32). -/
def anyBlock (cap : Nat) (u b : Block) : Block :=
  { u with buf := anyBuffer cap u.buf, cur := u.cur % cap, fsQ := b.fsQ, bcQ := b.bcQ }

/-- Node `k` in the fault state: its block is unknown, and the step puts out `os`. -/
def corrupt (k cap : Nat) (src : Source) (os : List Output) (s : State) : State :=
  { s with missed := some src, block := anyBlock cap (Config.blockInFault k s.ticks) s.block, out := os }

/-- What a step that misses the deadline puts out: the label (R220), and beside it nothing is known. -/
def missOutputs (k : Nat) (src : Source) (s : State) : List Output :=
  .label (.deadlineMiss src) :: Config.outputsInFault k s.ticks

/-! ### Into the fault state and out of it -/

/-- No handler is waiting to start. -/
def withoutPending (s : State) : State := { s with block := { s.block with ipFs := false, ipBc := false } }

/-- The premise holds again (U2): no fault, and no handler waiting to start. -/
def premiseAgain (s : State) : State := { withoutPending s with missed := none }

/-- An operation of the handler context (R235). -/
def handlerOp : Instr → Bool
  | .reset => false
  | .sample _ _ _ _ => true
  | .fsAssert _ => true
  | .byteClk _ _ => true
  | .fsDeassert _ => true
  | .bit _ => true
  | .poll => false
  | .extract => false
  | .inject _ => false
  | .hostRsvd => false
  | .encCmd _ _ _ _ => false
  | .decCmd _ => false
  | .encSensor _ => false
  | .decSensor _ => false
  | .service _ => false

/-- The operation ends the fault: it performs `FS_ASSERT` (U2), by itself or as an edge word selects it (R86), or it is `RESET`, which
gives every field its reset value "from every state" (R260; log 9). -/
def endsFault (i : Instr) (b : Block) : Bool :=
  match i with
  | .reset => true
  | .sample fs bc _ none => selectsFsAssert (sampleEdgeWord b fs bc)
  | .sample fs bc _ (some l) => selectsFsAssert (edgeWord l.fs fs l.bc bc)
  | .fsAssert _ => true
  | .byteClk _ _ => false
  | .fsDeassert _ => false
  | .bit _ => false
  | .poll => false
  | .extract => false
  | .inject _ => false
  | .hostRsvd => false
  | .encCmd _ _ _ _ => false
  | .decCmd _ => false
  | .encSensor _ => false
  | .decSensor _ => false
  | .service _ => false

/-- A step `f` that leaves node `k` in the fault state and puts out `put` of what it put out: the levels that the detector saw, and
what the step did outside the block, are those of `f`. -/
def inFault (k cap : Nat) (src : Source) (put : List Output → List Output) (f : State → Host.Outcome State Fault Refusal)
    (s : State) : Host.Outcome State Fault Refusal :=
  match f (withoutPending s) with
  | .next t => .next (corrupt k cap src (put t.out) t)
  | .fault r => .fault r
  | .refused r => .refused r

/-- A step `f` of node `k`, which has the capacity `cap`. With no fault standing it is `f`, or the step into the fault state where `f`
misses the deadline. While a fault stands, a step that ends it is `f` with the premise restored, and every other step leaves the
fault standing: one of the main loop works on an unknown block, one of a handler puts out nothing that is known (R227, U2). -/
def guardStep (k cap : Nat) (ends handler : Bool) (f : State → Host.Outcome State Fault Refusal) (s : State) :
    Host.Outcome State Fault Refusal :=
  match s.missed with
  | none =>
    match f s with
    | .next t => .next t
    | .fault (.deadlineMiss src) => inFault k cap src (fun _ => missOutputs k src s) f s
    | .refused r => .refused r
  | some src =>
    if ends then f (premiseAgain s)
    else inFault k cap src (fun os => if handler then Config.outputsInFault k s.ticks else os) f s

/-- The operation `i` at node `k`, its meaning being `f`. -/
def guardOp (k cap : Nat) (i : Instr) (f : State → Host.Outcome State Fault Refusal) (s : State) :
    Host.Outcome State Fault Refusal :=
  guardStep k cap (endsFault i s.block) (handlerOp i) f s

/-- The level that the edge of a source leaves (R229): either edge of `frame_select`, the active edge of `byte_clock`. -/
def afterEdge (src : Source) (b : Block) : Block :=
  match src with
  | .frameSelect => { b with fsQ := !b.fsQ }
  | .byteClock => { b with bcQ := true }

/-- An edge of `src` comes while a handler is still running: `DeadlineMiss` (R227, R233). -/
def overlap (k cap : Nat) (src : Source) (s : State) : State :=
  corrupt k cap src (missOutputs k src s) { s with block := afterEdge src s.block }

end Sys2Proof.Machine
end

