-- ==== Sys2Proof/Machine/Turns.lean ====
section
/-! DEFINITION. What one turn of the queue does (20_memory.md R60; 70_reset_and_hazards.md R260 (b); log 1), and how a word is
placed for the next step. -/

namespace Sys2Proof.Machine

/-- The state in which the head of the queue has been taken: the rest of the queue, one tick later. -/
def takeTurn (s : State) (rest : List Turn) : State := { s with turns := rest, ticks := s.ticks + 1 }

/-- An operation at the node: its meaning, with the fault state of a missed deadline (R227, U2). -/
def runOp (i : Instr) (s : State) : Host.Outcome State Fault Refusal := guardOp 0 Config.CAP i (exec i) s

/-- A step of the node's controller, which belongs to the main loop. -/
def runController (reading : Byte) (s : State) : Host.Outcome State Fault Refusal :=
  guardStep 0 Config.CAP false false (fun u => .next (controllerStep Config.CAP reading u)) s

/-- What happens in a turn in which `reset` is not asserted. -/
def runAct (act : Act) (s : State) : Host.Outcome State Fault Refusal :=
  match act with
  | .word port bytes =>
    match decode port bytes with
    | .ok i => runOp i s
    | .reject r => .refused (.undecodable r)
  | .pins fsPin bcPin rx => runOp (.sample (logicalFs fsPin) (logicalBc bcPin) rx) s
  | .controller reading => runController reading s
  | .overlappingEdge src => .next (overlap 0 Config.CAP src s)

/-- One turn: "While `reset` is held asserted the block stays in the reset state and ignores all other inputs" (R260 (b)). -/
def runTurn (t : Turn) (s : State) : Host.Outcome State Fault Refusal :=
  if t.reset then exec .reset s else runAct t.act s

/-- No turn to come: "no field of the state changes" (R115); nothing is put out, and time goes on for `data_out` (U5). -/
def idleStep (s : State) : State := { s with out := [], ticks := s.ticks + 1 }

/-- The next step of the machine. -/
def nextStep (s : State) : Host.Outcome State Fault Refusal :=
  match s.turns with
  | [] => .next (idleStep s)
  | t :: rest => runTurn t (takeTurn s rest)

/-- `s` with the word `w` of `nbits` bits standing at its port as the next turn (log 1, log 2). -/
def placeTableWord (s : State) (nbits w : Nat) : State :=
  { s with
    turns := { reset := false, act := .word (tableWordAtPort nbits w).1 (tableWordAtPort nbits w).2 } :: s.turns }

end Sys2Proof.Machine
end

