-- ==== Sys2Proof/Machine/Step.lean ====
section
/-! DEFINITION. The step, and where the next instruction is placed. -/

namespace Sys2Proof.Machine

/-- One step of the machine: one whole operation (20_memory.md R60). -/
def step (s : State) : Host.Outcome State Fault Refusal := nextStep s

/-- `s` with the table's word placed so that the very next step runs it (log 1). -/
def State.withFetchWord (s : State) (nbits w : Nat) : State := placeTableWord s nbits w

end Sys2Proof.Machine
end

