-- ==== Sys2Proof/Machine/Chain.lean ====
section
/-! DEFINITION. The chain of N nodes (44_chain.md): N nodes in a list, node 1 first, coupled by the three wires alone (R200). "nothing
here adds state to a node": a link is a `State` of one node, and N is the length of the list. The nodes may have "different
`CAP`" (R201): `cap k` is the capacity of node `k`, an argument of every chain operation. -/

namespace Sys2Proof.Machine

/-! ### One node of the chain -/

/-- An operation at a node of capacity `cap`: `exec` is this at `Config.CAP`. -/
def execAtCapacity (cap : Nat) (i : Instr) (s : State) : Host.Outcome State Fault Refusal :=
  match i with
  | .reset => execReset s
  | .sample fs bc rx old => sampleAt cap fs bc rx s old
  | .fsAssert clock => fsAssertAt cap s clock
  | .byteClk rx select => byteClkAt cap rx s select
  | .fsDeassert clock => fsDeassertAt cap s clock
  | .bit d => execBit d s
  | .poll => execPoll s
  | .extract => .next (withEffect s (extract cap s.block))
  | .inject p => .next (injectState cap p s)
  | .hostRsvd => execHostRsvd s
  | .encCmd cmd red green blue => execEncCmd cmd red green blue s
  | .decCmd p => execDecCmd p s
  | .encSensor weight => execEncSensor weight s
  | .decSensor p => execDecSensor p s
  | .service w => .next (service cap w s)

/-- An operation at node `k`, of capacity `cap`, with the fault state of a missed deadline (R227, U2). -/
def nodeOp (k cap : Nat) (i : Instr) (n : State) : Host.Outcome State Fault Refusal := guardOp k cap i (execAtCapacity cap i) n

/-- Node `k` after an operation that the common lines bring, which always answers a next state (`nodeOp_event`). -/
def afterEvent (k cap : Nat) (i : Instr) (n : State) : State :=
  match nodeOp k cap i n with
  | .next t => t
  | .fault _ => n
  | .refused _ => n

/-! ### The wires (R200, R202) -/

/-- `e_k`: the byte that the downstream neighbour reads from node `k` in this byte slot: `tx` (R202); any value while node `k` is
not selected (U5; log 7). -/
def lineByte (k : Nat) (n : State) : Byte :=
  if selected n.block then n.block.tx else Config.idleLineByte k n.ticks

/-- What the next node receives when its upstream neighbour has sent `e` (R202: `rx_k <- e_(k-1)`); in the bit-level form every
node has assembled its own byte. -/
def relayRx (e : Byte) : Rx → Rx
  | .byte _ => .byte e
  | .shifted => .shifted

/-- Something done at every node of the list, the first of which is node `k`. -/
def atNodesFrom {α : Type} (f : Nat → State → α) : Nat → List State → List α
  | _, [] => []
  | k, n :: ns => f k n :: atNodesFrom f (k + 1) ns

/-- Something done at every node of a chain, numbered from 1 (R200). -/
def atNodes {α : Type} (f : Nat → State → α) (nodes : List State) : List α := atNodesFrom f 1 nodes

/-- Chain `FS_ASSERT` (R201). -/
def chainFsAssert (cap : Nat → Nat) (nodes : List State) : List State :=
  atNodes (fun k n => afterEvent k (cap k) .fsAssert n) nodes

/-- Chain `FS_DEASSERT` (R201). -/
def chainFsDeassert (cap : Nat → Nat) (nodes : List State) : List State :=
  atNodes (fun k n => afterEvent k (cap k) .fsDeassert n) nodes

/-- Chain `BYTE_CLK` from node `k` on: every node receives what its upstream neighbour had armed before the slot (R202). -/
def chainByteClkFrom (cap : Nat → Nat) : Nat → Rx → List State → List State
  | _, _, [] => []
  | k, rx, n :: ns =>
    afterEvent k (cap k) (.byteClk rx) n :: chainByteClkFrom cap (k + 1) (relayRx (lineByte k n) rx) ns

/-- Chain `BYTE_CLK(m)` (R202). -/
def chainByteClk (cap : Nat → Nat) (rx : Rx) (nodes : List State) : List State := chainByteClkFrom cap 1 rx nodes

/-- What the master receives in this byte slot, from node `k` on: `e_N` (R202). -/
def tailByteFrom : Nat → List State → List Byte
  | _, [] => []
  | k, [n] => [lineByte k n]
  | k, _ :: n :: ns => tailByteFrom (k + 1) (n :: ns)

/-- `return e_N` (R202). -/
def tailByte (nodes : List State) : List Byte := tailByteFrom 1 nodes

/-- A chain step of `BIT`: node `k+1`'s `data_in` is node `k`'s `data_out` (R200, R120; DEDUCED, log 30). -/
def chainBitFrom (cap : Nat → Nat) : Nat → Bool → List State → List State
  | _, _, [] => []
  | k, d, n :: ns => afterEvent k (cap k) (.bit d) n :: chainBitFrom cap (k + 1) (dataOutPin k n) ns

/-- The level on the master's data input in this bit time, from node `k` on: "node `N`'s `data_out` is the bus master's data input"
(R200; DEDUCED, log 30). -/
def tailBitFrom : Nat → List State → List Bool
  | _, [] => []
  | k, [n] => [dataOutPin k n]
  | k, _ :: n :: ns => tailBitFrom (k + 1) (n :: ns)

/-- The byte that node `k` sends in a `SAMPLE`: what `FS_ASSERT` has just armed where the slot opens in this very step (R86, R202;
log 30); any value where the node is, or comes to be, in the fault state (log 32). -/
def sampleLineByte (k cap : Nat) (fs bc : Bool) (n : State) : Byte :=
  match (afterEvent k cap (.sample fs bc .shifted) n).missed with
  | none => lineByte k (withEffect n (sampleAssert cap (sampleEdgeWord n.block fs bc) (latch fs bc n.block)))
  | some _ => Config.idleLineByte k n.ticks

/-- A chain step of `SAMPLE` from node `k` on: the control lines go to every node alike (R200; log 30). -/
def chainSampleFrom (cap : Nat → Nat) (fs bc : Bool) : Nat → Rx → List State → List State
  | _, _, [] => []
  | k, rx, n :: ns =>
    afterEvent k (cap k) (.sample fs bc rx) n ::
      chainSampleFrom cap fs bc (k + 1) (relayRx (sampleLineByte k (cap k) fs bc n) rx) ns

/-- What the master receives in a `SAMPLE` that clocks a byte out of the last node, from node `k` on (R202, log 30). -/
def sampleTailFrom (cap : Nat → Nat) (fs bc : Bool) : Nat → List State → List Byte
  | _, [] => []
  | k, [n] => if selectsByteClk (sampleEdgeWord n.block fs bc) then [sampleLineByte k (cap k) fs bc n] else []
  | k, _ :: n :: ns => sampleTailFrom cap fs bc (k + 1) (n :: ns)

/-! ### Scans -/

/-- The bytes of a scan, one after another; with what the master receives, in order of arrival (R203). -/
def chainBytes (cap : Nat → Nat) : List Byte → List State → List State × List Byte
  | [], nodes => (nodes, [])
  | m :: ms, nodes =>
    let r := chainBytes cap ms (chainByteClk cap (.byte m) nodes)
    (r.1, tailByte nodes ++ r.2)

/-- `SCAN` on a chain (R96): `FS+`, the master's bytes, `FS-`. -/
def chainScan (cap : Nat → Nat) (ms : List Byte) (nodes : List State) : List State × List Byte :=
  let r := chainBytes cap ms (chainFsAssert cap nodes)
  (chainFsDeassert cap r.1, r.2)

/-- The trailing windows of the nodes, node 1 first: `W_1, W_2, .., W_N` (R203). -/
def chainWindows (cap : Nat → Nat) (nodes : List State) : List Packet := atNodes (fun k n => window (cap k) n.block) nodes

/-- The packets of a list of bytes, four by four: `M_1, M_2, ..` (R204). -/
def packetsOf : List Byte → List Packet
  | b0 :: b1 :: b2 :: b3 :: bs => ⟨b0, b1, b2, b3⟩ :: packetsOf bs
  | _ => []

/-- The bytes of a list of packets, in order. -/
def bytesOfPackets : List Packet → List Byte
  | [] => []
  | p :: ps => packetBytes p ++ bytesOfPackets ps

/-! ### The chain as a machine -/

/-- What happens to the chain in one instant. -/
inductive ChainAct
  /-- One assertion of `frame_select` (R201). -/
  | fsAssert
  /-- One active edge of `byte_clock`, with the master's byte (R202). -/
  | byteClk (m : Rx)
  /-- One deassertion of `frame_select` (R201). -/
  | fsDeassert
  /-- New levels on the common control lines, with the master's byte (R111, R200). -/
  | sample (fs bc : Bool) (m : Rx)
  /-- One bit time, with the master's bit (R120, R200). -/
  | bit (d : Bool)
  /-- An operation at node `k` alone: its host port, its `reset` port, its codec (R206). -/
  | atNode (k : Nat) (i : Instr)
  /-- A step of node `k`'s Node Controller, with its sensor's reading (R206). -/
  | controller (k : Nat) (reading : Byte)
deriving DecidableEq, Repr

/-- A chain: its nodes, the acts to come, and what the master received in the last step, a byte (R202) or a bit (log 30). -/
structure Chain where
  nodes       : List State
  acts        : List ChainAct
  received    : List Byte
  receivedBit : List Bool
deriving DecidableEq, Repr

/-- Node `k` right after reset; its actuator's output is a free value of its own (R240, U15; log 6). -/
def nodeReset (k : Nat) : State := { State.reset with actuator := Config.actuatorOfNode k }

/-- `N` nodes right after reset (R200). -/
def chainReset (n : Nat) : Chain :=
  { nodes := (List.range n).map fun i => nodeReset (i + 1), acts := [], received := [], receivedBit := [] }

/-- The chain after its nodes have changed and the master has received `bs`. -/
def withNodes (c : Chain) (nodes : List State) (bs : List Byte) : Chain :=
  { c with nodes := nodes, received := bs, receivedBit := [] }

/-- One node of the chain takes a step of its own; "it touches only node `k`'s state" (R206). -/
def chainAtNode (k : Nat) (f : State → Host.Outcome State Fault Refusal) (c : Chain) : Host.Outcome Chain Fault Refusal :=
  if k = 0 then .refused .noSuchNode
  else
    match c.nodes[k - 1]? with
    | none => .refused .noSuchNode
    | some n =>
      match f n with
      | .next n' => .next (withNodes c (c.nodes.set (k - 1) n') [])
      | .fault r => .fault r
      | .refused r => .refused r

/-- One act of the chain, node `k` having the capacity `cap k`. -/
def chainActAt (cap : Nat → Nat) (act : ChainAct) (c : Chain) : Host.Outcome Chain Fault Refusal :=
  match act with
  | .fsAssert => .next (withNodes c (chainFsAssert cap c.nodes) [])
  | .byteClk m => .next (withNodes c (chainByteClk cap m c.nodes) (tailByte c.nodes))
  | .fsDeassert => .next (withNodes c (chainFsDeassert cap c.nodes) [])
  | .sample fs bc m => .next (withNodes c (chainSampleFrom cap fs bc 1 m c.nodes) (sampleTailFrom cap fs bc 1 c.nodes))
  | .bit d => .next { withNodes c (chainBitFrom cap 1 d c.nodes) [] with receivedBit := tailBitFrom 1 c.nodes }
  | .atNode k i => if handlerOp i then .refused .commonToAllNodes else chainAtNode k (nodeOp k (cap k) i) c
  | .controller k reading => chainAtNode k (guardStep k (cap k) false false fun n => .next (controllerStep (cap k) reading n)) c

/-- One act of the chain, the capacities being those of the installation (R7, R201: free). -/
def chainAct (act : ChainAct) (c : Chain) : Host.Outcome Chain Fault Refusal := chainActAt Config.capOfNode act c

/-- The chain one tick later, its nodes having put nothing out yet. -/
def chainTick (c : Chain) (acts : List ChainAct) : Chain :=
  { nodes := c.nodes.map fun n => { n with out := [], ticks := n.ticks + 1 }, acts := acts, received := [], receivedBit := [] }

/-- One step of the chain: one act of the queue, or idleness (R115, R206). -/
def chainStep (c : Chain) : Host.Outcome Chain Fault Refusal :=
  match c.acts with
  | [] => .next (chainTick c [])
  | a :: acts => chainAct a (chainTick c acts)

end Sys2Proof.Machine
end

