-- ==== Sys2Proof/Machine/WindowLaw.lean ====
section
/-! DEFINITION. The window law (20_memory.md R58): the block seen as a 4-byte shift register, with no buffer, no cursor and no
`CAP`. This is the second machine of the law's simulation, written from R58 and not from the block's operations. -/

namespace Sys2Proof.Machine

/-- What the block's behaviour is a function of (R58), with the detector's and the refinement's registers. -/
structure View where
  w      : Packet
  fstate : FrameState
  cnt    : Nat
  tx     : Byte
  fsQ    : Bool
  bcQ    : Bool
  ipFs   : Bool
  ipBc   : Bool
  sr     : Byte
  bitn   : BitVec 3
deriving DecidableEq, Repr

/-- `map a state to the 4-byte list w = win()` (R58). -/
def view (cap : Nat) (b : Block) : View :=
  { w := window cap b, fstate := b.fstate, cnt := b.cnt, tx := b.tx, fsQ := b.fsQ, bcQ := b.bcQ, ipFs := b.ipFs,
    ipBc := b.ipBc, sr := b.sr, bitn := b.bitn }

/-- The operations that act on the block or read it, as one enumeration. -/
inductive BlockOp
  | reset
  | fsAssert
  | byteClk (rx : Rx)
  | fsDeassert
  | sample (fs bc : Bool) (rx : Rx)
  | edge (e : BitVec 4) (rx : Rx)
  | bit (d : Bool)
  | poll
  | extract
  | inject (p : Packet)
  | hostRsvd
deriving DecidableEq, Repr

/-- The same operation as an instruction. -/
def instrOf : BlockOp → Instr
  | .reset => .reset
  | .fsAssert => .fsAssert
  | .byteClk rx => .byteClk rx
  | .fsDeassert => .fsDeassert
  | .sample fs bc rx => .sample fs bc rx
  | .edge e rx => decodeEdge e rx
  | .bit d => .bit d
  | .poll => .poll
  | .extract => .extract
  | .inject p => .inject p
  | .hostRsvd => .hostRsvd

/-- What an operation does to the block of capacity `cap`. -/
def blockEffect (cap : Nat) (op : BlockOp) (b : Block) : Effect :=
  match op with
  | .reset => { block := Block.reset, out := [] }
  | .fsAssert => fsAssert cap b
  | .byteClk rx => byteClk cap rx b
  | .fsDeassert => fsDeassert b
  | .sample fs bc rx => sample cap fs bc rx b
  | .edge e rx => sample cap (e.getLsbD 2) (e.getLsbD 0) rx (recallLevels ⟨e.getLsbD 3, e.getLsbD 1⟩ b)
  | .bit d => bitTime d b
  | .poll => poll b
  | .extract => extract cap b
  | .inject p => inject cap p b
  | .hostRsvd => hostReserved b

/-- `FS_ASSERT : tx <- w[0]` (R58). -/
def viewFsAssert (v : View) : View × List Output :=
  ({ v with ipFs := false, cnt := 0, tx := v.w.b0, fstate := .receiving, sr := v.w.b0, bitn := 0 },
    if v.fstate = .frameComplete then [.label .lostFrame] else [])

/-- The byte that a `BYTE_CLK` receives. -/
def viewReceived (v : View) : Rx → Byte
  | .byte x => x
  | .shifted => v.sr

/-- `emit(tx); w <- [w[1], w[2], w[3], rx]; tx <- w[0]` while `Receiving` (R58). -/
def viewByteClk (rx : Rx) (v : View) : View × List Output :=
  if v.fstate = .receiving then
    ({ v with
        ipBc := false
        w := ⟨v.w.b1, v.w.b2, v.w.b3, viewReceived v rx⟩
        cnt := v.cnt + 1
        tx := v.w.b1
        sr := v.w.b1
        bitn := 0 }, [.emit v.tx])
  else ({ v with ipBc := false }, [])

/-- `FS_DEASSERT` on the view (R114 reads `cnt` alone). -/
def viewFsDeassert (v : View) : View × List Output :=
  let partialByte : List Output := if v.bitn = 0 then [] else [.label (.partialByte v.bitn)]
  if v.fstate = .receiving then
    if v.cnt ≠ 0 ∧ v.cnt % 4 = 0 then ({ v with ipFs := false, fstate := .frameComplete }, partialByte)
    else ({ v with ipFs := false, fstate := .idle }, .label (.malformedFrame v.cnt) :: partialByte)
  else ({ v with ipFs := false }, [])

/-- The three `if`s of `SAMPLE` on the view (R111). -/
def viewSample (fs bc : Bool) (rx : Rx) (v : View) : View × List Output :=
  let fsRises := !v.fsQ && fs
  let fsFalls := v.fsQ && !fs
  let bcRises := !v.bcQ && bc
  let v0 : View := { v with
    fsQ := fs, bcQ := bc, ipFs := v.ipFs || fsRises || fsFalls, ipBc := v.ipBc || bcRises }
  let r1 := if fsRises then viewFsAssert v0 else (v0, [])
  let r2 := if bcRises then viewByteClk rx r1.1 else (r1.1, [])
  let r3 := if fsFalls then viewFsDeassert r2.1 else (r2.1, [])
  (r3.1, r1.2 ++ r2.2 ++ r3.2)

/-- One bit time on the view (R120). -/
def viewBit (d : Bool) (v : View) : View × List Output :=
  if v.fstate = .receiving then
    ({ v with sr := shiftIn v.sr d, bitn := v.bitn + 1 }, [.dataOut (v.sr.getLsbD 7)])
  else (v, [])

/-- `INJECT(p), FrameComplete: w <- p` (R58). -/
def viewInject (p : Packet) (v : View) : View × List Output :=
  if v.fstate = .frameComplete then ({ v with w := p, fstate := .idle }, [.flag true])
  else (v, [.label (.missedUpdate v.fstate), .flag false])

/-- What an operation does to the 4-byte shift register (R58). -/
def viewEffect (op : BlockOp) (v : View) : View × List Output :=
  match op with
  | .reset =>
    ({ w := ⟨0x00, 0x00, 0x00, 0x00⟩, fstate := .idle, cnt := 0, tx := 0x00, fsQ := false, bcQ := false, ipFs := false,
       ipBc := false, sr := 0x00, bitn := 0 }, [])
  | .fsAssert => viewFsAssert v
  | .byteClk rx => viewByteClk rx v
  | .fsDeassert => viewFsDeassert v
  | .sample fs bc rx => viewSample fs bc rx v
  | .edge e rx => viewSample (e.getLsbD 2) (e.getLsbD 0) rx { v with fsQ := e.getLsbD 3, bcQ := e.getLsbD 1 }
  | .bit d => viewBit d v
  | .poll => (v, [.flag (v.fstate == .frameComplete)])
  | .extract => (v, [.flag (v.fstate == .frameComplete), .rdata (packetWord v.w)])
  | .inject p => viewInject p v
  | .hostRsvd => (v, [.flag false, .rdata 0])

/-- What anyone outside can observe of a step (R58): everything but the label of the wrap, which names a slot number. -/
def observable : List Output → List Output
  | [] => []
  | .label .bufferNearOverrun :: os => observable os
  | o :: os => o :: observable os

/-- A run of operations on the block of capacity `cap`, with everything put out. -/
def runBlock (cap : Nat) : List BlockOp → Block → Block × List Output
  | [], b => (b, [])
  | op :: ops, b =>
    let e := blockEffect cap op b
    let r := runBlock cap ops e.block
    (r.1, e.out ++ r.2)

/-- A run of operations on the shift register. -/
def runView : List BlockOp → View → View × List Output
  | [], v => (v, [])
  | op :: ops, v =>
    let e := viewEffect op v
    let r := runView ops e.1
    (r.1, e.2 ++ r.2)

end Sys2Proof.Machine
end

