-- ==== Sys2Proof/Machine/Pseudo.lean ====
section
/-! DEFINITION. The pseudo-operations (30_encoding.md R96) and runs of operations. -/

namespace Sys2Proof.Machine

/-- `SCAN x0 x1 ..` (R96): `FS+`; `B x0`; ..; `FS-`. -/
def scanOps (xs : List Byte) : List Instr :=
  .fsAssert :: xs.map (fun x => .byteClk (.byte x)) ++ [.fsDeassert]

/-- The turns that bring `SCAN xs`, each operation at its port (log 1, log 3). -/
def scanTurns (xs : List Byte) : List Turn :=
  (scanOps xs).map fun i => { reset := false, act := .word (encode i).1 (encode i).2 }

/-- `SVC w` (R96, R184). -/
def svcOps (w : Byte) : List Instr := [.service w]

/-- `IDLE` (R96): "no step at all". -/
def idleOps : List Instr := []

/-- The eight bit times of one byte, most significant bit first (R84, R120). -/
def bitOps (x : Byte) : List Instr :=
  [.bit (x.getLsbD 7), .bit (x.getLsbD 6), .bit (x.getLsbD 5), .bit (x.getLsbD 4),
    .bit (x.getLsbD 3), .bit (x.getLsbD 2), .bit (x.getLsbD 1), .bit (x.getLsbD 0)]

/-- Operations one after another, with everything they put out, in order; it ends at the first stop. -/
def runOps : List Instr → State → Host.Outcome (State × List Output) Fault Refusal
  | [], s => .next (s, [])
  | i :: is, s =>
    match exec i s with
    | .next s1 =>
      match runOps is s1 with
      | .next r => .next (r.1, s1.out ++ r.2)
      | .fault r => .fault r
      | .refused r => .refused r
    | .fault r => .fault r
    | .refused r => .refused r

end Sys2Proof.Machine
end

