-- ==== Sys2Proof/Safety.lean ====
section
/-! DEFINITION. What holds in every state that a run reaches (10_state.md R36 and the rules it cites), and the premise under which
the step relation holds (70_reset_and_hazards.md R265). -/

namespace Sys2Proof.Machine

/-- The block is a block of capacity `cap`: the cursor is a slot number (R22, R36), the buffer is in its canonical form and holds
nothing outside `0 .. cap-1` (R50). -/
def blockOk (cap : Nat) (b : Block) : Prop :=
  b.cur < cap ∧ Memory.wf b.buf = true ∧ Memory.within cap b.buf = true

/-- Every node of a chain has a capacity that R7 allows and a block of that capacity, nodes numbered from 1. -/
def chainOk (cap : Nat → Nat) (nodes : List State) : Prop :=
  (∀ k, 8 ≤ cap k) ∧ ∀ (k : Nat) (n : State), nodes[k]? = some n → blockOk (cap (k + 1)) n.block

/-- The invariant of the machine. -/
def State.Inv (s : State) : Prop := blockOk Config.CAP s.block

/-- `HandlersMeetDeadline` (R265), as the block shows it: "both bits are 0 whenever any other step begins" (R27). -/
def handlersMeetDeadline (b : Block) : Prop := b.ipFs = false ∧ b.ipBc = false

/-- The detector and the frame state agree: *selected* "in this spec equivalent to `fstate = Receiving`" (R14, R36). Kept by
`SAMPLE` and the main loop; a run driven by bare events does not use the detector (R26). -/
def selectAgrees (b : Block) : Prop := b.fsQ = true ↔ b.fstate = .receiving

/-- The levels before the step, where the operation is a whole edge word and says them. -/
def wordLevels : Instr → Option Levels
  | .sample _ _ _ old => old
  | .fsAssert (some c) => some ⟨false, (clockBits c).getLsbD 1⟩
  | .byteClk _ (some fs) => some ⟨fs, false⟩
  | .fsDeassert (some c) => some ⟨true, (clockBits c).getLsbD 1⟩
  | .reset => none
  | .fsAssert none => none
  | .byteClk _ none => none
  | .fsDeassert none => none
  | .bit _ => none
  | .poll => none
  | .extract => none
  | .inject _ => none
  | .hostRsvd => none
  | .encCmd _ _ _ _ => none
  | .decCmd _ => none
  | .encSensor _ => none
  | .decSensor _ => none
  | .service _ => none

/-- A whole edge word says what the detector remembers, as `E = fs_q ++ fs ++ bc_q ++ bc` does by its definition (R85). -/
def wordAgrees (i : Instr) (b : Block) : Prop := ∀ l, wordLevels i = some l → l.fs = b.fsQ ∧ l.bc = b.bcQ

/-- The turn breaks no premise: its edges do not come before the handler of the edge before (R265). -/
def turnMeetsDeadline : Turn → Bool
  | ⟨true, _⟩ => true
  | ⟨false, .word _ _⟩ => true
  | ⟨false, .pins _ _ _⟩ => true
  | ⟨false, .controller _⟩ => true
  | ⟨false, .overlappingEdge _⟩ => false

/-- Nothing of the node outside the block changes, the queue and the tick count included; `out` is what the step puts out. -/
def restUnchanged (s t : State) : Prop :=
  t.controller = s.controller ∧ t.actuator = s.actuator ∧ t.missed = s.missed ∧ t.lastInjected = s.lastInjected ∧
    t.turns = s.turns ∧ t.ticks = s.ticks

/-- The detector's levels are as before. -/
def detectorUnchanged (b c : Block) : Prop := c.fsQ = b.fsQ ∧ c.bcQ = b.bcQ

/-- The last four of a list of bytes. -/
def lastFour (bs : List Byte) : List Byte := bs.drop (bs.length - 4)

/-- The bytes of the trailing window, oldest first. -/
def windowBytes (cap : Nat) (b : Block) : List Byte := packetBytes (window cap b)

/-- The operations of the main-loop context (60_exceptions.md R235): the host port, the codec, the controller's pass. -/
def mainLoopOp : Instr → Bool
  | .reset => false
  | .sample _ _ _ _ => false
  | .fsAssert _ => false
  | .byteClk _ _ => false
  | .fsDeassert _ => false
  | .bit _ => false
  | .poll => true
  | .extract => true
  | .inject _ => true
  | .hostRsvd => true
  | .encCmd _ _ _ _ => true
  | .decCmd _ => true
  | .encSensor _ => true
  | .decSensor _ => true
  | .service _ => true

/-- The bytes that a list of operations delivers, in order. -/
def deliveredBytes : List Instr → List Byte
  | [] => []
  | .byteClk (.byte r) none :: is => r :: deliveredBytes is
  | _ :: is => deliveredBytes is

/-- What may happen inside an open scan: bytes, and the main loop between them (20_memory.md R60). -/
def insideScan (i : Instr) : Prop := (∃ r, i = .byteClk (.byte r)) ∨ (mainLoopOp i = true ∧ i.wellFormed = true)

/-- The slots of the trailing window (R53). -/
def windowSlots (cap : Nat) (b : Block) : List Nat :=
  [slot cap ((b.cur : Int) - 4), slot cap ((b.cur : Int) - 3), slot cap ((b.cur : Int) - 2), slot cap ((b.cur : Int) - 1)]

/-- A step is safe: it does not end in a fault, and no missed deadline's fault stands after it. -/
def stepSafe (s : State) : Prop := (∀ r : Fault, step s ≠ .fault r) ∧ ∀ t, step s = .next t → t.missed = none

end Sys2Proof.Machine
end

