-- ==== Sys2Proof/Certificates/Slice0/Obligations.lean ====
section
/-! DEFINITION. The statements for the provers, each from the rules that its docstring names. `D<n>` is a decision of
92_eei_decisions.md (the spec's own choice), `log <n>` a row of notes/assumptions (the model's). -/

open Sys2Proof Sys2Proof.Machine

/-! ### Encoding -/

/-- Decoding an encoded well-formed operation gives it back, with every operand at every value (the layout at the ports is the
model's, log 3). -/
def Obligations.DecodeOfEncodeIsTheInstruction : Prop :=
  ∀ i : Instr, i.wellFormed = true → decode (encode i).1 (encode i).2 = .ok i

/-- Words written out from the spec's encodings decode to the operations they stand for (R86, R87, R81, R82; log 3). -/
def Obligations.WrittenWordsDecode : Prop :=
  decode .sys [0b00000001] = .ok .reset ∧
  decode .edge [0b00000100, 0x00] = .ok (.fsAssert (some .inactive)) ∧
  decode .edge [0b00001101, 0x3F] = .ok (.byteClk (.byte 0x3F) (some true)) ∧
  decode .edge [0b00001110, 0x00] = .ok (.sample true false (.byte 0x00) (some ⟨true, true⟩)) ∧
  decode .edge [0b00001000, 0x00] = .ok (.fsDeassert (some .inactive)) ∧
  decode .edge [0b00001001, 0xA4] = .ok (.sample false true (.byte 0xA4) (some ⟨true, false⟩)) ∧
  decode .edge [0b00000101, 0xA1] = .ok (.sample true true (.byte 0xA1) (some ⟨false, false⟩)) ∧
  decode .event [0b00000100, 0x00] = .ok .fsAssert ∧
  decode .event [0b00000001, 0x3F] = .ok (.byteClk (.byte 0x3F)) ∧
  decode .event [0b00001000, 0x00] = .ok .fsDeassert ∧
  decode .levels [0b00000101, 0xA1] = .ok (.sample true true (.byte 0xA1)) ∧
  decode .serial [0b00000001] = .ok (.bit true) ∧
  decode .host [0b00000000, 0x00, 0x00, 0x00, 0x00] = .ok .poll ∧
  decode .host [0b00000001, 0x00, 0x00, 0x00, 0x00] = .ok .extract ∧
  decode .host [0b00000010, 0x05, 0x00, 0x00, 0x01] = .ok (.inject ⟨0x05, 0x00, 0x00, 0x01⟩) ∧
  decode .host [0b00000011, 0x00, 0x00, 0x00, 0x00] = .ok .hostRsvd ∧
  decode .encCmd [0x12, 0x34, 0x56, 0x78] = .ok (.encCmd 0 291 277 632) ∧
  decode .decCmd [0x12, 0x34, 0x56, 0x78] = .ok (.decCmd ⟨0x12, 0x34, 0x56, 0x78⟩) ∧
  decode .encSensor [0xFB, 0x00, 0x00, 0x00] = .ok (.encSensor (-5)) ∧
  decode .decSensor [0xFB, 0x00, 0x00, 0x00] = .ok (.decSensor ⟨0xFB, 0x00, 0x00, 0x00⟩) ∧
  decode .service [0xFB] = .ok (.service 0xFB)

/-- R88: the fields of a command from its bytes, and the bytes from the fields. -/
def Obligations.CommandFieldsFromBytesAndBack : Prop :=
  (∀ p : Packet,
    (commandOfPacket p).cmd.toNat = p.b0.toNat / 64 ∧
    (commandOfPacket p).red.toNat = p.b0.toNat % 64 * 16 + p.b1.toNat / 16 ∧
    (commandOfPacket p).green.toNat = p.b1.toNat % 16 * 64 + p.b2.toNat / 4 ∧
    (commandOfPacket p).blue.toNat = p.b2.toNat % 4 * 256 + p.b3.toNat) ∧
  (∀ c : Command,
    (packetOfCommand c).b0.toNat = c.cmd.toNat * 64 + c.red.toNat / 16 ∧
    (packetOfCommand c).b1.toNat = c.red.toNat % 16 * 16 + c.green.toNat / 64 ∧
    (packetOfCommand c).b2.toNat = c.green.toNat % 64 * 4 + c.blue.toNat / 256 ∧
    (packetOfCommand c).b3.toNat = c.blue.toNat % 256)

/-! ### The step -/

/-- When the word at the head of the queue decodes to `i` and no fault stands, the step is `exec i` at the state with that turn
taken: the rest of the queue, one tick later, nothing else changed (R60; the queue is the model's, log 1). Where `exec i` misses the
deadline, the step goes on into the fault state and carries the label (R227; log 9). A word of the opcode table that is placed as
the next turn runs in the same way (log 2). -/
def Obligations.StepRunsTheDecodedInstruction : Prop :=
  (∀ (s : State) (port : Port) (bytes : List Byte) (rest : List Turn) (i : Instr),
    s.turns = { reset := false, act := .word port bytes } :: rest → decode port bytes = .ok i → s.missed = none →
      let u : State := { s with turns := rest, ticks := s.ticks + 1 }
      ((∀ r, exec i u ≠ .fault r) → step s = exec i u) ∧
      (∀ src, exec i u = .fault (.deadlineMiss src) →
        ∃ t, step s = .next t ∧ t.missed = some src ∧ .deadlineMiss src ∈ labels t.out ∧ t.turns = rest)) ∧
  (∀ (s : State) (nbits w : Nat) (i : Instr), decodeTableWord nbits w = some i → s.missed = none →
    let u : State := { s with ticks := s.ticks + 1 }
    (∀ r, exec i u ≠ .fault r) → step (s.withFetchWord nbits w) = exec i u)

/-- R227, U2, D12: a missed deadline's fault "is never cleared until the next `FS_ASSERT`" (or `RESET`, log 9), and it is cleared there:
that operation runs as `exec` says on what the fault has left, with no handler waiting. What the fault leaves is a free value
(log 32). -/
def Obligations.DeadlineMissLastsUntilTheNextFsAssert : Prop :=
  ∀ (s : State) (src : Source), s.missed = some src →
    (∀ (act : Act) (rest : List Turn) (t : State), s.turns = { reset := false, act := act } :: rest →
      (∀ port bytes i, act = .word port bytes → decode port bytes = .ok i → endsFault i s.block = false) →
      (∀ fsPin bcPin rx, act = .pins fsPin bcPin rx → s.block.fsQ = true ∨ fsPin ≠ Config.FS_ACTIVE_LEVEL) →
      step s = .next t → t.missed ≠ none) ∧
    (∀ (port : Port) (bytes : List Byte) (rest : List Turn) (i : Instr),
      s.turns = { reset := false, act := .word port bytes } :: rest → decode port bytes = .ok i → endsFault i s.block = true →
      ∃ t, step s = .next t ∧ t.missed = none ∧
        exec i { s with
          turns := rest, ticks := s.ticks + 1, missed := none
          block := { s.block with ipFs := false, ipBc := false } } = .next t) ∧
    (∀ (bcPin : Bool) (rx : Rx) (rest : List Turn),
      s.turns = { reset := false, act := .pins Config.FS_ACTIVE_LEVEL bcPin rx } :: rest → s.block.fsQ = false →
      ∃ t, step s = .next t ∧ t.missed = none ∧ t.block.fstate = .receiving)

/-- R227, R116: "self-healing on the next frame". From every state, one in a missed deadline's fault included, the scan that the next
turns bring is whole: no fault after it, its bytes counted, its verdict right, its last four bytes the window. -/
def Obligations.ScanAfterADeadlineMissIsWhole : Prop :=
  ∀ (s : State) (rs : List Byte), s.Inv → s.turns = scanTurns rs →
    ∃ t, Host.Core.run Sys2Proof.core (rs.length + 2) s = .next t ∧ t.missed = none ∧ t.turns = [] ∧
      t.block.cnt = rs.length ∧
      t.block.fstate = (if rs.length ≠ 0 ∧ rs.length % 4 = 0 then .frameComplete else .idle) ∧
      (4 ≤ rs.length → windowBytes Config.CAP t.block = lastFour rs)

/-- The other turns, with no fault standing: a step of the Node Controller (R180, R60); new electrical levels on the pins, which are
a `SAMPLE` of their logical levels (R85, R111; log 21); an edge that comes while a handler is still running, which is `DeadlineMiss`
and enters the fault state (R227, R233; log 9). -/
def Obligations.AgentsTakeTheirTurns : Prop :=
  (∀ (s : State) (reading : Byte) (rest : List Turn),
    s.turns = { reset := false, act := .controller reading } :: rest → s.missed = none →
      step s = .next (controllerStep Config.CAP reading { s with turns := rest, ticks := s.ticks + 1 })) ∧
  (∀ (s : State) (fsPin bcPin : Bool) (rx : Rx) (rest : List Turn),
    s.turns = { reset := false, act := .pins fsPin bcPin rx } :: rest → s.missed = none → handlersMeetDeadline s.block →
      step s = exec (.sample (fsPin == Config.FS_ACTIVE_LEVEL) (bcPin == decide (Config.BC_ACTIVE_EDGE = .rising)) rx)
        { s with turns := rest, ticks := s.ticks + 1 }) ∧
  (∀ (s : State) (src : Source) (rest : List Turn),
    s.turns = { reset := false, act := .overlappingEdge src } :: rest →
      ∃ t, step s = .next t ∧ t.missed = some src ∧ .deadlineMiss src ∈ labels t.out ∧ t.turns = rest ∧
        t.controller = s.controller ∧ t.actuator = s.actuator)

/-- R260 (b), D21: while `reset` is asserted the block is in the reset state, whatever else happens in that turn. That a step of the
controller in that instant is dropped too is log 26 (DEDUCED); the queue is log 1. -/
def Obligations.AssertedResetOverridesTheTurn : Prop :=
  ∀ (s : State) (act : Act) (rest : List Turn), s.turns = { reset := true, act := act } :: rest →
    ∃ t, step s = .next t ∧ t.block = Block.reset ∧ t.controller.ctl = .awaitFrame ∧ t.actuator = s.actuator ∧
      t.missed = none ∧ t.out = [] ∧ t.turns = rest

/-- R115 says of the block's fields that none changes "for any length of time". That this is a step with an empty queue, which answers
next, is the model's (log 24, log 1), and so is that the controller, which R239 has polling on, takes its steps as turns of the
queue and the actuator, the observer's memory (log 8) and the fault state (log 9) stay with them. -/
def Obligations.IdleChangesNothingForAnyTime : Prop :=
  ∀ (n : Nat) (s : State), s.turns = [] →
    ∃ t, Host.Core.run Sys2Proof.core n s = .next t ∧ t.block = s.block ∧ t.controller = s.controller ∧
      t.actuator = s.actuator ∧ t.missed = s.missed ∧ t.lastInjected = s.lastInjected ∧ t.turns = []

/-! ### Invariants -/

/-- The cursor is a slot number, the buffer holds nothing outside its slots and is in its canonical form (R22, R36, R50; log 16):
every step keeps it. -/
def Obligations.EveryStepKeepsTheInvariant : Prop :=
  ∀ s t : State, s.Inv → step s = .next t → t.Inv

/-- The reset state meets the invariant. -/
def Obligations.ResetMeetsTheInvariant : Prop := State.reset.Inv

/-- R27, R265: where no fault stands and no pending bit is set, and the turn breaks no premise, the step is safe and leaves it so; and
no step, of any state, ends the run in a fault (R227, U2: the fault is a state; log 9). -/
def Obligations.HandlersMeetDeadlineIsKept : Prop :=
  (∀ s : State, s.missed = none → handlersMeetDeadline s.block →
    (∀ tn rest, s.turns = tn :: rest → turnMeetsDeadline tn = true) →
      stepSafe s ∧ ∀ t, step s = .next t → handlersMeetDeadline t.block) ∧
  (∀ (s : State) (r : Fault), step s ≠ .fault r)

/-- R14, R36: *selected* and `fstate = Receiving` agree after every operation but a bare `FS_ASSERT` or `FS_DEASSERT`, which do
not move the detector's memory (R26); an edge word is one that the detector can form, whose old levels are the detector's memory
(R85). -/
def Obligations.SelectAgreesWithReceiving : Prop :=
  ∀ (i : Instr) (s t : State), i ≠ .fsAssert → i ≠ .fsDeassert → wordAgrees i s.block → selectAgrees s.block →
    exec i s = .next t → selectAgrees t.block

/-- R22, R36 (1): the cursor moves in a step exactly when the step emits a byte, and then by 1 `mod CAP`; a `RESET` apart, and a step
that leaves a missed deadline's fault standing (R227, U2: nothing is known there). -/
def Obligations.CursorOnlyAdvances : Prop :=
  ∀ s t : State, step s = .next t → t.missed = none →
    t.block = Block.reset ∨
      ((emitted t.out).length ≤ 1 ∧
        t.block.cur = if emitted t.out = [] then s.block.cur else (s.block.cur + 1) % Config.CAP)

/-! ### Reset -/

/-- R260, R35 (the values are D6): `RESET` from every state. That it ends a fault is log 9, the observer's memory is log 8, the
temporaries log 15. And R262 (D21): `frame_select` already asserted when reset is released opens a scan. -/
def Obligations.ResetLeavesTheResetValues : Prop :=
  (∀ s : State, ∃ t, exec .reset s = .next t ∧
    (∀ a, Memory.read t.block.buf a = 0x00) ∧ t.block.cur = 0 ∧ t.block.fstate = .idle ∧ t.block.cnt = 0 ∧
    t.block.tx = 0x00 ∧ t.block.fsQ = false ∧ t.block.bcQ = false ∧ t.block.ipFs = false ∧ t.block.ipBc = false ∧
    t.block.sr = 0x00 ∧ t.block.bitn = 0 ∧ t.controller = { s.controller with ctl := .awaitFrame } ∧
    t.actuator = s.actuator ∧ t.missed = none ∧ t.lastInjected = none ∧ t.out = [] ∧ t.turns = s.turns ∧
    t.ticks = s.ticks) ∧
  (∀ (s : State) (rx : Rx), ∃ t u, exec .reset s = .next t ∧ exec (.sample true false rx) t = .next u ∧
    u.block = { Block.reset with fstate := .receiving, fsQ := true } ∧ u.out = [])

/-! ### Bus events -/

/-- `FS_ASSERT` by itself (as an edge word selects it: `EveryEdgeWordRunsItsEvents`). R112 (that it acts alike from every state is D7,
that it overwrites `FrameComplete` is D8), with R120's `sr <- tx; bitn <- 0` (D13); handler entry clears `ip_fs` (R232; log 10). -/
def Obligations.FsAssertOpensAScan : Prop :=
  ∀ s : State, ∃ t, exec .fsAssert s = .next t ∧
    t.block = { s.block with
      ipFs := false
      cnt := 0
      tx := readSlot Config.CAP s.block.buf ((s.block.cur : Int) - 4)
      fstate := .receiving
      sr := readSlot Config.CAP s.block.buf ((s.block.cur : Int) - 4)
      bitn := 0 } ∧
    t.out = (if s.block.fstate = .frameComplete then [.label .lostFrame] else []) ∧ restUnchanged s t

/-- `BYTE_CLK` by itself (as an edge word selects it: `EveryEdgeWordRunsItsEvents`). R113 while `Receiving`, with R120 (D13, log 13)
and R232 (log 10): the byte is stored at the cursor and nowhere else, the cursor advances and wraps, the old `tx` is emitted and
the byte 4 positions behind the new cursor is armed. That a label stands after the emitted byte is the model's (log 5). -/
def Obligations.ByteClkStoresEmitsAndRearms : Prop :=
  ∀ (s : State) (rx : Rx), s.Inv → s.block.fstate = .receiving →
    ∃ t, exec (.byteClk rx) s = .next t ∧
      Memory.read t.block.buf (slot Config.CAP s.block.cur) = receivedByte s.block rx ∧
      (∀ a, a ≠ slot Config.CAP s.block.cur → Memory.read t.block.buf a = Memory.read s.block.buf a) ∧
      Memory.wf t.block.buf = true ∧
      t.block.cur = (if s.block.cur + 1 = Config.CAP then 0 else s.block.cur + 1) ∧
      t.block.cnt = s.block.cnt + 1 ∧
      t.block.tx = readSlot Config.CAP t.block.buf ((t.block.cur : Int) - 4) ∧
      t.block.tx = (window Config.CAP s.block).b1 ∧
      t.block.sr = t.block.tx ∧ t.block.bitn = 0 ∧
      t.block.fstate = .receiving ∧ detectorUnchanged s.block t.block ∧
      t.block.ipFs = s.block.ipFs ∧ t.block.ipBc = false ∧
      t.out = .emit s.block.tx :: (if s.block.cur + 1 = Config.CAP then [.label .bufferNearOverrun] else []) ∧
      restUnchanged s t

/-- `BYTE_CLK` by itself, R113 corner (a) (D7): while not selected the edge is ignored; handler entry clears `ip_bc` (R232). -/
def Obligations.ByteClkIsIgnoredWhileNotSelected : Prop :=
  ∀ (s : State) (rx : Rx), s.block.fstate ≠ .receiving →
    ∃ t, exec (.byteClk rx) s = .next t ∧ t.block = { s.block with ipBc := false } ∧ t.out = [] ∧ restUnchanged s t

/-- `FS_DEASSERT` by itself (as an edge word selects it: `EveryEdgeWordRunsItsEvents`). R114 (outside `Receiving`: D7), with R226
(log 12) and R232: the verdict at the end of a scan. The order of the two labels is the model's (log 5). -/
def Obligations.FsDeassertGivesTheVerdict : Prop :=
  ∀ s : State, ∃ t, exec .fsDeassert s = .next t ∧ restUnchanged s t ∧
    (s.block.fstate = .receiving → s.block.cnt ≠ 0 → s.block.cnt % 4 = 0 →
      t.block = { s.block with ipFs := false, fstate := .frameComplete } ∧
      labels t.out = (if s.block.bitn = 0 then [] else [.partialByte s.block.bitn])) ∧
    (s.block.fstate = .receiving → (s.block.cnt = 0 ∨ s.block.cnt % 4 ≠ 0) →
      t.block = { s.block with ipFs := false, fstate := .idle } ∧
      labels t.out = .malformedFrame s.block.cnt :: (if s.block.bitn = 0 then [] else [.partialByte s.block.bitn])) ∧
    (s.block.fstate ≠ .receiving → t.block = { s.block with ipFs := false } ∧ t.out = [])

/-- R111, R86 (the order is D10): with no pending bit set, `SAMPLE` on the detector's own memory takes in the levels and runs the
events that the table of sixteen edge words gives, in its order. -/
def Obligations.SampleRunsTheEventsOfTheEdgeWord : Prop :=
  ∀ (s : State) (fs bc : Bool) (rx : Rx), handlersMeetDeadline s.block →
    exec (.sample fs bc rx) s =
      .next (withEffect s
        (runEvents Config.CAP rx (edgeEvents (edgeWord s.block.fsQ fs s.block.bcQ bc)) { s.block with fsQ := fs, bcQ := bc }))

/-- R86, R92, R111: the operation that an edge word decodes to, be it `FS_ASSERT`, `BYTE_CLK`, `FS_DEASSERT` or `SAMPLE`, runs the
events that the table gives the word, in its order (D10), and leaves the word's new levels in the detector; "The event or events
of the step are selected by `E` alone" (R85; that the old levels are taken from the word is log 31). It faults exactly when an
edge of the word finds its source's pending bit set (R227, R230; log 9). -/
def Obligations.EveryEdgeWordRunsItsEvents : Prop :=
  ∀ (s : State) (e : BitVec 4) (rx : Rx),
    (handlersMeetDeadline s.block →
      exec (decodeEdge e rx) s =
        .next (withEffect s
          (runEvents Config.CAP rx (edgeEvents e) { s.block with fsQ := e.getLsbD 2, bcQ := e.getLsbD 0 }))) ∧
    ((∃ r, exec (decodeEdge e rx) s = .fault r) ↔
      ((e.getLsbD 3 ≠ e.getLsbD 2 ∧ s.block.ipFs = true) ∨
        (e.getLsbD 1 = false ∧ e.getLsbD 0 = true ∧ s.block.ipBc = true)))

/-- R227, R230: `SAMPLE` on the detector's own memory ends in the fault exactly when an edge finds its source's pending bit set
(log 9). -/
def Obligations.SampleFaultsExactlyOnAPendingEdge : Prop :=
  ∀ (s : State) (fs bc : Bool) (rx : Rx),
    (∃ r, exec (.sample fs bc rx) s = .fault r) ↔
      ((s.block.fsQ ≠ fs ∧ s.block.ipFs = true) ∨ (s.block.bcQ = false ∧ bc = true ∧ s.block.ipBc = true))

/-- R120 (D13): one bit time while selected; nothing otherwise. -/
def Obligations.BitShiftsOneBit : Prop :=
  ∀ (s : State) (d : Bool), ∃ t, exec (.bit d) s = .next t ∧ restUnchanged s t ∧
    (s.block.fstate = .receiving →
      t.block = { s.block with sr := s.block.sr.extractLsb' 0 7 ++ BitVec.ofBool d, bitn := s.block.bitn + 1 } ∧
      t.out = [.dataOut (s.block.sr.getLsbD 7)]) ∧
    (s.block.fstate ≠ .receiving → t.block = s.block ∧ t.out = [])

/-- R120, R84, R28 ("the two agree on every byte"; D13): eight bit times drive the old `sr`, bit 7 first, and leave the received byte
in `sr`; the `BYTE_CLK` that follows does what the byte-level `BYTE_CLK` does with that byte. -/
def Obligations.EightBitsExchangeOneByte : Prop :=
  ∀ (s : State) (x : Byte), s.block.fstate = .receiving →
    ∃ t u v os, runOps (bitOps x) s = .next (t, os) ∧ t.block = { s.block with sr := x } ∧
      drivenBits os = [s.block.sr.getLsbD 7, s.block.sr.getLsbD 6, s.block.sr.getLsbD 5, s.block.sr.getLsbD 4,
        s.block.sr.getLsbD 3, s.block.sr.getLsbD 2, s.block.sr.getLsbD 1, s.block.sr.getLsbD 0] ∧
      exec (.byteClk .shifted) t = .next u ∧ exec (.byteClk (.byte x)) s = .next v ∧
      u.block = v.block ∧ u.out = v.out

/-! ### Host port -/

/-- R141, R142, R143: what `POLL`, `EXTRACT` and `HOST_RSVD` return; they change nothing (R56). The port is D3, D4. -/
def Obligations.HostReadsChangeNothing : Prop :=
  ∀ s : State,
    (∃ t, exec .poll s = .next t ∧ t.block = s.block ∧ restUnchanged s t ∧
      t.out = [.flag (decide (s.block.fstate = .frameComplete))]) ∧
    (∃ t, exec .extract s = .next t ∧ t.block = s.block ∧ restUnchanged s t ∧
      t.out = [.flag (decide (s.block.fstate = .frameComplete)),
        .rdata (readSlot Config.CAP s.block.buf ((s.block.cur : Int) - 4) ++
          readSlot Config.CAP s.block.buf ((s.block.cur : Int) - 3) ++
          readSlot Config.CAP s.block.buf ((s.block.cur : Int) - 2) ++
          readSlot Config.CAP s.block.buf ((s.block.cur : Int) - 1))]) ∧
    (∃ t, exec .hostRsvd s = .next t ∧ t.block = s.block ∧ restUnchanged s t ∧ t.out = [.flag false, .rdata 0])

/-- R144 (D2, D3): an accepted `INJECT` writes the four slots of the trailing window and no other, and consumes the flag. -/
def Obligations.InjectWritesTheWindow : Prop :=
  ∀ (s : State) (p : Packet), s.Inv → s.block.fstate = .frameComplete →
    ∃ t, exec (.inject p) s = .next t ∧
      Memory.read t.block.buf (slot Config.CAP ((s.block.cur : Int) - 4)) = p.b0 ∧
      Memory.read t.block.buf (slot Config.CAP ((s.block.cur : Int) - 3)) = p.b1 ∧
      Memory.read t.block.buf (slot Config.CAP ((s.block.cur : Int) - 2)) = p.b2 ∧
      Memory.read t.block.buf (slot Config.CAP ((s.block.cur : Int) - 1)) = p.b3 ∧
      (∀ a, a ∉ windowSlots Config.CAP s.block → Memory.read t.block.buf a = Memory.read s.block.buf a) ∧
      Memory.wf t.block.buf = true ∧
      t.block = { s.block with buf := t.block.buf, fstate := .idle } ∧
      t.out = [.flag true] ∧ t.lastInjected = some p ∧
      t.controller = s.controller ∧ t.actuator = s.actuator ∧ t.missed = s.missed ∧ t.turns = s.turns ∧ t.ticks = s.ticks

/-- R144, R224 (D3): a rejected `INJECT` writes nothing (that the label stands before the flag is log 5). -/
def Obligations.InjectIsRejectedOutsideFrameComplete : Prop :=
  ∀ (s : State) (p : Packet), s.block.fstate ≠ .frameComplete →
    ∃ t, exec (.inject p) s = .next t ∧ t.block = s.block ∧ restUnchanged s t ∧
      t.out = [.label (.missedUpdate s.block.fstate), .flag false]

/-- R145: the main loop writes `buf` only in `FrameComplete`; while `Receiving`, and a `RESET` apart (R260), a slot that changes is
the slot `cur` of a step that emits a byte. -/
def Obligations.OnlyAcceptedInjectionsAndByteClocksWrite : Prop :=
  ∀ (i : Instr) (s t : State), exec i s = .next t →
    (mainLoopOp i = true → t.block.buf ≠ s.block.buf → s.block.fstate = .frameComplete) ∧
    (s.block.fstate = .receiving → i ≠ .reset → ∀ a, Memory.read t.block.buf a ≠ Memory.read s.block.buf a →
      a = slot Config.CAP s.block.cur ∧ emitted t.out ≠ [])

/-- R188, R140, R235 (D23): no operation of the main loop, and no step of the controller, changes a register that the host port does
not show, a slot outside the trailing window, or the frame state but for an accepted injection. -/
def Obligations.MainLoopCannotTouchHiddenState : Prop :=
  ∀ s t : State,
    ((∃ i, mainLoopOp i = true ∧ exec i s = .next t) ∨ (∃ r, t = controllerStep Config.CAP r s)) →
      t.block.cur = s.block.cur ∧ t.block.cnt = s.block.cnt ∧ t.block.tx = s.block.tx ∧
      detectorUnchanged s.block t.block ∧ t.block.ipFs = s.block.ipFs ∧ t.block.ipBc = s.block.ipBc ∧
      t.block.sr = s.block.sr ∧ t.block.bitn = s.block.bitn ∧
      (∀ a, a ∉ windowSlots Config.CAP s.block → Memory.read t.block.buf a = Memory.read s.block.buf a) ∧
      (t.block.fstate ≠ s.block.fstate → s.block.fstate = .frameComplete ∧ t.block.fstate = .idle)

/-! ### Frame Codec -/

/-- R161 (that `cmd` is an argument is D15): `ENC_CMD` on arguments in range returns
`cmd * 2^30 + red * 2^20 + green * 2^10 + blue`, byte 0 in bits 31:24, and changes nothing. -/
def Obligations.EncCmdReturnsThePackedWord : Prop :=
  ∀ (s : State) (cmd red green blue : Nat), cmd ≤ 3 → red ≤ 1023 → green ≤ 1023 → blue ≤ 1023 →
    ∃ t p, exec (.encCmd cmd red green blue) s = .next t ∧ t.out = [.packet p] ∧ t.block = s.block ∧ restUnchanged s t ∧
      (p.b0 ++ p.b1 ++ p.b2 ++ p.b3).toNat = cmd * 2 ^ 30 + red * 2 ^ 20 + green * 2 ^ 10 + blue

/-- R162: `DEC_CMD` on any four bytes returns the fields of the word, and changes nothing. -/
def Obligations.DecCmdReturnsTheFields : Prop :=
  ∀ (s : State) (p : Packet), ∃ t c, exec (.decCmd p) s = .next t ∧ t.out = [.command c] ∧ t.block = s.block ∧
    restUnchanged s t ∧
    (p.b0 ++ p.b1 ++ p.b2 ++ p.b3).toNat =
      c.cmd.toNat * 2 ^ 30 + c.red.toNat * 2 ^ 20 + c.green.toNat * 2 ^ 10 + c.blue.toNat

/-- R163: `ENC_SENSOR` on a weight in range returns `[w mod 256, 0, 0, 0]`, and changes nothing. -/
def Obligations.EncSensorReturnsTheWeightByte : Prop :=
  ∀ (s : State) (weight : Int), -128 ≤ weight → weight ≤ 127 →
    ∃ t b, exec (.encSensor weight) s = .next t ∧ t.out = [.packet ⟨b, 0x00, 0x00, 0x00⟩] ∧ t.block = s.block ∧
      restUnchanged s t ∧ (b.toNat : Int) = weight % 256

/-- R164 (that bytes 1 to 3 are ignored is D16): `DEC_SENSOR` returns `p0 if p0 < 128, else p0 - 256`, and changes nothing. -/
def Obligations.DecSensorReturnsTheSignedByte : Prop :=
  ∀ (s : State) (p : Packet), ∃ t, exec (.decSensor p) s = .next t ∧ t.block = s.block ∧ restUnchanged s t ∧
    t.out = [.weight (if p.b0.toNat < 128 then (p.b0.toNat : Int) else p.b0.toNat - 256)]

/-- R160 (D22): an argument outside its range is refused, neither masked nor saturated. -/
def Obligations.ArgumentsOutOfRangeAreRefused : Prop :=
  (∀ (s : State) (cmd red green blue : Nat), (3 < cmd ∨ 1023 < red ∨ 1023 < green ∨ 1023 < blue) →
    exec (.encCmd cmd red green blue) s = .refused .outOfRange) ∧
  (∀ (s : State) (weight : Int), (weight < -128 ∨ 127 < weight) → exec (.encSensor weight) s = .refused .outOfRange)

/-- R165: the four round trips, for all arguments in range. -/
def Obligations.CodecRoundTrips : Prop :=
  (∀ cmd red green blue : Nat, cmd ≤ 3 → red ≤ 1023 → green ≤ 1023 → blue ≤ 1023 →
    (decodeCommand (encodeCommand (commandOfNats cmd red green blue))).cmd.toNat = cmd ∧
    (decodeCommand (encodeCommand (commandOfNats cmd red green blue))).red.toNat = red ∧
    (decodeCommand (encodeCommand (commandOfNats cmd red green blue))).green.toNat = green ∧
    (decodeCommand (encodeCommand (commandOfNats cmd red green blue))).blue.toNat = blue) ∧
  (∀ w : Int, -128 ≤ w → w ≤ 127 → decodeSensor (encodeSensor (u8 w)) = w) ∧
  (∀ p : Packet, encodeCommand (decodeCommand p) = p) ∧
  (∀ p : Packet, encodeSensor (u8 (decodeSensor p)) = ⟨p.b0, 0x00, 0x00, 0x00⟩ ∧
    (encodeSensor (u8 (decodeSensor p)) = p ↔ p.b1 = 0x00 ∧ p.b2 = 0x00 ∧ p.b3 = 0x00))

/-- R167: each decoder given the other's packets. -/
def Obligations.DecodersOnTheOtherKind : Prop :=
  (∀ w : Byte,
    (decodeCommand (encodeSensor w)).cmd.toNat = w.toNat / 64 ∧
    (decodeCommand (encodeSensor w)).red.toNat = w.toNat % 64 * 16 ∧
    (decodeCommand (encodeSensor w)).green = 0 ∧ (decodeCommand (encodeSensor w)).blue = 0) ∧
  (∀ c : Command, decodeSensor (encodeCommand c) = s8 (BitVec.ofNat 8 (c.cmd.toNat * 64 + c.red.toNat / 16)))

/-! ### Node Controller -/

/-- R184: one pass started in `FrameComplete` ends in `Idle` with the sensor packet in the window and exactly one `set_rgb`; started
in any other frame state it does nothing; from `AwaitFrame` it is R181, R182, R183 in sequence. What it leaves in the
temporaries is R182 and R183; that `ctl` stays is log 14. -/
def Obligations.ServiceIsOneWholePass : Prop :=
  ∀ (s : State) (w : Byte), s.Inv →
    ∃ t, exec (.service w) s = .next t ∧
      (s.block.fstate = .frameComplete →
        t.block = { s.block with buf := t.block.buf, fstate := .idle } ∧
        window Config.CAP t.block = ⟨w, 0x00, 0x00, 0x00⟩ ∧
        t.controller = { s.controller with
          window := window Config.CAP s.block, command := decodeCommand (window Config.CAP s.block), reading := w } ∧
        actuatorCalls t.out = [channels (decodeCommand (window Config.CAP s.block))] ∧
        t.actuator = channels (decodeCommand (window Config.CAP s.block))) ∧
      (s.block.fstate ≠ .frameComplete → t.block = s.block ∧ restUnchanged s t ∧ actuatorCalls t.out = []) ∧
      (s.block.fstate = .frameComplete → s.controller.ctl = .awaitFrame →
        let s1 := controllerStep Config.CAP w s
        let s2 := controllerStep Config.CAP w s1
        let s3 := controllerStep Config.CAP w s2
        t = { s3 with out := s1.out ++ s2.out ++ s3.out })

/-- R181: a turn of the controller in `AwaitFrame`, under the premise of R265 (no fault stands). -/
def Obligations.AwaitFramePolls : Prop :=
  ∀ (s : State) (r : Byte) (rest : List Turn),
    s.turns = { reset := false, act := .controller r } :: rest → s.missed = none → s.controller.ctl = .awaitFrame →
    ∃ t, step s = .next t ∧ t.block = s.block ∧ t.actuator = s.actuator ∧ t.missed = none ∧ t.lastInjected = s.lastInjected ∧
      t.controller = { s.controller with
        ctl := if s.block.fstate = .frameComplete then .decodeAndApply else .awaitFrame } ∧
      t.out = [.flag (decide (s.block.fstate = .frameComplete))]

/-- R182 (the check of `valid` is D19), with R34's temporaries: a turn of the controller in `DecodeAndApply`, no fault standing. -/
def Obligations.DecodeAndApplyUsesAValidWindowOnly : Prop :=
  ∀ (s : State) (r : Byte) (rest : List Turn),
    s.turns = { reset := false, act := .controller r } :: rest → s.missed = none → s.controller.ctl = .decodeAndApply →
    ∃ t, step s = .next t ∧ t.block = s.block ∧ t.missed = none ∧ t.lastInjected = s.lastInjected ∧
      t.controller.window = window Config.CAP s.block ∧ t.controller.reading = s.controller.reading ∧
      (s.block.fstate = .frameComplete →
        t.controller.ctl = .injectNextPacket ∧ t.controller.command = commandOfPacket (window Config.CAP s.block) ∧
        t.actuator = channels (commandOfPacket (window Config.CAP s.block)) ∧
        actuatorCalls t.out = [channels (commandOfPacket (window Config.CAP s.block))]) ∧
      (s.block.fstate ≠ .frameComplete →
        t.controller.ctl = .awaitFrame ∧ t.controller.command = s.controller.command ∧ t.actuator = s.actuator ∧
          actuatorCalls t.out = [])

/-- R183, R223, R224: a turn of the controller in `InjectNextPacket`, no fault standing, the sensor answering `r` (what counts
as injected last is log 8). -/
def Obligations.InjectNextPacketInjectsTheReading : Prop :=
  ∀ (s : State) (r : Byte) (rest : List Turn), s.Inv →
    s.turns = { reset := false, act := .controller r } :: rest → s.missed = none → s.controller.ctl = .injectNextPacket →
    ∃ t, step s = .next t ∧ t.actuator = s.actuator ∧ t.missed = none ∧
      t.controller = { s.controller with reading := r, ctl := .awaitFrame } ∧
      (.staleSensorReading ∈ labels t.out ↔ s.lastInjected = some ⟨r, 0x00, 0x00, 0x00⟩) ∧
      (s.block.fstate = .frameComplete →
        window Config.CAP t.block = ⟨r, 0x00, 0x00, 0x00⟩ ∧ t.block.fstate = .idle ∧
        t.lastInjected = some ⟨r, 0x00, 0x00, 0x00⟩ ∧ .flag true ∈ t.out) ∧
      (s.block.fstate ≠ .frameComplete →
        t.block = s.block ∧ t.lastInjected = s.lastInjected ∧ .flag false ∈ t.out ∧
        .missedUpdate s.block.fstate ∈ labels t.out)

/-- R182 (a), R116 (c), R187: in every step, the actuator is driven only while a well-formed scan is pending, at most once, and
then with the decode of the trailing window; a step that leaves a missed deadline's fault standing apart (R227, U2). -/
def Obligations.ActuatorMovesOnlyForACompletedScan : Prop :=
  ∀ s t : State, step s = .next t → t.missed = none →
    (t.actuator = s.actuator ∧ actuatorCalls t.out = []) ∨
    (s.block.fstate = .frameComplete ∧ t.actuator = channels (decodeCommand (window Config.CAP s.block)) ∧
      actuatorCalls t.out = [t.actuator])

/-! ### Laws of one node -/

/-- R119 (D7, D8, D3): the frame-state transition table, with the labels it names, for the events by themselves. That an ignored
`FS_DEASSERT` carries no label in the middle of a byte either is log 12 (DEDUCED). -/
def Obligations.FrameStateTransitionTable : Prop :=
  ∀ s : State,
    (∃ t, exec .fsAssert s = .next t ∧ t.block.fstate = .receiving ∧ t.block.cnt = 0 ∧
      labels t.out = if s.block.fstate = .frameComplete then [.lostFrame] else []) ∧
    (∀ rx, ∃ t, exec (.byteClk rx) s = .next t ∧ t.block.fstate = s.block.fstate ∧
      (s.block.fstate ≠ .receiving → t.out = [])) ∧
    (∃ t, exec .fsDeassert s = .next t ∧
      t.block.fstate = (if s.block.fstate = .receiving
        then (if s.block.cnt ≠ 0 ∧ s.block.cnt % 4 = 0 then .frameComplete else .idle) else s.block.fstate) ∧
      (.malformedFrame s.block.cnt ∈ labels t.out ↔
        s.block.fstate = .receiving ∧ ¬(s.block.cnt ≠ 0 ∧ s.block.cnt % 4 = 0)) ∧
      (s.block.fstate ≠ .receiving → t.out = [])) ∧
    (∃ t, exec .poll s = .next t ∧ t.block.fstate = s.block.fstate ∧ labels t.out = []) ∧
    (∃ t, exec .extract s = .next t ∧ t.block.fstate = s.block.fstate ∧ labels t.out = []) ∧
    (∀ p, ∃ t, exec (.inject p) s = .next t ∧
      t.block.fstate = (if s.block.fstate = .frameComplete then .idle else s.block.fstate) ∧
      labels t.out = if s.block.fstate = .frameComplete then [] else [.missedUpdate s.block.fstate]) ∧
    (∃ t, exec .reset s = .next t ∧ t.block.fstate = .idle ∧ labels t.out = [])

/-- R234: the labels that one step can carry. -/
def Obligations.LabelsThatOneStepCanCarry : Prop :=
  (∀ (s t : State) (rx : Rx), exec (.byteClk rx) s = .next t → labels t.out = [] ∨ labels t.out = [.bufferNearOverrun]) ∧
  (∀ s t : State, exec .fsAssert s = .next t → labels t.out = [] ∨ labels t.out = [.lostFrame]) ∧
  (∀ s t : State, exec .fsDeassert s = .next t →
    ∀ c ∈ labels t.out, c = .malformedFrame s.block.cnt ∨ c = .partialByte s.block.bitn) ∧
  (∀ (s t : State) (p : Packet), exec (.inject p) s = .next t →
    labels t.out = [] ∨ labels t.out = [.missedUpdate s.block.fstate]) ∧
  (∀ (s : State) (r : Byte), s.controller.ctl = .injectNextPacket →
    ∀ c ∈ labels (controllerStep Config.CAP r s).out, c = .staleSensorReading ∨ c = .missedUpdate s.block.fstate)

/-- R117, the relay law, with the main loop's operations between the bytes in any order (R60, R145): the emitted stream is the old
window and then the received bytes, cut to the length of the scan. -/
def Obligations.RelayIsAFourByteDelay : Prop :=
  ∀ (s : State) (is : List Instr), s.Inv → (∀ i ∈ is, insideScan i) →
    ∃ t os, runOps (.fsAssert :: is) s = .next (t, os) ∧
      emitted os = (windowBytes Config.CAP s.block ++ deliveredBytes is).take (deliveredBytes is).length

/-- R118, the frame-end law: after a scan the window is the last four of the old window and the received bytes; after four bytes or
more, the last four received. -/
def Obligations.WindowAtTheEndOfAScan : Prop :=
  ∀ (s : State) (rs : List Byte), s.Inv →
    ∃ t os, runOps (scanOps rs) s = .next (t, os) ∧
      windowBytes Config.CAP t.block = lastFour (windowBytes Config.CAP s.block ++ rs) ∧
      (4 ≤ rs.length → windowBytes Config.CAP t.block = lastFour rs) ∧
      (∀ p : Packet, 4 ≤ rs.length → packetBytes p = lastFour rs →
        decodeCommand (window Config.CAP t.block) = decodeCommand p) ∧
      t.block.cnt = rs.length ∧
      (t.block.fstate = .frameComplete ↔ rs.length ≠ 0 ∧ rs.length % 4 = 0)

/-- R116, partial-frame recovery (a) to (e). -/
def Obligations.MalformedScanRecovers : Prop :=
  ∀ (s : State) (rs ns : List Byte) (p : Packet), s.Inv → ¬(rs.length ≠ 0 ∧ rs.length % 4 = 0) →
    ∃ t os, runOps (scanOps rs) s = .next (t, os) ∧ .malformedFrame rs.length ∈ labels os ∧
      t.block.cur = (s.block.cur + rs.length) % Config.CAP ∧
      windowBytes Config.CAP t.block = lastFour (windowBytes Config.CAP s.block ++ rs) ∧
      t.block.fstate = .idle ∧
      (∃ u, exec .poll t = .next u ∧ u.out = [.flag false]) ∧
      (∃ u w, exec .extract t = .next u ∧ u.out = [.flag false, .rdata w]) ∧
      (∃ u, exec (.inject p) t = .next u ∧ u.block = t.block ∧ .flag false ∈ u.out) ∧
      t.actuator = s.actuator ∧
      (∃ u, exec .fsAssert t = .next u ∧ u.block.cnt = 0 ∧ u.block.fstate = .receiving) ∧
      (∃ u ps, runOps (scanOps ns) t = .next (u, ps) ∧
        emitted ps = (windowBytes Config.CAP t.block ++ ns).take ns.length)

/-- R58, the window law, one operation at a time: whatever the capacity, the block is the 4-byte shift register. Beside the window
R58 speaks of `fstate`, `cnt` and `tx`; what the second machine does with the rest is that of R120 (`sr`, `bitn`, `BIT`: D13), R86
and R111 (the detector), R27 and R232 (pending bits; log 10 for a bare event), R143 (D4), R260 (the reset values: D6), log 12 (no
label on an ignored `FS_DEASSERT`), log 13 (an edge in the middle of a byte), log 31 (edge words) and log 5 (the order of two
labels). -/
def Obligations.BlockIsAFourByteShiftRegister : Prop :=
  ∀ (cap : Nat) (op : BlockOp) (b : Block), 8 ≤ cap → blockOk cap b →
    view cap (blockEffect cap op b).block = (viewEffect op (view cap b)).1 ∧
    observable (blockEffect cap op b).out = (viewEffect op (view cap b)).2

/-- R58: "two models with different `CAP >= 8` are indistinguishable", over runs of operations from blocks whose views agree. -/
def Obligations.CapacityIsNotObservable : Prop :=
  ∀ (cap cap' : Nat) (ops : List BlockOp) (b b' : Block), 8 ≤ cap → 8 ≤ cap' → blockOk cap b → blockOk cap' b' →
    view cap b = view cap' b' →
      observable (runBlock cap ops b).2 = observable (runBlock cap' ops b').2 ∧
      view cap (runBlock cap ops b).1 = view cap' (runBlock cap' ops b').1

/-- The operations that the two statements above are about are the instructions: with no pending bit set, each runs as `exec` says
(R97). -/
def Obligations.BlockOperationsAreTheInstructions : Prop :=
  ∀ (op : BlockOp) (s : State), handlersMeetDeadline s.block →
    ∃ t, exec (instrOf op) s = .next t ∧ t.block = (blockEffect Config.CAP op s.block).block ∧
      t.out = (blockEffect Config.CAP op s.block).out

/-- R64: an accepted `INJECT(p)` followed by `FS_ASSERT` arms `p[0]`, and the first four bytes emitted are the packet. -/
def Obligations.InjectedPacketLeadsTheNextScan : Prop :=
  ∀ (s : State) (p : Packet) (r0 r1 r2 r3 : Byte), s.Inv → s.block.fstate = .frameComplete →
    ∃ t u v os, exec (.inject p) s = .next t ∧ exec .fsAssert t = .next u ∧ u.block.tx = p.b0 ∧
      runOps [.byteClk (.byte r0), .byteClk (.byte r1), .byteClk (.byte r2), .byteClk (.byte r3)] u = .next (v, os) ∧
      emitted os = [p.b0, p.b1, p.b2, p.b3]

/-- R146: the same packet injected after two scans is emitted first in both of the scans that follow. -/
def Obligations.SameReadingTwiceIsSentTwice : Prop :=
  ∀ (s : State) (p : Packet) (ms ns : List Byte), s.Inv → s.block.fstate = .frameComplete →
    ms.length ≠ 0 → ms.length % 4 = 0 → 4 ≤ ns.length →
    ∃ t os u ps, runOps (.inject p :: scanOps ms) s = .next (t, os) ∧ runOps (.inject p :: scanOps ns) t = .next (u, ps) ∧
      (emitted os).take 4 = packetBytes p ∧ (emitted ps).take 4 = packetBytes p

/-- R185, C4: when `FS_ASSERT` comes before the injection, the injection is rejected and the scan emits the un-injected window, the
command received last (that a label stands before the flag is log 5). -/
def Obligations.MissedUpdateRelaysTheOldCommand : Prop :=
  ∀ (s : State) (p : Packet) (rs : List Byte), s.Inv → s.block.fstate = .frameComplete → 4 ≤ rs.length →
    ∃ t u v os, exec .fsAssert s = .next t ∧ labels t.out = [.lostFrame] ∧ exec (.inject p) t = .next u ∧
      u.out = [.label (.missedUpdate .receiving), .flag false] ∧
      runOps (rs.map fun r => .byteClk (.byte r)) u = .next (v, os) ∧
      (emitted os).take 4 = windowBytes Config.CAP s.block

/-- R37: what stands outside the node, and the actuator, have no part in what an operation does to the node; what it puts out depends
on the observer's memory alone among them (R223, log 8). -/
def Obligations.ObservationsHaveNoInfluence : Prop :=
  ∀ (i : Instr) (s s' t : State), s'.block = s.block → s'.controller = s.controller → exec i s = .next t →
    ∃ t', exec i s' = .next t' ∧ t'.block = t.block ∧ t'.controller = t.controller ∧
      (s'.actuator = s.actuator → s'.missed = s.missed → t'.toNode = t.toNode) ∧
      (s'.lastInjected = s.lastInjected → t'.lastInjected = t.lastInjected ∧ t'.out = t.out)

/-! ### The chain -/

/-- R202 (D20): one edge of `byte_clock` is one step of all nodes, each receiving what its upstream neighbour had armed before it,
and the master what the last node had armed. Here and below `cap k` is the capacity of node `k` (R201: "different `CAP`"). -/
def Obligations.ChainByteClockIsSimultaneous : Prop :=
  ∀ (cap : Nat → Nat) (m : Byte) (nodes : List State), (∀ n ∈ nodes, n.block.fstate = .receiving ∧ n.missed = none) →
    (chainByteClk cap (.byte m) nodes).length = nodes.length ∧
    (∀ (k : Nat) (n : State), nodes[k]? = some n →
      (chainByteClk cap (.byte m) nodes)[k]? =
        some (withEffect n (byteClk (cap (k + 1))
          (.byte (if k = 0 then m else ((nodes[k - 1]?).map fun u => u.block.tx).getD 0x00)) n.block))) ∧
    tailByte nodes = (nodes.getLast?.map fun n => n.block.tx).toList

/-- R201: all nodes reach the same count and the same verdict, whatever their state before the scan and their capacities. -/
def Obligations.ChainVerdictsAgree : Prop :=
  ∀ (cap : Nat → Nat) (nodes : List State) (ms : List Byte),
    (chainScan cap ms nodes).1.length = nodes.length ∧
    ∀ n ∈ (chainScan cap ms nodes).1, n.block.cnt = ms.length ∧
      n.block.fstate = if ms.length ≠ 0 ∧ ms.length % 4 = 0 then .frameComplete else .idle

/-- R203, the scan law: what the master receives, and what every node emits, which is what the chain of the nodes up to it sends. -/
def Obligations.ChainSendsItsWindowsLastNodeFirst : Prop :=
  ∀ (cap : Nat → Nat) (nodes : List State) (ms : List Byte) (k : Nat), chainOk cap nodes → 1 ≤ k → k ≤ nodes.length →
    (chainScan cap ms (nodes.take k)).2 =
      (bytesOfPackets (chainWindows cap (nodes.take k)).reverse ++ ms).take ms.length ∧
    (chainScan cap ms (nodes.take k)).1 = (chainScan cap ms nodes).1.take k

/-- R204, the scan law: after `4 * j` bytes, node `k` (here `k + 1`, counting from 0) holds `W_(k-j)`, or packet `j-k+1` of the
master. -/
def Obligations.ChainEndsWithEachNodesPacket : Prop :=
  ∀ (cap : Nat → Nat) (nodes : List State) (ms : List Byte) (j k : Nat), chainOk cap nodes →
    1 ≤ j → ms.length = 4 * j → k < nodes.length →
      (chainWindows cap (chainScan cap ms nodes).1)[k]? =
        if j ≤ k then (chainWindows cap nodes)[k - j]? else (packetsOf ms)[j - k - 1]?

/-- R205 (b), (c), within one scan: a packet in node `k`'s window when the scan starts is in node `k+i`'s window after slot `i`, and
the chain tail receives it during slot `N-k+1`. -/
def Obligations.PacketMovesOneNodePerSlot : Prop :=
  ∀ (cap : Nat → Nat) (nodes : List State) (k : Nat) (p : Packet), chainOk cap nodes →
    1 ≤ k → (chainWindows cap nodes)[k - 1]? = some p →
      (∀ (i : Nat) (ms : List Byte), 1 ≤ i → i + k ≤ nodes.length → ms.length = 4 * i →
        (chainWindows cap (chainBytes cap ms (chainFsAssert cap nodes)).1)[k + i - 1]? = some p) ∧
      (∀ ms : List Byte, ms.length = 4 * (nodes.length - k + 1) →
        (chainBytes cap ms (chainFsAssert cap nodes)).2.drop (4 * (nodes.length - k)) = packetBytes p)

/-- R264: a freshly reset chain of `n` nodes answers its first `4 * n`-byte scan with `4 * n` zero bytes (the reset values are D6). -/
def Obligations.FirstScanAfterResetReadsZeros : Prop :=
  ∀ (cap : Nat → Nat) (n : Nat) (ms : List Byte), (∀ k, 8 ≤ cap k) → 1 ≤ n → ms.length = 4 * n →
    (chainScan cap ms (chainReset n).nodes).2 = List.replicate (4 * n) 0x00

/-- R206: an operation at node `k`, or a step of its controller, touches only node `k`'s state, and is there what it is at a node of
that capacity by itself; a missed deadline's fault is each node's own. -/
def Obligations.NodesActAlone : Prop :=
  (∀ (i : Instr) (s : State), execAtCapacity Config.CAP i s = exec i s) ∧
  (∀ (k cap : Nat) (i : Instr) (s t : State), s.missed = none → execAtCapacity cap i s = .next t → nodeOp k cap i s = .next t) ∧
  ∀ (c : Chain) (k : Nat) (n : State), 1 ≤ k → c.nodes[k - 1]? = some n →
    (∀ (i : Instr) (n' : State), handlerOp i = false → nodeOp k (Config.capOfNode k) i n = .next n' →
      ∃ d, chainAct (.atNode k i) c = .next d ∧ d.nodes[k - 1]? = some n' ∧ d.nodes.length = c.nodes.length ∧
        ∀ j, j ≠ k - 1 → d.nodes[j]? = c.nodes[j]?) ∧
    (∀ r : Byte, n.missed = none → ∃ d, chainAct (.controller k r) c = .next d ∧
      d.nodes[k - 1]? = some (controllerStep (Config.capOfNode k) r n) ∧ d.nodes.length = c.nodes.length ∧
      ∀ j, j ≠ k - 1 → d.nodes[j]? = c.nodes[j]?)
end

