-- ==== Sys2Proof/Laws/Decode.lean ====
section
/-! SUPPORT. Packets and words: the two directions undo each other, and the edge word's selections as conditions on the levels. -/

namespace Sys2Proof

/-- The bits of an append, high part first, with the widths left as they stand. -/
theorem getLsbD_append4 {k l m n : Nat} (a : BitVec k) (b : BitVec l) (c : BitVec m) (d : BitVec n) (i : Nat) :
    (a ++ b ++ c ++ d).getLsbD i =
      if i < n then d.getLsbD i
      else if i - n < m then c.getLsbD (i - n)
      else if i - n - m < l then b.getLsbD (i - n - m)
      else a.getLsbD (i - n - m - l) := by
  simp only [BitVec.getLsbD_append]

/-- The value of an append, high part first. -/
theorem toNat_append4 {k l m n : Nat} (a : BitVec k) (b : BitVec l) (c : BitVec m) (d : BitVec n) :
    (a ++ b ++ c ++ d).toNat = ((a.toNat * 2 ^ l + b.toNat) * 2 ^ m + c.toNat) * 2 ^ n + d.toNat := by
  simp only [BitVec.toNat_append]
  rw [← Nat.shiftLeft_add_eq_or_of_lt d.isLt, ← Nat.shiftLeft_add_eq_or_of_lt c.isLt, ← Nat.shiftLeft_add_eq_or_of_lt b.isLt]
  simp only [Nat.shiftLeft_eq]

/-- A byte read as a signed number and written back (R8). -/
@[simp] theorem u8_s8 (b : Byte) : u8 (s8 b) = b := by simp [u8, s8]

/-- A 32-bit word is its four bytes (R81). -/
theorem packetWord_ofWord (w : BitVec 32) : packetWord (packetOfWord w) = w := by
  apply BitVec.eq_of_getLsbD_eq
  intro i hi
  refine (getLsbD_append4 _ _ _ _ i).trans ?_
  simp only [packetOfWord, BitVec.getLsbD_extractLsb']
  split
  · simp [*]
  · split
    · simp only [*, decide_true, Bool.true_and]; congr 1; omega
    · split
      · simp only [*, decide_true, Bool.true_and]; congr 1; omega
      · have h : i - 8 - 8 - 8 < 8 := by omega
        simp only [h, decide_true, Bool.true_and]; congr 1; omega

/-- Four bytes are the bytes of their word (R81). -/
theorem packetOfWord_word (p : Packet) : packetOfWord (packetWord p) = p := by
  obtain ⟨b0, b1, b2, b3⟩ := p
  simp only [packetOfWord, Packet.mk.injEq]
  have g (i : Nat) := getLsbD_append4 b0 b1 b2 b3 i
  refine ⟨?_, ?_, ?_, ?_⟩ <;> apply BitVec.eq_of_getLsbD_eq <;> intro i hi <;>
    refine (BitVec.getLsbD_extractLsb' ..).trans ?_ <;> simp only [hi, decide_true, Bool.true_and] <;>
    refine (g _).trans ?_
  · rw [if_neg (by omega), if_neg (by omega), if_neg (by omega)]; congr 1; omega
  · rw [if_neg (by omega), if_neg (by omega), if_pos (by omega)]; congr 1; omega
  · rw [if_neg (by omega), if_pos (by omega)]; congr 1; omega
  · rw [if_pos (by omega)]; congr 1; omega

/-- A 32-bit word is its four fields (R81). -/
theorem commandWord_ofWord (w : BitVec 32) : commandWord (commandOfWord w) = w := by
  apply BitVec.eq_of_getLsbD_eq
  intro i hi
  refine (getLsbD_append4 _ _ _ _ i).trans ?_
  simp only [commandOfWord, BitVec.getLsbD_extractLsb']
  split
  · simp [*]
  · split
    · simp only [*, decide_true, Bool.true_and]; congr 1; omega
    · split
      · simp only [*, decide_true, Bool.true_and]; congr 1; omega
      · have h : i - 10 - 10 - 10 < 2 := by omega
        simp only [h, decide_true, Bool.true_and]; congr 1; omega

/-- Four fields are the fields of their word (R81). -/
theorem commandOfWord_word (c : Command) : commandOfWord (commandWord c) = c := by
  obtain ⟨cmd, red, green, blue⟩ := c
  simp only [commandOfWord, Command.mk.injEq]
  have g (i : Nat) := getLsbD_append4 cmd red green blue i
  refine ⟨?_, ?_, ?_, ?_⟩ <;> apply BitVec.eq_of_getLsbD_eq <;> intro i hi <;>
    refine (BitVec.getLsbD_extractLsb' ..).trans ?_ <;> simp only [hi, decide_true, Bool.true_and] <;>
    refine (g _).trans ?_
  · rw [if_neg (by omega), if_neg (by omega), if_neg (by omega)]; congr 1; omega
  · rw [if_neg (by omega), if_neg (by omega), if_pos (by omega)]; congr 1; omega
  · rw [if_neg (by omega), if_pos (by omega)]; congr 1; omega
  · rw [if_pos (by omega)]; congr 1; omega

/-- Each selection of R86 as a condition on the old and the new level. -/
theorem selectsFsAssert_eq (a b c d : Bool) : selectsFsAssert (edgeWord a b c d) = (!a && b) := by
  revert a b c d; decide

theorem selectsFsDeassert_eq (a b c d : Bool) : selectsFsDeassert (edgeWord a b c d) = (a && !b) := by
  revert a b c d; decide

theorem selectsByteClk_eq (a b c d : Bool) : selectsByteClk (edgeWord a b c d) = (!c && d) := by
  revert a b c d; decide

/-- An edge word that selects one event is that event's word, and the operation gives the word back (R86). -/
theorem decodeEdge_word (e : BitVec 4) :
    (selectsFsAssert e = true → selectsByteClk e = false → assertWord (clockLevelsOf e) = e) ∧
    (selectsFsDeassert e = true → selectsByteClk e = false → deassertWord (clockLevelsOf e) = e) ∧
    (selectsFsAssert e = false → selectsFsDeassert e = false → selectsByteClk e = true → clockWord (e.getLsbD 2) = e) ∧
    edgeWord (e.getLsbD 3) (e.getLsbD 2) (e.getLsbD 1) (e.getLsbD 0) = e := by
  revert e; decide

/-- The other way round: the word of an event decodes to it, all its levels kept. -/
theorem decodeEdge_assertWord (c : ClockLevels) (rx : Rx) : decodeEdge (assertWord c) rx = .fsAssert (some c) := by
  cases c <;> rfl

theorem decodeEdge_deassertWord (c : ClockLevels) (rx : Rx) : decodeEdge (deassertWord c) rx = .fsDeassert (some c) := by
  cases c <;> rfl

theorem decodeEdge_clockWord (fs : Bool) (rx : Rx) : decodeEdge (clockWord fs) rx = .byteClk rx (some fs) := by
  cases fs <;> rfl

end Sys2Proof
end

