-- ==== Sys2Proof/Laws/Memory.lean ====
section
/-! SUPPORT. The laws of the buffer: read after write, the canonical form, slot numbers. -/

namespace Sys2Proof.Machine

theorem memory_read_below {m : Memory} {lo a : Nat} (h : Memory.wfFrom lo m = true) (ha : a < lo) :
    Memory.read m a = 0x00 := by
  induction m generalizing lo with
  | nil => rfl
  | cons c m ih =>
    obtain ⟨k, v⟩ := c
    simp only [Memory.wfFrom, Bool.and_eq_true, decide_eq_true_eq] at h
    obtain ⟨⟨hk, -⟩, hm⟩ := h
    have hne : k ≠ a := by omega
    simp only [Memory.read, hne, if_false]
    exact ih hm (by omega)

/-- A read after a write in the same slot gives the value written. -/
theorem memory_read_write_same {m : Memory} (a : Nat) (v : Byte) (h : Memory.wf m = true) :
    Memory.read (Memory.write m a v) a = v := by
  suffices ∀ (m : Memory) (lo : Nat), Memory.wfFrom lo m = true → Memory.read (Memory.write m a v) a = v from
    this m 0 h
  intro m
  induction m with
  | nil => intro lo _; simp only [Memory.write]; split <;> simp_all [Memory.read]
  | cons c m ih =>
    intro lo h
    obtain ⟨k, u⟩ := c
    simp only [Memory.wfFrom, Bool.and_eq_true, decide_eq_true_eq] at h
    obtain ⟨⟨hk, hu⟩, hm⟩ := h
    simp only [Memory.write]
    split
    · have : k ≠ a := by omega
      simp only [Memory.read, this, if_false]
      exact ih _ hm
    · split
      · subst k
        split
        · subst v; exact memory_read_below hm (by omega)
        · simp [Memory.read]
      · split
        · subst v
          have : k ≠ a := by omega
          simp only [Memory.read, this, if_false]
          exact memory_read_below hm (by omega)
        · simp [Memory.read]

/-- A write leaves every other slot as it was. -/
theorem memory_read_write_other {m : Memory} {a i : Nat} (v : Byte) (h : i ≠ a) :
    Memory.read (Memory.write m a v) i = Memory.read m i := by
  induction m with
  | nil => simp only [Memory.write]; split <;> simp [Memory.read, Ne.symm h]
  | cons c m ih =>
    obtain ⟨k, u⟩ := c
    simp only [Memory.write]
    split
    · simp only [Memory.read, ih]
    · split
      · subst k; split <;> simp [Memory.read, Ne.symm h]
      · split <;> simp [Memory.read, Ne.symm h]

theorem memory_write_wfFrom {m : Memory} {lo a : Nat} (v : Byte) (h : Memory.wfFrom lo m = true) (ha : lo ≤ a) :
    Memory.wfFrom lo (Memory.write m a v) = true := by
  induction m generalizing lo with
  | nil =>
    simp only [Memory.write]
    split
    · rfl
    · simp_all [Memory.wfFrom]
  | cons c m ih =>
    obtain ⟨k, u⟩ := c
    simp only [Memory.wfFrom, Bool.and_eq_true, decide_eq_true_eq] at h
    obtain ⟨⟨hk, hu⟩, hm⟩ := h
    have weaken : ∀ (m : Memory) (x y : Nat), x ≤ y → Memory.wfFrom y m = true → Memory.wfFrom x m = true := by
      intro m x y hxy hw
      cases m with
      | nil => rfl
      | cons c m =>
        obtain ⟨j, w⟩ := c
        simp only [Memory.wfFrom, Bool.and_eq_true, decide_eq_true_eq] at hw ⊢
        exact ⟨⟨by omega, hw.1.2⟩, hw.2⟩
    simp only [Memory.write]
    split
    · simp only [Memory.wfFrom, Bool.and_eq_true, decide_eq_true_eq]
      exact ⟨⟨hk, hu⟩, ih hm (by omega)⟩
    · split
      · subst k
        split
        · exact weaken _ _ _ (by omega) hm
        · simp only [Memory.wfFrom, Bool.and_eq_true, decide_eq_true_eq]
          exact ⟨⟨ha, by assumption⟩, hm⟩
      · split
        · simp only [Memory.wfFrom, Bool.and_eq_true, decide_eq_true_eq]
          exact ⟨⟨hk, hu⟩, hm⟩
        · simp only [Memory.wfFrom, Bool.and_eq_true, decide_eq_true_eq]
          exact ⟨⟨ha, by assumption⟩, ⟨by omega, hu⟩, hm⟩

/-- A write keeps the canonical form. -/
theorem memory_write_wf {m : Memory} (a : Nat) (v : Byte) (h : Memory.wf m = true) :
    Memory.wf (Memory.write m a v) = true :=
  memory_write_wfFrom v h (Nat.zero_le a)

/-- A write to a slot that exists keeps the buffer within its slots. -/
theorem memory_write_within {m : Memory} {cap a : Nat} (v : Byte) (h : Memory.within cap m = true) (ha : a < cap) :
    Memory.within cap (Memory.write m a v) = true := by
  induction m with
  | nil => simp only [Memory.write]; split <;> simp [Memory.within, ha]
  | cons c m ih =>
    obtain ⟨k, u⟩ := c
    simp only [Memory.within, List.all_cons, Bool.and_eq_true, decide_eq_true_eq] at h ih
    simp only [Memory.write]
    split
    · simp only [Memory.within, List.all_cons, Bool.and_eq_true, decide_eq_true_eq]
      exact ⟨h.1, ih h.2⟩
    · split <;> split <;>
        simp only [Memory.within, List.all_cons, Bool.and_eq_true, decide_eq_true_eq]
      · exact h.2
      · exact ⟨ha, h.2⟩
      · exact h
      · exact ⟨ha, h⟩

/-- A slot number is in range. -/
theorem slot_lt {cap : Nat} (h : 0 < cap) (a : Int) : slot cap a < cap := by
  have h1 := Int.emod_nonneg a (b := (cap : Int)) (by omega)
  have h2 := Int.emod_lt_of_pos a (b := (cap : Int)) (by omega)
  unfold slot
  omega

/-- The slot of an address in range. -/
theorem slot_of_nat {cap n : Nat} (h : n < cap) : slot cap (n : Int) = n := by
  unfold slot
  rw [Int.emod_eq_of_lt (by omega) (by omega)]
  omega

/-- The slot `k` positions behind a cursor, `k` no more than the capacity. -/
theorem slot_behind {cap cur k : Nat} (hc : cur < cap) (hk : k ≤ cap) :
    slot cap ((cur : Int) - k) = if k ≤ cur then cur - k else cur + cap - k := by
  unfold slot
  split
  · rw [Int.emod_eq_of_lt (by omega) (by omega)]; omega
  · have : ((cur : Int) - k) % cap = (cur : Int) - k + cap := by
      rw [← Int.add_emod_right, Int.emod_eq_of_lt (by omega) (by omega)]
    rw [this]; omega

/-- The cursor's advance, as a case distinction. -/
theorem nextCursor_eq {cap cur : Nat} (h : cur < cap) :
    nextCursor cap cur = if cur + 1 = cap then 0 else cur + 1 := by
  unfold nextCursor
  split
  · next e => rw [e, Nat.mod_self]
  · exact Nat.mod_eq_of_lt (by omega)

theorem nextCursor_lt {cap : Nat} (h : 0 < cap) (cur : Nat) : nextCursor cap cur < cap := Nat.mod_lt _ h

/-- Every allowed capacity is at least 8 (R7). -/
theorem capOfNode_ge_eight (k : Nat) : 8 ≤ Config.capOfNode k := by
  unfold Config.capOfNode
  omega

theorem cap_ge_eight : 8 ≤ Config.CAP := capOfNode_ge_eight 0

/-- Every allowed capacity holds the longest chain (R7). -/
theorem cap_ge_four_max_chain : 4 * Config.MAX_CHAIN ≤ Config.CAP := by
  unfold Config.CAP Config.capOfNode
  omega

theorem cap_pos : 0 < Config.CAP := by
  have := cap_ge_eight
  omega

/-- The reset buffer is in canonical form and within every capacity. -/
theorem reset_blockOk : blockOk Config.CAP Block.reset := ⟨cap_pos, rfl, rfl⟩

theorem writeSlot_wf {m : Memory} (cap : Nat) (a : Int) (v : Byte) (h : Memory.wf m = true) :
    Memory.wf (writeSlot cap m a v) = true := memory_write_wf _ _ h

theorem writeSlot_within {m : Memory} {cap : Nat} (hc : 0 < cap) (a : Int) (v : Byte)
    (h : Memory.within cap m = true) : Memory.within cap (writeSlot cap m a v) = true :=
  memory_write_within v h (slot_lt hc a)

theorem memWrite_wf {m : Memory} (cap : Nat) (a : Int) (vs : List Byte) (h : Memory.wf m = true) :
    Memory.wf (memWrite cap m a vs) = true := by
  induction vs generalizing m a with
  | nil => exact h
  | cons v vs ih => exact ih _ (writeSlot_wf cap a v h)

theorem memWrite_within {m : Memory} {cap : Nat} (hc : 0 < cap) (a : Int) (vs : List Byte)
    (h : Memory.within cap m = true) : Memory.within cap (memWrite cap m a vs) = true := by
  induction vs generalizing m a with
  | nil => exact h
  | cons v vs ih => exact ih _ (writeSlot_within hc a v h)

/-- `win()` is `MemRead(cur - 4, 4)` (R10). -/
theorem windowBytes_eq_memRead (cap : Nat) (b : Block) :
    windowBytes cap b = memRead cap b.buf ((b.cur : Int) - 4) 4 := by
  have e1 : (b.cur : Int) - 4 + 1 = b.cur - 3 := by omega
  have e2 : (b.cur : Int) - 3 + 1 = b.cur - 2 := by omega
  have e3 : (b.cur : Int) - 2 + 1 = b.cur - 1 := by omega
  simp only [windowBytes, window, packetBytes, memRead, e1, e2, e3]

end Sys2Proof.Machine
end

