-- ==== Sys2Proof/Laws/State.lean ====
section
/-! SUPPORT. One lemma for each field of each record update, true by rfl, so that no proof unfolds an update. -/

namespace Sys2Proof.Machine

section
variable (s : State) (e : Effect) (o : List Output) (rest : List Turn) (b : Block)

@[simp] theorem withEffect_block : (withEffect s e).block = e.block := rfl
@[simp] theorem withEffect_out : (withEffect s e).out = e.out := rfl
@[simp] theorem withEffect_controller : (withEffect s e).controller = s.controller := rfl
@[simp] theorem withEffect_actuator : (withEffect s e).actuator = s.actuator := rfl
@[simp] theorem withEffect_missed : (withEffect s e).missed = s.missed := rfl
@[simp] theorem withEffect_lastInjected : (withEffect s e).lastInjected = s.lastInjected := rfl
@[simp] theorem withEffect_turns : (withEffect s e).turns = s.turns := rfl
@[simp] theorem withEffect_ticks : (withEffect s e).ticks = s.ticks := rfl

@[simp] theorem withOutput_block : (withOutput s o).block = s.block := rfl
@[simp] theorem withOutput_out : (withOutput s o).out = o := rfl
@[simp] theorem withOutput_controller : (withOutput s o).controller = s.controller := rfl
@[simp] theorem withOutput_actuator : (withOutput s o).actuator = s.actuator := rfl
@[simp] theorem withOutput_missed : (withOutput s o).missed = s.missed := rfl
@[simp] theorem withOutput_lastInjected : (withOutput s o).lastInjected = s.lastInjected := rfl
@[simp] theorem withOutput_turns : (withOutput s o).turns = s.turns := rfl
@[simp] theorem withOutput_ticks : (withOutput s o).ticks = s.ticks := rfl

@[simp] theorem takeTurn_block : (takeTurn s rest).block = s.block := rfl
@[simp] theorem takeTurn_controller : (takeTurn s rest).controller = s.controller := rfl
@[simp] theorem takeTurn_actuator : (takeTurn s rest).actuator = s.actuator := rfl
@[simp] theorem takeTurn_missed : (takeTurn s rest).missed = s.missed := rfl
@[simp] theorem takeTurn_lastInjected : (takeTurn s rest).lastInjected = s.lastInjected := rfl
@[simp] theorem takeTurn_turns : (takeTurn s rest).turns = rest := rfl
@[simp] theorem takeTurn_out : (takeTurn s rest).out = s.out := rfl
@[simp] theorem takeTurn_ticks : (takeTurn s rest).ticks = s.ticks + 1 := rfl

@[simp] theorem idleStep_block : (idleStep s).block = s.block := rfl
@[simp] theorem idleStep_controller : (idleStep s).controller = s.controller := rfl
@[simp] theorem idleStep_actuator : (idleStep s).actuator = s.actuator := rfl
@[simp] theorem idleStep_missed : (idleStep s).missed = s.missed := rfl
@[simp] theorem idleStep_lastInjected : (idleStep s).lastInjected = s.lastInjected := rfl
@[simp] theorem idleStep_turns : (idleStep s).turns = s.turns := rfl
@[simp] theorem idleStep_out : (idleStep s).out = [] := rfl
@[simp] theorem idleStep_ticks : (idleStep s).ticks = s.ticks + 1 := rfl

@[simp] theorem noEffect_block : (noEffect b).block = b := rfl
@[simp] theorem noEffect_out : (noEffect b).out = [] := rfl
@[simp] theorem andThen_block (f : Block → Effect) : (andThen e f).block = (f e.block).block := rfl
@[simp] theorem andThen_out (f : Block → Effect) : (andThen e f).out = e.out ++ (f e.block).out := rfl
@[simp] theorem andThen_noEffect (f : Block → Effect) : andThen (noEffect b) f = f b := by
  simp [andThen]

end

section
variable (src : Source) (b : Block) (fs bc : Bool)

@[simp] theorem enterHandler_buf : (enterHandler src b).buf = b.buf := by cases src <;> rfl
@[simp] theorem enterHandler_cur : (enterHandler src b).cur = b.cur := by cases src <;> rfl
@[simp] theorem enterHandler_fstate : (enterHandler src b).fstate = b.fstate := by cases src <;> rfl
@[simp] theorem enterHandler_cnt : (enterHandler src b).cnt = b.cnt := by cases src <;> rfl
@[simp] theorem enterHandler_tx : (enterHandler src b).tx = b.tx := by cases src <;> rfl
@[simp] theorem enterHandler_fsQ : (enterHandler src b).fsQ = b.fsQ := by cases src <;> rfl
@[simp] theorem enterHandler_bcQ : (enterHandler src b).bcQ = b.bcQ := by cases src <;> rfl
@[simp] theorem enterHandler_sr : (enterHandler src b).sr = b.sr := by cases src <;> rfl
@[simp] theorem enterHandler_bitn : (enterHandler src b).bitn = b.bitn := by cases src <;> rfl
@[simp] theorem enterHandler_pending : pending src (enterHandler src b) = false := by cases src <;> rfl

@[simp] theorem raisePending_buf : (raisePending src b).buf = b.buf := by cases src <;> rfl
@[simp] theorem raisePending_cur : (raisePending src b).cur = b.cur := by cases src <;> rfl
@[simp] theorem raisePending_fstate : (raisePending src b).fstate = b.fstate := by cases src <;> rfl
@[simp] theorem raisePending_cnt : (raisePending src b).cnt = b.cnt := by cases src <;> rfl
@[simp] theorem raisePending_tx : (raisePending src b).tx = b.tx := by cases src <;> rfl
@[simp] theorem raisePending_fsQ : (raisePending src b).fsQ = b.fsQ := by cases src <;> rfl
@[simp] theorem raisePending_bcQ : (raisePending src b).bcQ = b.bcQ := by cases src <;> rfl
@[simp] theorem raisePending_sr : (raisePending src b).sr = b.sr := by cases src <;> rfl
@[simp] theorem raisePending_bitn : (raisePending src b).bitn = b.bitn := by cases src <;> rfl
@[simp] theorem raisePending_pending : pending src (raisePending src b) = true := by cases src <;> rfl

@[simp] theorem latch_buf : (latch fs bc b).buf = b.buf := by unfold latch; dsimp only; split <;> split <;> rfl
@[simp] theorem latch_cur : (latch fs bc b).cur = b.cur := by unfold latch; dsimp only; split <;> split <;> rfl
@[simp] theorem latch_fstate : (latch fs bc b).fstate = b.fstate := by unfold latch; dsimp only; split <;> split <;> rfl
@[simp] theorem latch_cnt : (latch fs bc b).cnt = b.cnt := by unfold latch; dsimp only; split <;> split <;> rfl
@[simp] theorem latch_tx : (latch fs bc b).tx = b.tx := by unfold latch; dsimp only; split <;> split <;> rfl
@[simp] theorem latch_fsQ : (latch fs bc b).fsQ = fs := by unfold latch; dsimp only; split <;> split <;> rfl
@[simp] theorem latch_bcQ : (latch fs bc b).bcQ = bc := by unfold latch; dsimp only; split <;> split <;> rfl
@[simp] theorem latch_sr : (latch fs bc b).sr = b.sr := by unfold latch; dsimp only; split <;> split <;> rfl
@[simp] theorem latch_bitn : (latch fs bc b).bitn = b.bitn := by unfold latch; dsimp only; split <;> split <;> rfl

@[simp] theorem recallLevels_buf (l : Levels) : (recallLevels l b).buf = b.buf := rfl
@[simp] theorem recallLevels_cur (l : Levels) : (recallLevels l b).cur = b.cur := rfl
@[simp] theorem recallLevels_fstate (l : Levels) : (recallLevels l b).fstate = b.fstate := rfl
@[simp] theorem recallLevels_cnt (l : Levels) : (recallLevels l b).cnt = b.cnt := rfl
@[simp] theorem recallLevels_tx (l : Levels) : (recallLevels l b).tx = b.tx := rfl
@[simp] theorem recallLevels_fsQ (l : Levels) : (recallLevels l b).fsQ = l.fs := rfl
@[simp] theorem recallLevels_bcQ (l : Levels) : (recallLevels l b).bcQ = l.bc := rfl
@[simp] theorem recallLevels_ipFs (l : Levels) : (recallLevels l b).ipFs = b.ipFs := rfl
@[simp] theorem recallLevels_ipBc (l : Levels) : (recallLevels l b).ipBc = b.ipBc := rfl
@[simp] theorem recallLevels_sr (l : Levels) : (recallLevels l b).sr = b.sr := rfl
@[simp] theorem recallLevels_bitn (l : Levels) : (recallLevels l b).bitn = b.bitn := rfl

end

section
variable (p : Packet) (s : State) (cap : Nat)

@[simp] theorem injectState_block : (injectState cap p s).block = (inject cap p s.block).block := rfl
@[simp] theorem injectState_out : (injectState cap p s).out = (inject cap p s.block).out := rfl
@[simp] theorem injectState_controller : (injectState cap p s).controller = s.controller := rfl
@[simp] theorem injectState_actuator : (injectState cap p s).actuator = s.actuator := rfl
@[simp] theorem injectState_missed : (injectState cap p s).missed = s.missed := rfl
@[simp] theorem injectState_turns : (injectState cap p s).turns = s.turns := rfl
@[simp] theorem injectState_ticks : (injectState cap p s).ticks = s.ticks := rfl
@[simp] theorem injectState_lastInjected :
    (injectState cap p s).lastInjected = rememberInjected p s.block s.lastInjected := rfl

@[simp] theorem resetState_block : (resetState s).block = Block.reset := rfl
@[simp] theorem resetState_actuator : (resetState s).actuator = s.actuator := rfl
@[simp] theorem resetState_missed : (resetState s).missed = none := rfl
@[simp] theorem resetState_turns : (resetState s).turns = s.turns := rfl
@[simp] theorem resetState_ticks : (resetState s).ticks = s.ticks := rfl
@[simp] theorem resetState_out : (resetState s).out = [] := rfl

end

/-! ### The fault state of a missed deadline -/

section
variable (s : State) (k cap : Nat) (src : Source) (os : List Output) (u b : Block)

@[simp] theorem withoutPending_block :
    (withoutPending s).block = { s.block with ipFs := false, ipBc := false } := rfl
@[simp] theorem withoutPending_controller : (withoutPending s).controller = s.controller := rfl
@[simp] theorem withoutPending_actuator : (withoutPending s).actuator = s.actuator := rfl
@[simp] theorem withoutPending_missed : (withoutPending s).missed = s.missed := rfl
@[simp] theorem withoutPending_lastInjected : (withoutPending s).lastInjected = s.lastInjected := rfl
@[simp] theorem withoutPending_turns : (withoutPending s).turns = s.turns := rfl
@[simp] theorem withoutPending_ticks : (withoutPending s).ticks = s.ticks := rfl

@[simp] theorem premiseAgain_block : (premiseAgain s).block = { s.block with ipFs := false, ipBc := false } := rfl
@[simp] theorem premiseAgain_controller : (premiseAgain s).controller = s.controller := rfl
@[simp] theorem premiseAgain_actuator : (premiseAgain s).actuator = s.actuator := rfl
@[simp] theorem premiseAgain_missed : (premiseAgain s).missed = none := rfl
@[simp] theorem premiseAgain_lastInjected : (premiseAgain s).lastInjected = s.lastInjected := rfl
@[simp] theorem premiseAgain_turns : (premiseAgain s).turns = s.turns := rfl
@[simp] theorem premiseAgain_ticks : (premiseAgain s).ticks = s.ticks := rfl

@[simp] theorem corrupt_block :
    (corrupt k cap src os s).block = anyBlock cap (Config.blockInFault k s.ticks) s.block := rfl
@[simp] theorem corrupt_controller : (corrupt k cap src os s).controller = s.controller := rfl
@[simp] theorem corrupt_actuator : (corrupt k cap src os s).actuator = s.actuator := rfl
@[simp] theorem corrupt_missed : (corrupt k cap src os s).missed = some src := rfl
@[simp] theorem corrupt_lastInjected : (corrupt k cap src os s).lastInjected = s.lastInjected := rfl
@[simp] theorem corrupt_turns : (corrupt k cap src os s).turns = s.turns := rfl
@[simp] theorem corrupt_out : (corrupt k cap src os s).out = os := rfl
@[simp] theorem corrupt_ticks : (corrupt k cap src os s).ticks = s.ticks := rfl

@[simp] theorem anyBlock_fsQ : (anyBlock cap u b).fsQ = b.fsQ := rfl
@[simp] theorem anyBlock_bcQ : (anyBlock cap u b).bcQ = b.bcQ := rfl

end

/-! ### Flags and outputs -/

theorem frameCompleteFlag_eq (b : Block) : frameCompleteFlag b = decide (b.fstate = .frameComplete) := by
  unfold frameCompleteFlag; cases b.fstate <;> rfl

theorem selected_eq (b : Block) : selected b = decide (b.fstate = .receiving) := by
  unfold selected; cases b.fstate <;> rfl

theorem wellFormedCount_eq (n : Nat) : wellFormedCount n = decide (n ≠ 0 ∧ n % 4 = 0) := by
  simp only [wellFormedCount, bne, Bool.decide_and, decide_not]
  rfl

section
variable (o p : List Output)

@[simp] theorem emitted_append : emitted (o ++ p) = emitted o ++ emitted p := by
  induction o with
  | nil => rfl
  | cons x o ih => cases x <;> simp [emitted, ih]

@[simp] theorem drivenBits_append : drivenBits (o ++ p) = drivenBits o ++ drivenBits p := by
  induction o with
  | nil => rfl
  | cons x o ih => cases x <;> simp [drivenBits, ih]

@[simp] theorem actuatorCalls_append : actuatorCalls (o ++ p) = actuatorCalls o ++ actuatorCalls p := by
  induction o with
  | nil => rfl
  | cons x o ih => cases x <;> simp [actuatorCalls, ih]

@[simp] theorem labels_append : labels (o ++ p) = labels o ++ labels p := by
  induction o with
  | nil => rfl
  | cons x o ih => cases x <;> simp [labels, ih]

@[simp] theorem actuatorCalls_staleLabel (q : Packet) (l : Option Packet) : actuatorCalls (staleLabel q l) = [] := by
  unfold staleLabel; split <;> rfl

@[simp] theorem emitted_staleLabel (q : Packet) (l : Option Packet) : emitted (staleLabel q l) = [] := by
  unfold staleLabel; split <;> rfl

@[simp] theorem emitted_overrunLabel (cap cur : Nat) : emitted (overrunLabel cap cur) = [] := by
  unfold overrunLabel; split <;> rfl

@[simp] theorem emitted_partialByteLabel (n : BitVec 3) : emitted (partialByteLabel n) = [] := by
  unfold partialByteLabel; split <;> rfl

end

section
variable (c : Chain) (nodes : List State) (bs : List Byte)

@[simp] theorem withNodes_nodes : (withNodes c nodes bs).nodes = nodes := rfl
@[simp] theorem withNodes_received : (withNodes c nodes bs).received = bs := rfl
@[simp] theorem withNodes_receivedBit : (withNodes c nodes bs).receivedBit = [] := rfl
@[simp] theorem withNodes_acts : (withNodes c nodes bs).acts = c.acts := rfl

end

/-- What is done at every node, node by node. -/
theorem atNodesFrom_getElem? {α : Type} (f : Nat → State → α) (k j : Nat) (ns : List State) :
    (atNodesFrom f k ns)[j]? = (ns[j]?).map (f (k + j)) := by
  induction ns generalizing k j with
  | nil => rfl
  | cons n ns ih =>
    cases j with
    | zero => rfl
    | succ j => simpa [atNodesFrom, Nat.add_assoc, Nat.add_comm 1 j] using ih (k + 1) j

@[simp] theorem atNodesFrom_length {α : Type} (f : Nat → State → α) (k : Nat) (ns : List State) :
    (atNodesFrom f k ns).length = ns.length := by
  induction ns generalizing k with
  | nil => rfl
  | cons n ns ih => simp [atNodesFrom, ih]

end Sys2Proof.Machine
end

