-- ==== Sys2Proof/Laws/Ops.lean ====
section
/-! SUPPORT. For each shared operation, one lemma that says what it does to the window and that it keeps the block's invariant. -/

namespace Sys2Proof.Machine

/-! ### The events, case by case -/

section
variable (cap : Nat) (rx : Rx) (b : Block)

theorem byteClk_receiving (h : b.fstate = .receiving) :
    byteClk cap rx b =
      { block := { b with
          ipBc := false
          buf := appendByte cap b (receivedByte b rx)
          cur := nextCursor cap b.cur
          cnt := b.cnt + 1
          tx := relayByte cap (appendByte cap b (receivedByte b rx)) (nextCursor cap b.cur)
          sr := relayByte cap (appendByte cap b (receivedByte b rx)) (nextCursor cap b.cur)
          bitn := 0 }
        out := .emit b.tx :: overrunLabel cap b.cur } := by
  cases rx <;> simp [byteClk, runHandler, leaveHandler, enterHandler, byteClkBody, selected, h, receivedByte, appendByte]

theorem byteClk_ignored (h : b.fstate ≠ .receiving) :
    byteClk cap rx b = { block := { b with ipBc := false }, out := [] } := by
  have : (b.fstate == FrameState.receiving) = false := by simp [h]
  simp [byteClk, runHandler, leaveHandler, enterHandler, byteClkBody, selected, this, noEffect]

theorem fsAssert_eq :
    fsAssert cap b =
      { block := { b with
          ipFs := false, cnt := 0, tx := (window cap b).b0, fstate := .receiving, sr := (window cap b).b0, bitn := 0 }
        out := if b.fstate = .frameComplete then [.label .lostFrame] else [] } := by
  simp only [fsAssert, runHandler, leaveHandler, enterHandler, fsAssertBody, frameCompleteFlag, beq_iff_eq]
  rfl

theorem fsDeassert_wellFormed (h : b.fstate = .receiving) (hc : b.cnt ≠ 0 ∧ b.cnt % 4 = 0) :
    fsDeassert b =
      { block := { b with ipFs := false, fstate := .frameComplete }, out := partialByteLabel b.bitn } := by
  simp [fsDeassert, runHandler, leaveHandler, enterHandler, fsDeassertBody, selected, h, wellFormedCount, hc]

theorem fsDeassert_malformed (h : b.fstate = .receiving) (hc : ¬(b.cnt ≠ 0 ∧ b.cnt % 4 = 0)) :
    fsDeassert b =
      { block := { b with ipFs := false, fstate := .idle }
        out := .label (.malformedFrame b.cnt) :: partialByteLabel b.bitn } := by
  have : wellFormedCount b.cnt = false := by
    simp only [wellFormedCount, Bool.and_eq_false_iff, bne_eq_false_iff_eq, beq_eq_false_iff_ne]
    omega
  simp [fsDeassert, runHandler, leaveHandler, enterHandler, fsDeassertBody, selected, h, this]

theorem fsDeassert_ignored (h : b.fstate ≠ .receiving) :
    fsDeassert b = { block := { b with ipFs := false }, out := [] } := by
  have : (b.fstate == FrameState.receiving) = false := by simp [h]
  simp [fsDeassert, runHandler, leaveHandler, enterHandler, fsDeassertBody, selected, this, noEffect]

theorem inject_accepted (p : Packet) (h : b.fstate = .frameComplete) :
    inject cap p b = { block := { b with buf := writeWindow cap b p, fstate := .idle }, out := [.flag true] } := by
  simp [inject, frameCompleteFlag, h]

theorem inject_rejected (p : Packet) (h : b.fstate ≠ .frameComplete) :
    inject cap p b = { block := b, out := [.label (.missedUpdate b.fstate), .flag false] } := by
  have : (b.fstate == FrameState.frameComplete) = false := by simp [h]
  simp [inject, frameCompleteFlag, this]

end

/-! ### The serial shift register -/

/-- The bits of `sr[6:0] ++ d` (R120). -/
theorem getLsbD_shiftIn (sr : Byte) (d : Bool) (i : Nat) :
    (shiftIn sr d).getLsbD i = if i = 0 then d else (decide (i < 8) && sr.getLsbD (i - 1)) := by
  refine (BitVec.getLsbD_append (x := sr.extractLsb' 0 7) (y := BitVec.ofBool d) (i := i)).trans ?_
  rw [BitVec.getLsbD_extractLsb', Nat.zero_add]
  rcases i with _ | i
  · simp
  · have : (i + 1 < 8) ↔ (i < 7) := by omega
    simp [this]

/-! ### The window -/

/-- Reading a slot behind the cursor, where the two slots differ, is not touched by a write. -/
theorem readSlot_writeSlot_other {cap : Nat} {m : Memory} {a i : Int} (v : Byte) (h : slot cap i ≠ slot cap a) :
    readSlot cap (writeSlot cap m a v) i = readSlot cap m i :=
  memory_read_write_other v h

theorem readSlot_writeSlot_same {cap : Nat} {m : Memory} {a i : Int} (v : Byte) (hw : Memory.wf m = true)
    (h : slot cap i = slot cap a) : readSlot cap (writeSlot cap m a v) i = v := by
  unfold readSlot writeSlot
  rw [h]
  exact memory_read_write_same _ _ hw

/-- The byte one place further back, seen from the new cursor and from the old one. -/
theorem slot_next_behind {cap cur k : Nat} (hc : cur < cap) (hk : k + 1 ≤ cap) :
    slot cap ((nextCursor cap cur : Int) - ((k + 1 : Nat) : Int)) = slot cap ((cur : Int) - (k : Nat)) := by
  rw [slot_behind (nextCursor_lt (by omega) cur) hk, slot_behind hc (by omega), nextCursor_eq hc]
  split <;> split <;> split <;> omega

/-- The append slot is none of the window's slots (R57: "the slot `cur` is not one of the four window slots"). -/
theorem slot_behind_ne_append {cap cur k : Nat} (hc : cur < cap) (h1 : 1 ≤ k) (hk : k < cap) :
    slot cap ((cur : Int) - (k : Nat)) ≠ slot cap (cur : Int) := by
  rw [slot_behind hc (by omega), slot_of_nat hc]
  split <;> omega

section
variable {cap : Nat} {b : Block}

/-- The window after an accepted byte: shifted by one (R58). -/
theorem window_append (h8 : 8 ≤ cap) (hok : blockOk cap b) (v : Byte) (c : Block)
    (hbuf : c.buf = appendByte cap b v) (hcur : c.cur = nextCursor cap b.cur) :
    window cap c = ⟨(window cap b).b1, (window cap b).b2, (window cap b).b3, v⟩ := by
  obtain ⟨hc, hw, -⟩ := hok
  have e (k : Nat) (hk : k + 1 ≤ 4) := slot_next_behind (cap := cap) (k := k) hc (by omega)
  have n (k : Nat) (h1 : 1 ≤ k) (hk : k ≤ 3) := slot_behind_ne_append (cap := cap) (k := k) hc h1 (by omega)
  have e0 := e 0 (by omega)
  have e1 := e 1 (by omega)
  have e2 := e 2 (by omega)
  have e3 := e 3 (by omega)
  have n1 := n 1 (by omega) (by omega)
  have n2 := n 2 (by omega) (by omega)
  have n3 := n 3 (by omega) (by omega)
  norm_num at e0 e1 e2 e3 n1 n2 n3
  simp only [window, hbuf, hcur, appendByte, readSlot, writeSlot, e0, e1, e2, e3, Packet.mk.injEq]
  exact ⟨memory_read_write_other v n3, memory_read_write_other v n2, memory_read_write_other v n1,
    memory_read_write_same _ v hw⟩

/-- The relay read is the oldest byte of the window (R53). -/
theorem relayByte_eq_window (b : Block) : relayByte cap b.buf b.cur = (window cap b).b0 := rfl

/-- The byte armed by an accepted `BYTE_CLK` is the old window's second (R57, R58). -/
theorem relayByte_append (h8 : 8 ≤ cap) (hok : blockOk cap b) (v : Byte) :
    relayByte cap (appendByte cap b v) (nextCursor cap b.cur) = (window cap b).b1 := by
  have := window_append h8 hok v { b with buf := appendByte cap b v, cur := nextCursor cap b.cur } rfl rfl
  exact congrArg Packet.b0 this

/-- The window after an accepted injection is the packet (R58). -/
theorem window_writeWindow (h8 : 8 ≤ cap) (hok : blockOk cap b) (p : Packet) (c : Block)
    (hbuf : c.buf = writeWindow cap b p) (hcur : c.cur = b.cur) : window cap c = p := by
  obtain ⟨hc, hw, -⟩ := hok
  have e1 : (b.cur : Int) - 4 + 1 = b.cur - 3 := by omega
  have e2 : (b.cur : Int) - 3 + 1 = b.cur - 2 := by omega
  have e3 : (b.cur : Int) - 2 + 1 = b.cur - 1 := by omega
  have s1 := slot_behind (cap := cap) (k := 1) hc (by omega)
  have s2 := slot_behind (cap := cap) (k := 2) hc (by omega)
  have s3 := slot_behind (cap := cap) (k := 3) hc (by omega)
  have s4 := slot_behind (cap := cap) (k := 4) hc (by omega)
  norm_num at s1 s2 s3 s4
  have d (i j : Int) (h : slot cap i ≠ slot cap j) (m : Memory) (v : Byte) := readSlot_writeSlot_other (m := m) v h
  have w (m : Memory) (hm : Memory.wf m = true) (i : Int) (v : Byte) := readSlot_writeSlot_same (cap := cap) (i := i) v hm rfl
  have n43 : slot cap ((b.cur : Int) - 4) ≠ slot cap ((b.cur : Int) - 3) := by rw [s4, s3]; split <;> split <;> omega
  have n42 : slot cap ((b.cur : Int) - 4) ≠ slot cap ((b.cur : Int) - 2) := by rw [s4, s2]; split <;> split <;> omega
  have n41 : slot cap ((b.cur : Int) - 4) ≠ slot cap ((b.cur : Int) - 1) := by rw [s4, s1]; split <;> split <;> omega
  have n32 : slot cap ((b.cur : Int) - 3) ≠ slot cap ((b.cur : Int) - 2) := by rw [s3, s2]; split <;> split <;> omega
  have n31 : slot cap ((b.cur : Int) - 3) ≠ slot cap ((b.cur : Int) - 1) := by rw [s3, s1]; split <;> split <;> omega
  have n21 : slot cap ((b.cur : Int) - 2) ≠ slot cap ((b.cur : Int) - 1) := by rw [s2, s1]; split <;> split <;> omega
  have k1 := writeSlot_wf cap ((b.cur : Int) - 4) p.b0 hw
  have k2 := writeSlot_wf cap ((b.cur : Int) - 3) p.b1 k1
  have k3 := writeSlot_wf cap ((b.cur : Int) - 2) p.b2 k2
  simp only [window, hbuf, hcur, writeWindow, packetBytes, memWrite, e1, e2, e3]
  rw [d _ _ n41, d _ _ n42, d _ _ n43, w _ hw, d _ _ n31, d _ _ n32, w _ k1, d _ _ n21, w _ k2, w _ k3]

end

/-! ### The invariant -/

section
variable {cap : Nat} {b : Block}

theorem blockOk_of_eq {c : Block} (h : blockOk cap b) (hb : c.buf = b.buf) (hc : c.cur = b.cur) : blockOk cap c := by
  unfold blockOk
  rw [hb, hc]
  exact h

theorem fsAssertBody_ok (h : blockOk cap b) : blockOk cap (fsAssertBody cap b).block := blockOk_of_eq h rfl rfl

theorem byteClkBody_ok (hc : 0 < cap) (rx : Rx) (h : blockOk cap b) : blockOk cap (byteClkBody cap rx b).block := by
  unfold byteClkBody
  split
  · exact ⟨nextCursor_lt hc _, writeSlot_wf _ _ _ h.2.1, writeSlot_within hc _ _ h.2.2⟩
  · exact h

theorem fsDeassertBody_ok (h : blockOk cap b) : blockOk cap (fsDeassertBody b).block := by
  unfold fsDeassertBody
  split
  · split <;> exact blockOk_of_eq h rfl rfl
  · exact h

theorem enterHandler_ok (src : Source) (h : blockOk cap b) : blockOk cap (enterHandler src b) :=
  blockOk_of_eq h (by simp) (by simp)

theorem latch_ok (fs bc : Bool) (h : blockOk cap b) : blockOk cap (latch fs bc b) :=
  blockOk_of_eq h (by simp) (by simp)

theorem recallLevels_ok (l : Levels) (h : blockOk cap b) : blockOk cap (recallLevels l b) := h

theorem fsAssert_ok (h : blockOk cap b) : blockOk cap (fsAssert cap b).block :=
  fsAssertBody_ok (enterHandler_ok _ h)

theorem byteClk_ok (hc : 0 < cap) (rx : Rx) (h : blockOk cap b) : blockOk cap (byteClk cap rx b).block :=
  byteClkBody_ok hc rx (enterHandler_ok _ h)

theorem fsDeassert_ok (h : blockOk cap b) : blockOk cap (fsDeassert b).block :=
  fsDeassertBody_ok (enterHandler_ok _ h)

theorem inject_ok (hc : 0 < cap) (p : Packet) (h : blockOk cap b) : blockOk cap (inject cap p b).block := by
  unfold inject
  split
  · exact ⟨h.1, memWrite_wf _ _ _ h.2.1, memWrite_within hc _ _ h.2.2⟩
  · exact h

theorem bitTime_ok (d : Bool) (h : blockOk cap b) : blockOk cap (bitTime d b).block := by
  unfold bitTime
  split
  · exact blockOk_of_eq h rfl rfl
  · exact h

theorem sample_ok (hc : 0 < cap) (fs bc : Bool) (rx : Rx) (h : blockOk cap b) :
    blockOk cap (sample cap fs bc rx b).block := by
  have h0 := latch_ok fs bc h
  simp only [sample, andThen_block]
  have h1 : blockOk cap (sampleAssert cap (sampleEdgeWord b fs bc) (latch fs bc b)).block := by
    unfold sampleAssert; split
    · exact fsAssert_ok h0
    · exact h0
  have h2 : ∀ c, blockOk cap c → blockOk cap (sampleByte cap (sampleEdgeWord b fs bc) rx c).block := by
    intro c hk; unfold sampleByte; split
    · exact byteClk_ok hc rx hk
    · exact hk
  have h3 : ∀ c, blockOk cap c → blockOk cap (sampleDeassert (sampleEdgeWord b fs bc) c).block := by
    intro c hk; unfold sampleDeassert; split
    · exact fsDeassert_ok hk
    · exact hk
  exact h3 _ (h2 _ h1)

/-- Every operation of the block keeps the block's invariant. -/
theorem blockEffect_ok (hc : 0 < cap) (op : BlockOp) (h : blockOk cap b) : blockOk cap (blockEffect cap op b).block := by
  cases op with
  | reset => exact ⟨hc, rfl, rfl⟩
  | fsAssert => exact fsAssert_ok h
  | byteClk rx => exact byteClk_ok hc rx h
  | fsDeassert => exact fsDeassert_ok h
  | sample fs bc rx => exact sample_ok hc fs bc rx h
  | edge e rx => exact sample_ok hc _ _ rx (recallLevels_ok _ h)
  | bit d => exact bitTime_ok d h
  | poll => exact h
  | extract => exact h
  | inject p => exact inject_ok hc p h
  | hostRsvd => exact h

end

end Sys2Proof.Machine
end

