-- ==== Sys2Proof/Laws/PerInstr.lean ====
section
/-! SUPPORT. The shape of an encoding: each operation's word has the number of bytes that its port's words have. -/

namespace Sys2Proof.Laws.EncodeShape

/-- The number of bytes of a word at a port (30_encoding.md R80; log 3). -/
def portBytes : Port → Nat
  | .sys => 1
  | .levels => 2
  | .edge => 2
  | .event => 2
  | .serial => 1
  | .host => 5
  | .encCmd => 4
  | .decCmd => 4
  | .encSensor => 4
  | .decSensor => 4
  | .service => 1

/-- The word of `i` has its port's number of bytes. -/
def Statement (i : Instr) : Prop := (encode i).2.length = portBytes (encode i).1

theorem reset : Statement .reset := rfl
theorem sample (fs bc : Bool) (rx : Rx) (old : Option Levels := none) : Statement (.sample fs bc rx old) := by
  cases old <;> cases rx <;> rfl
theorem fsAssert (clock : Option ClockLevels := none) : Statement (.fsAssert clock) := by cases clock <;> rfl
theorem byteClk (rx : Rx) (select : Option Bool := none) : Statement (.byteClk rx select) := by
  cases select <;> cases rx <;> rfl
theorem fsDeassert (clock : Option ClockLevels := none) : Statement (.fsDeassert clock) := by cases clock <;> rfl
theorem bit (d : Bool) : Statement (.bit d) := rfl
theorem poll : Statement .poll := rfl
theorem extract : Statement .extract := rfl
theorem inject (p : Packet) : Statement (.inject p) := rfl
theorem hostRsvd : Statement .hostRsvd := rfl
theorem encCmd (cmd red green blue : Nat) : Statement (.encCmd cmd red green blue) := rfl
theorem decCmd (p : Packet) : Statement (.decCmd p) := rfl
theorem encSensor (weight : Int) : Statement (.encSensor weight) := rfl
theorem decSensor (p : Packet) : Statement (.decSensor p) := rfl
theorem service (w : Byte) : Statement (.service w) := rfl

end Sys2Proof.Laws.EncodeShape
end

