-- ==== Sys2Proof/Laws/Step.lean ====
section
/-! SUPPORT. What an operation and a step can do, said once: the block is left alone, goes through one operation of the block, or is
unknown while a missed deadline's fault stands; and all that a guarded step can do. -/

namespace Sys2Proof.Machine

/-- What a change of the block can be. -/
def OneBlockOp (b c : Block) : Prop := c = b ∨ ∃ op : BlockOp, c = (blockEffect Config.CAP op b).block

/-- A step of the detector that goes on is `SAMPLE` on the block, and no edge of it found its pending bit set. -/
theorem detect_next {cap : Nat} {fs bc : Bool} {rx : Rx} {b : Block} {s t : State} (h : detect cap fs bc rx b s = .next t) :
    missedDeadline b fs bc = none ∧ t = withEffect s (sample cap fs bc rx b) := by
  unfold detect at h
  split at h
  · cases h
  · cases h; exact ⟨by assumption, rfl⟩

/-- The four bus operations, each in its two ways: the block goes through one operation, the rest of the node stays. -/
theorem detectWord_block {e : BitVec 4} {rx : Rx} {s t : State} (h : detectWord Config.CAP e rx s = .next t) :
    OneBlockOp s.block t.block := by
  obtain ⟨-, rfl⟩ := detect_next h
  exact .inr ⟨.edge e rx, rfl⟩

theorem exec_block {i : Instr} {s t : State} (h : exec i s = .next t) : OneBlockOp s.block t.block := by
  cases i with
  | reset => cases h; exact .inr ⟨.reset, rfl⟩
  | sample fs bc rx old =>
    cases old with
    | none => obtain ⟨-, rfl⟩ := detect_next h; exact .inr ⟨.sample fs bc rx, rfl⟩
    | some l => exact detectWord_block h
  | fsAssert c =>
    cases c with
    | none => cases h; exact .inr ⟨.fsAssert, rfl⟩
    | some c => exact detectWord_block h
  | byteClk rx c =>
    cases c with
    | none => cases h; exact .inr ⟨.byteClk rx, rfl⟩
    | some c => exact detectWord_block h
  | fsDeassert c =>
    cases c with
    | none => cases h; exact .inr ⟨.fsDeassert, rfl⟩
    | some c => exact detectWord_block h
  | bit d => cases h; exact .inr ⟨.bit d, rfl⟩
  | poll => cases h; exact .inl rfl
  | extract => cases h; exact .inl rfl
  | inject p => cases h; exact .inr ⟨.inject p, rfl⟩
  | hostRsvd => cases h; exact .inl rfl
  | encCmd cmd red green blue =>
    simp only [exec, execEncCmd] at h
    split at h
    · cases h; exact .inl rfl
    · cases h
  | decCmd p => cases h; exact .inl rfl
  | encSensor w =>
    simp only [exec, execEncSensor] at h
    split at h
    · cases h; exact .inl rfl
    · cases h
  | decSensor p => cases h; exact .inl rfl
  | service w =>
    cases h
    simp only [service]
    split
    · exact .inr ⟨.inject (encodeSensor w), rfl⟩
    · exact .inl rfl

theorem controllerStep_block (r : Byte) (s : State) : OneBlockOp s.block (controllerStep Config.CAP r s).block := by
  unfold controllerStep
  split
  · exact .inl rfl
  · unfold decodeAndApply; dsimp only; split <;> exact .inl rfl
  · exact .inr ⟨.inject (encodeSensor r), rfl⟩

/-! ### The fault state of a missed deadline -/

/-- With no handler waiting to start, no edge misses the deadline. -/
theorem missedDeadline_none {b : Block} (h : handlersMeetDeadline b) (fs bc : Bool) : missedDeadline b fs bc = none := by
  simp [missedDeadline, pending, h.1, h.2]

/-- With no handler waiting to start, no operation ends in the fault (R265). -/
theorem exec_no_fault {s : State} (h : handlersMeetDeadline s.block) (i : Instr) (r : Fault) : exec i s ≠ .fault r := by
  have hd : ∀ cap fs bc rx b, handlersMeetDeadline b → detect cap fs bc rx b s ≠ .fault r := by
    intro cap fs bc rx b hb
    simp [detect, missedDeadline_none hb]
  cases i with
  | sample fs bc rx old => cases old <;> exact hd _ _ _ _ _ h
  | fsAssert c => cases c <;> first | exact hd _ _ _ _ _ h | exact nofun
  | byteClk rx c => cases c <;> first | exact hd _ _ _ _ _ h | exact nofun
  | fsDeassert c => cases c <;> first | exact hd _ _ _ _ _ h | exact nofun
  | encCmd cmd red green blue => simp only [exec, execEncCmd]; split <;> exact nofun
  | encSensor w => simp only [exec, execEncSensor]; split <;> exact nofun
  | _ => exact nofun

/-- A step that stays in the fault state: the step itself, on a block with no handler waiting, then nothing known of the block. -/
theorem inFault_next {k cap : Nat} {src : Source} {put : List Output → List Output}
    {f : State → Host.Outcome State Fault Refusal} {s t : State} (h : inFault k cap src put f s = .next t) :
    ∃ u, f (withoutPending s) = .next u ∧ t = corrupt k cap src (put u.out) u := by
  unfold inFault at h
  split at h
  · cases h; exact ⟨_, by assumption, rfl⟩
  · cases h
  · cases h

/-- All that a guarded step can do when it goes on: the step itself with no fault standing; the step that ends a fault; or the fault
state, the deadline missed now or before. -/
theorem guardStep_next {k cap : Nat} {ends handler : Bool} {f : State → Host.Outcome State Fault Refusal} {s t : State}
    (h : guardStep k cap ends handler f s = .next t) :
    (s.missed = none ∧ f s = .next t) ∨
    ((∃ src, s.missed = some src) ∧ ends = true ∧ f (premiseAgain s) = .next t) ∨
    (∃ src os u, f (withoutPending s) = .next u ∧ t = corrupt k cap src os u ∧
      ((s.missed = none ∧ f s = .fault (.deadlineMiss src) ∧ os = missOutputs k src s) ∨
        (s.missed = some src ∧ ends = false ∧ os = if handler then Config.outputsInFault k s.ticks else u.out))) := by
  unfold guardStep at h
  split at h
  · next hm =>
    split at h
    · next hf => exact .inl ⟨hm, hf.trans h⟩
    · next src hf =>
      obtain ⟨u, hu, rfl⟩ := inFault_next h
      exact .inr (.inr ⟨src, _, u, hu, rfl, .inl ⟨hm, hf, rfl⟩⟩)
    · cases h
  · next src hm =>
    split at h
    · next he => exact .inr (.inl ⟨⟨src, hm⟩, he, h⟩)
    · next he =>
      obtain ⟨u, hu, rfl⟩ := inFault_next h
      exact .inr (.inr ⟨src, _, u, hu, rfl, .inr ⟨hm, by simpa using he, rfl⟩⟩)

/-- A guarded step after which no fault stands is the step itself, or the step that ends a fault. -/
theorem guardStep_sound {k cap : Nat} {ends handler : Bool} {f : State → Host.Outcome State Fault Refusal} {s t : State}
    (h : guardStep k cap ends handler f s = .next t) (ht : t.missed = none) :
    ∃ u, (u = s ∨ u = premiseAgain s) ∧ f u = .next t := by
  obtain ⟨-, h⟩ | ⟨-, -, h⟩ | ⟨src, os, u, -, rfl, -⟩ := guardStep_next h
  · exact ⟨s, .inl rfl, h⟩
  · exact ⟨_, .inr rfl, h⟩
  · simp at ht

/-- With no fault standing, a step that goes on is the step itself. -/
theorem guardStep_of_next {k cap : Nat} {ends handler : Bool} {f : State → Host.Outcome State Fault Refusal} {s t : State}
    (hm : s.missed = none) (h : f s = .next t) : guardStep k cap ends handler f s = .next t := by
  simp only [guardStep, hm, h]

/-- Nor does a guarded step end in the fault, when the step does not with no handler waiting. -/
theorem guardStep_no_fault {k cap : Nat} {ends handler : Bool} {f : State → Host.Outcome State Fault Refusal} {s : State}
    (hf : ∀ u r, handlersMeetDeadline u.block → f u ≠ .fault r) (r : Fault) : guardStep k cap ends handler f s ≠ .fault r := by
  have hi : ∀ src put, inFault k cap src put f s ≠ .fault r := by
    intro src put
    unfold inFault
    split
    · exact nofun
    · next h => exact absurd h (hf _ _ ⟨rfl, rfl⟩)
    · exact nofun
  unfold guardStep
  split
  · split
    · exact nofun
    · exact hi _ _
    · exact nofun
  · split
    · exact hf _ _ ⟨rfl, rfl⟩
    · exact hi _ _

/-- Where the block a step starts from may come from: with the pending bits as they are, or cleared at the end of a fault. -/
theorem guardStep_block {k cap : Nat} {ends handler : Bool} {f : State → Host.Outcome State Fault Refusal} {s t : State}
    (hf : ∀ u v, f u = .next v → OneBlockOp u.block v.block) (h : guardStep k cap ends handler f s = .next t) :
    OneBlockOp s.block t.block ∨ OneBlockOp (withoutPending s).block t.block ∨
      ∃ u b, t.block = anyBlock cap u b := by
  obtain ⟨-, h⟩ | ⟨-, -, h⟩ | ⟨src, os, u, -, rfl, -⟩ := guardStep_next h
  · exact .inl (hf _ _ h)
  · exact .inr (.inl (hf (premiseAgain s) t h))
  · exact .inr (.inr ⟨_, _, rfl⟩)

theorem runTurn_block {tn : Turn} {s t : State} (h : runTurn tn s = .next t) :
    OneBlockOp s.block t.block ∨ OneBlockOp (withoutPending s).block t.block ∨
      ∃ u b, t.block = anyBlock Config.CAP u b := by
  unfold runTurn at h
  split at h
  · exact .inl (exec_block h)
  · unfold runAct at h
    split at h
    · split at h
      · exact guardStep_block (fun _ _ => exec_block) h
      · cases h
    · exact guardStep_block (fun _ _ => exec_block) h
    · exact guardStep_block (fun u v hv => by cases hv; exact controllerStep_block _ _) h
    · cases h; exact .inr (.inr ⟨_, _, rfl⟩)

/-- A step leaves the block alone or takes it through one operation, from its pending bits or with none, or leaves it unknown. -/
theorem step_block {s t : State} (h : step s = .next t) :
    OneBlockOp s.block t.block ∨ OneBlockOp (withoutPending s).block t.block ∨
      ∃ u b, t.block = anyBlock Config.CAP u b := by
  unfold step nextStep at h
  split at h
  · cases h; exact .inl (.inl rfl)
  · next rest _ => exact runTurn_block (s := takeTurn s rest) h

/-- An unknown block is a block of its capacity. -/
theorem anyBlock_ok {cap : Nat} (hc : 0 < cap) (u b : Block) : blockOk cap (anyBlock cap u b) :=
  ⟨Nat.mod_lt _ hc, memWrite_wf cap 0 _ rfl, memWrite_within hc 0 _ rfl⟩

/-- No event of the common lines is refused, and none ends in the fault: a node of a chain goes on. -/
theorem nodeOp_event {k cap : Nat} {i : Instr} (hi : handlerOp i = true) (s : State) : ∃ t, nodeOp k cap i s = .next t := by
  have hd : ∀ fs bc rx b u, handlersMeetDeadline b → ∃ t, detect cap fs bc rx b u = .next t := by
    intro fs bc rx b u hb
    exact ⟨withEffect u (sample cap fs bc rx b), by simp only [detect, missedDeadline_none hb]⟩
  have hf : ∀ u : State, handlersMeetDeadline u.block → ∃ t, execAtCapacity cap i u = .next t := by
    intro u hu
    cases i with
    | sample fs bc rx old => cases old <;> exact hd _ _ _ _ _ hu
    | fsAssert c => cases c <;> first | exact hd _ _ _ _ _ hu | exact ⟨_, rfl⟩
    | byteClk rx c => cases c <;> first | exact hd _ _ _ _ _ hu | exact ⟨_, rfl⟩
    | fsDeassert c => cases c <;> first | exact hd _ _ _ _ _ hu | exact ⟨_, rfl⟩
    | bit d => exact ⟨_, rfl⟩
    | _ => cases hi
  have hr : ∀ r, execAtCapacity cap i s ≠ .refused r := by
    have hdr : ∀ fs bc rx b u r, detect cap fs bc rx b u ≠ .refused r := by
      intro fs bc rx b u r; unfold detect; split <;> exact nofun
    intro r
    cases i with
    | sample fs bc rx old => cases old <;> exact hdr _ _ _ _ _ _
    | fsAssert c => cases c <;> first | exact hdr _ _ _ _ _ _ | exact nofun
    | byteClk rx c => cases c <;> first | exact hdr _ _ _ _ _ _ | exact nofun
    | fsDeassert c => cases c <;> first | exact hdr _ _ _ _ _ _ | exact nofun
    | bit d => exact nofun
    | _ => cases hi
  obtain ⟨t, ht⟩ := hf (withoutPending s) ⟨rfl, rfl⟩
  obtain ⟨v, hv⟩ := hf (premiseAgain s) ⟨rfl, rfl⟩
  unfold nodeOp guardOp guardStep inFault
  split
  · split
    · exact ⟨_, rfl⟩
    · rw [ht]; exact ⟨_, rfl⟩
    · next h => exact absurd h (hr _)
  · split
    · exact ⟨v, hv⟩
    · rw [ht]; exact ⟨_, rfl⟩

/-- With no fault standing, an event by itself does at a node of a chain what it does at a node alone. -/
theorem afterEvent_of_next {k cap : Nat} {i : Instr} {s t : State} (hm : s.missed = none)
    (h : execAtCapacity cap i s = .next t) : afterEvent k cap i s = t := by
  simp only [afterEvent, nodeOp, guardOp, guardStep_of_next hm h]

/-- `FS_ASSERT` at a node of a chain ends a fault. -/
theorem afterEvent_fsAssert (k cap : Nat) (s : State) :
    afterEvent k cap .fsAssert s =
      match s.missed with
      | none => withEffect s (fsAssert cap s.block)
      | some _ => withEffect (premiseAgain s) (fsAssert cap (premiseAgain s).block) := by
  unfold afterEvent nodeOp guardOp guardStep
  cases s.missed <;> rfl

/-- The byte of an edge word that selects no `BYTE_CLK` is not looked at. -/
theorem detectWord_byte_unread {cap : Nat} {e : BitVec 4} (h : selectsByteClk e = false) (rx rx' : Rx) (s : State) :
    detectWord cap e rx s = detectWord cap e rx' s := by
  have he : ∀ b : Block, sampleEdgeWord (recallLevels ⟨e.getLsbD 3, e.getLsbD 1⟩ b) (e.getLsbD 2) (e.getLsbD 0) = e := fun _ =>
    (decodeEdge_word e).2.2.2
  have hb : sampleByte cap e rx = sampleByte cap e rx' := by funext b; simp only [sampleByte, h, Bool.false_eq_true, if_false]
  simp only [detectWord, detect, sample, he, hb]

/-- Every edge word, whatever operation it decodes to, is the detector's step on it (R86, R111). -/
theorem exec_decodeEdge (e : BitVec 4) (rx : Rx) (s : State) : exec (decodeEdge e rx) s = detectWord Config.CAP e rx s := by
  obtain ⟨ha, hd, hb, hs⟩ := decodeEdge_word e
  unfold decodeEdge
  split
  · next h1 h2 h3 =>
    show detectWord Config.CAP (assertWord (clockLevelsOf e)) .shifted s = _
    rw [ha h1 h2]
    exact detectWord_byte_unread h2 _ _ s
  · next h1 h2 h3 =>
    show detectWord Config.CAP (clockWord (e.getLsbD 2)) rx s = _
    rw [hb h1 h3 h2]
  · next h1 h2 h3 =>
    show detectWord Config.CAP (deassertWord (clockLevelsOf e)) .shifted s = _
    rw [hd h3 h2]
    exact detectWord_byte_unread h2 _ _ s
  · show detectWord Config.CAP (edgeWord (e.getLsbD 3) (e.getLsbD 2) (e.getLsbD 1) (e.getLsbD 0)) rx s = _
    rw [hs]

/-- An operation at the capacity of the node studied by itself. -/
theorem execAtCapacity_eq (i : Instr) (s : State) : execAtCapacity Config.CAP i s = exec i s := by cases i <;> rfl

/-- Where the next step takes its turn, as equations. -/
theorem step_idle {s : State} (h : s.turns = []) : step s = .next (idleStep s) := by
  simp only [step, nextStep, h]

theorem step_turn {s : State} {tn : Turn} {rest : List Turn} (h : s.turns = tn :: rest) :
    step s = runTurn tn (takeTurn s rest) := by
  simp only [step, nextStep, h]

/-- A controller's turn with no fault standing. -/
theorem step_controller {s : State} {r : Byte} {rest : List Turn} (h : s.turns = ⟨false, .controller r⟩ :: rest)
    (hm : s.missed = none) : step s = .next (controllerStep Config.CAP r (takeTurn s rest)) := by
  rw [step_turn h]
  exact guardStep_of_next (f := fun u => .next (controllerStep Config.CAP r u)) (s := takeTurn s rest) hm rfl

/-- An operation with no fault standing, when it does not miss the deadline. -/
theorem runOp_of_no_fault {i : Instr} {s : State} (hm : s.missed = none) (hf : ∀ r, exec i s ≠ .fault r) :
    runOp i s = exec i s := by
  unfold runOp guardOp guardStep
  rw [hm]
  dsimp only
  split
  · exact (by assumption : exec i s = _).symm
  · exact absurd ‹_› (hf _)
  · exact (by assumption : exec i s = _).symm

end Sys2Proof.Machine
end

