-- ==== Sys2Proof/Machine/Trace.lean ====
section
/-! DEFINITION. The written notation for traces (30_encoding.md R95): one line for each step, from the operation, the state before
it and the state after it. -/

namespace Sys2Proof.Machine

/-- One hexadecimal digit, upper case. -/
def hexDigit (n : Nat) : String :=
  match n with
  | 0 => "0" | 1 => "1" | 2 => "2" | 3 => "3" | 4 => "4" | 5 => "5" | 6 => "6" | 7 => "7"
  | 8 => "8" | 9 => "9" | 10 => "A" | 11 => "B" | 12 => "C" | 13 => "D" | 14 => "E" | _ => "F"

/-- "two hex digits without `0x`" (R95). -/
def hexByte (b : Byte) : String := hexDigit (b.toNat / 16) ++ hexDigit (b.toNat % 16)

/-- Four bytes, a space between them. -/
def hexPacket (p : Packet) : String :=
  hexByte p.b0 ++ " " ++ hexByte p.b1 ++ " " ++ hexByte p.b2 ++ " " ++ hexByte p.b3

/-- A level, a flag. -/
def bitText (b : Bool) : String := if b then "1" else "0"

/-- What `B xx > yy` shows after `>`: the byte emitted, `--` when the edge is ignored. -/
def emittedText : List Output → String
  | .emit b :: _ => hexByte b
  | _ => "--"

/-- What `FS- >` shows: the verdict, `--` when the deassertion is ignored. -/
def verdictText (before after : Block) : String :=
  match before.fstate, after.fstate with
  | .receiving, .frameComplete => "ok"
  | .receiving, _ => "malformed"
  | _, _ => "--"

/-- The flag and the window of an `EXT` line. -/
def extractText : List Output → String
  | [.flag f, .rdata w] => bitText f ++ " " ++ hexPacket (packetOfWord w)
  | _ => "--"

/-- The answer of an `INJ` or a `POLL` line: the last flag put out. -/
def flagText : List Output → String
  | [.flag f] => bitText f
  | [_, .flag f] => bitText f
  | _ => "--"

/-- The `RGB` line of a `set_rgb` (R95), decimal. -/
def rgbLine (c : Rgb) : String :=
  "RGB " ++ toString c.red.toNat ++ " " ++ toString c.green.toNat ++ " " ++ toString c.blue.toNat

/-- The line of a step (R95); none for the operations that the notation has no line for. -/
def traceLine (i : Instr) (before after : State) : Option String :=
  match i with
  | .reset => some "RST"
  | .sample fs bc rx _ =>
    some ("SMP " ++ bitText fs ++ " " ++ bitText bc ++ " " ++ hexByte (receivedByte before.block rx))
  | .fsAssert _ => some "FS+"
  | .byteClk rx _ => some ("B " ++ hexByte (receivedByte before.block rx) ++ " > " ++ emittedText after.out)
  | .fsDeassert _ => some ("FS- > " ++ verdictText before.block after.block)
  | .bit _ => none
  | .poll => some ("POLL > " ++ flagText after.out)
  | .extract => some ("EXT > " ++ extractText after.out)
  | .inject p => some ("INJ " ++ hexPacket p ++ " > " ++ flagText after.out)
  | .hostRsvd => none
  | .encCmd _ _ _ _ => none
  | .decCmd _ => none
  | .encSensor _ => none
  | .decSensor _ => none
  | .service w => some ("SVC " ++ toString w.toInt)

end Sys2Proof.Machine
end

