-- ==== Sys2Proof/Tests/Slice0.lean ====
section
/-! SUPPORT. The model's own tests: the ill-formed terms that WellFormed refuses, words written out from the spec's encodings, the
vectors of 95_test_vectors.md (their names B9, H4, .. stand in the theorems' names), and a witness for the hypotheses of each
statement. `CAP` has no value here, so a vector is run on the operation at the vector's own capacity. -/

namespace Sys2Proof.Tests

open Sys2Proof Sys2Proof.Machine

/-! ### States -/

/-- A node whose block is `b`. -/
def node (b : Block) : State := { State.reset with block := b }

/-- A scan has begun, nothing has come. -/
def opened : Block := { Block.reset with fstate := .receiving, fsQ := true }

/-- After vector B5: `SCAN 3F F0 00 00` from reset at `CAP` = 8. -/
def afterB5 : Block :=
  { Block.reset with
    buf := [(0, 0x3F), (1, 0xF0)], cur := 4, fstate := .frameComplete, cnt := 4, tx := 0x3F, sr := 0x3F }

/-- A well-formed scan is pending, in any capacity. -/
def pendingScan : Block := { Block.reset with fstate := .frameComplete, cnt := 4 }

/-- After vector B9: the window lies across the ring's end. -/
def afterB9 : Block :=
  { Block.reset with
    buf := [(0, 0xB2), (1, 0xB3), (2, 0xA2), (3, 0xA3), (4, 0xA4), (5, 0xA5), (6, 0xB0), (7, 0xB1)]
    cur := 2, fstate := .frameComplete, cnt := 4, tx := 0xB0, sr := 0xB0 }

/-- A node that has one turn to come. -/
def nodeWithTurn (b : Block) (t : Turn) : State := { node b with turns := [t] }

/-- A node whose controller takes the next turn in control state `c`. -/
def nodeInCtl (b : Block) (c : Ctl) : State :=
  { node b with
    controller := { Controller.reset with ctl := c }, turns := [{ reset := false, act := .controller 0x05 }] }

/-! ### Well-formedness -/

theorem test_wellFormed_cmd : (Instr.encCmd 4 0 0 0).wellFormed = false ∧ (Instr.encCmd 3 0 0 0).wellFormed = true := by decide
theorem test_wellFormed_red : (Instr.encCmd 0 1024 0 0).wellFormed = false ∧ (Instr.encCmd 0 1023 0 0).wellFormed = true := by
  decide
theorem test_wellFormed_green : (Instr.encCmd 0 0 1024 0).wellFormed = false ∧ (Instr.encCmd 0 0 1023 0).wellFormed = true := by
  decide
theorem test_wellFormed_blue : (Instr.encCmd 0 0 0 1024).wellFormed = false ∧ (Instr.encCmd 0 0 0 1023).wellFormed = true := by
  decide
theorem test_wellFormed_weight_high :
    (Instr.encSensor 128).wellFormed = false ∧ (Instr.encSensor 127).wellFormed = true := by decide
theorem test_wellFormed_weight_low :
    (Instr.encSensor (-129)).wellFormed = false ∧ (Instr.encSensor (-128)).wellFormed = true := by decide

theorem test_wellFormed_edge_word :
    (Instr.sample true false .shifted (some ⟨false, false⟩)).wellFormed = false ∧
    (Instr.sample true true .shifted (some ⟨true, false⟩)).wellFormed = false ∧
    (Instr.sample true true .shifted (some ⟨false, false⟩)).wellFormed = true ∧
    (Instr.sample true true .shifted (some ⟨true, true⟩)).wellFormed = true := by decide

/-! ### Words written out from the encodings (R81, R82, R86, R87, the table at the head of 95_test_vectors.md) -/

theorem test_decode_reset : decode .sys [0b00000001] = .ok .reset ∧ decode .sys [0] = .reject .resetNotAsserted := by decide
theorem test_decode_event_fsAssert :
    decode .event [0b00000100, 0] = .ok .fsAssert ∧ decode .event [0b00000110, 0] = .reject .noSuchEvent := by decide
theorem test_decode_event_byteClk :
    decode .event [0b00000001, 0x3F] = .ok (.byteClk (.byte 0x3F)) ∧
    decode .event [0b00010001, 0] = .ok (.byteClk .shifted) := by decide
theorem test_decode_event_fsDeassert : decode .event [0b00001000, 0] = .ok .fsDeassert := by decide
theorem test_decode_fsAssert :
    decode .edge [0b00000100, 0] = .ok (.fsAssert (some .inactive)) ∧
    decode .edge [0b00000110, 0] = .ok (.fsAssert (some .inactiveEdge)) ∧
    decode .edge [0b00000111, 0] = .ok (.fsAssert (some .active)) := by decide
theorem test_decode_byteClk :
    decode .edge [0b00001101, 0x3F] = .ok (.byteClk (.byte 0x3F) (some true)) ∧
    decode .edge [0b00010001, 0] = .ok (.byteClk .shifted (some false)) := by decide
theorem test_decode_fsDeassert :
    decode .edge [0b00001000, 0] = .ok (.fsDeassert (some .inactive)) ∧
    decode .edge [0b00001011, 0] = .ok (.fsDeassert (some .active)) := by decide
theorem test_decode_sample_two_events :
    decode .edge [0b00001001, 0xA4] = .ok (.sample false true (.byte 0xA4) (some ⟨true, false⟩)) ∧
    decode .edge [0b00000101, 0xA1] = .ok (.sample true true (.byte 0xA1) (some ⟨false, false⟩)) := by decide
theorem test_decode_sample_no_event :
    decode .edge [0b00001110, 0] = .ok (.sample true false (.byte 0) (some ⟨true, true⟩)) ∧
    decode .edge [0b00001111, 0] = .ok (.sample true true (.byte 0) (some ⟨true, true⟩)) := by decide
theorem test_decode_levels :
    decode .levels [0b00000100, 0] = .ok (.sample true false (.byte 0)) ∧
    decode .levels [0b00001100, 0] = .reject .noSuchBit := by decide
theorem test_decode_bit : decode .serial [1] = .ok (.bit true) ∧ decode .serial [0] = .ok (.bit false) := by decide
theorem test_decode_host :
    decode .host [0b00, 0, 0, 0, 0] = .ok .poll ∧ decode .host [0b01, 0, 0, 0, 0] = .ok .extract ∧
    decode .host [0b11, 0, 0, 0, 0] = .ok .hostRsvd ∧ decode .host [0b100, 0, 0, 0, 0] = .reject .noSuchBit := by decide
theorem test_decode_inject : decode .host [0b10, 0xC0, 0xC1, 0xC2, 0xC3] = .ok (.inject ⟨0xC0, 0xC1, 0xC2, 0xC3⟩) := by decide
theorem test_decode_decCmd : decode .decCmd [0xDE, 0xAD, 0xBE, 0xEF] = .ok (.decCmd ⟨0xDE, 0xAD, 0xBE, 0xEF⟩) := by decide
theorem test_decode_encCmd_C14 : decode .encCmd [0xDE, 0xAD, 0xBE, 0xEF] = .ok (.encCmd 3 490 879 751) := by decide
theorem test_decode_encSensor_W10 :
    decode .encSensor [0x9C, 0, 0, 0] = .ok (.encSensor (-100)) ∧
    decode .encSensor [0x9C, 1, 0, 0] = .reject .sensorPadding := by decide
theorem test_decode_decSensor : decode .decSensor [0x12, 0x34, 0x56, 0x78] = .ok (.decSensor ⟨0x12, 0x34, 0x56, 0x78⟩) := by
  decide
theorem test_decode_service : decode .service [0xFB] = .ok (.service 0xFB) := by decide
theorem test_decode_wrong_length : decode .host [0] = .reject .wrongLength ∧ decode .sys [] = .reject .wrongLength := by decide
theorem test_encode_byteClk : encode (.byteClk (.byte 0x3F) (some true)) = (.edge, [0b00001101, 0x3F]) := by decide

/-! ### Vectors of 95_test_vectors.md, one step each -/

theorem test_reset_R2 : ∃ t, exec .reset (node { opened with cnt := 2, cur := 2 }) = .next t ∧ t.block = Block.reset ∧ t.out = [] :=
  ⟨_, rfl, by decide, by decide⟩

theorem test_sample_E4_first :
    sample 8 true true (.byte 0xA1) Block.reset =
      { block := { Block.reset with
          buf := [(0, 0xA1)], cur := 1, cnt := 1, fstate := .receiving, fsQ := true, bcQ := true }
        out := [.emit 0x00] } := by decide

theorem test_sample_E4_last :
    sample 8 false true (.byte 0xA4)
        { opened with buf := [(0, 0xA1), (1, 0xA2), (2, 0xA3)], cur := 3, cnt := 3 } =
      { block := { Block.reset with
          buf := [(0, 0xA1), (1, 0xA2), (2, 0xA3), (3, 0xA4)], cur := 4, cnt := 4, fstate := .frameComplete, tx := 0xA1
          sr := 0xA1, bcQ := true }
        out := [.emit 0x00] } := by decide

/-- Vector E1: the four edge words, from reset. -/
theorem test_edge_words_E1 :
    ∃ t u v w, detectWord 8 0b0100#4 (.byte 0x00) (node Block.reset) = .next t ∧
      detectWord 8 0b1101#4 (.byte 0x3F) t = .next u ∧ u.out = [.emit 0x00] ∧
      detectWord 8 0b1110#4 (.byte 0x00) u = .next v ∧ v.out = [] ∧
      detectWord 8 0b1000#4 (.byte 0x00) v = .next w ∧ w.out = [.label (.malformedFrame 1)] ∧
      w.block = { Block.reset with buf := [(0, 0x3F)], cur := 1, cnt := 1 } :=
  ⟨_, _, _, _, rfl, rfl, by decide, rfl, by decide, rfl, by decide, by decide⟩

theorem test_fsAssert_B13 :
    fsAssert 8 afterB5 =
      { block := { afterB5 with fstate := .receiving, cnt := 0 }, out := [.label .lostFrame] } := by decide

theorem test_fsAssert_B11 :
    (fsAssert 8 { afterB9 with
      buf := [(0, 0xC2), (1, 0xC3), (2, 0xA2), (3, 0xA3), (4, 0xA4), (5, 0xA5), (6, 0xC0), (7, 0xC1)]
      fstate := .idle }).block.tx = 0xC0 := by decide

theorem test_byteClk_B9_wrap :
    byteClk 8 (.byte 0xB1)
        { opened with
          buf := [(0, 0xA0), (1, 0xA1), (2, 0xA2), (3, 0xA3), (4, 0xA4), (5, 0xA5), (6, 0xB0)], cur := 7, cnt := 1
          tx := 0xA3 } =
      { block := { opened with
          buf := [(0, 0xA0), (1, 0xA1), (2, 0xA2), (3, 0xA3), (4, 0xA4), (5, 0xA5), (6, 0xB0), (7, 0xB1)], cur := 0
          cnt := 2, tx := 0xA4, sr := 0xA4 }
        out := [.emit 0xA3, .label .bufferNearOverrun] } := by decide

theorem test_byteClk_B14 : byteClk 8 (.byte 0x77) afterB5 = { block := afterB5, out := [] } := by decide

theorem test_fsDeassert_B6 :
    fsDeassert opened = { block := { opened with fstate := .idle }, out := [.label (.malformedFrame 0)] } := by decide

theorem test_fsDeassert_T4 :
    (fsDeassert { opened with cnt := 3, bitn := 3 }).out = [.label (.malformedFrame 3), .label (.partialByte 3)] := by decide

theorem test_wellFormedCount :
    [0, 1, 2, 3, 4, 5, 6, 7, 8, 12, 256, 260].map wellFormedCount =
      [false, false, false, false, true, false, false, false, true, true, true, true] := by decide

theorem test_bit_T1 :
    bitTime true { opened with sr := 0xA5 } =
      { block := { opened with sr := 0x4B, bitn := 1 }, out := [.dataOut true] } := by decide

theorem test_poll_H2 : poll afterB5 = { block := afterB5, out := [.flag true] } := by decide

theorem test_extract_B9 : extract 8 afterB9 = { block := afterB9, out := [.flag true, .rdata 0xB0B1B2B3] } := by decide

theorem test_inject_B10 :
    inject 8 ⟨0xC0, 0xC1, 0xC2, 0xC3⟩ afterB9 =
      { block := { afterB9 with
          buf := [(0, 0xC2), (1, 0xC3), (2, 0xA2), (3, 0xA3), (4, 0xA4), (5, 0xA5), (6, 0xC0), (7, 0xC1)]
          fstate := .idle }
        out := [.flag true] } := by decide

theorem test_inject_H4_zeros :
    (inject 8 ⟨0x05, 0x00, 0x00, 0x00⟩ afterB5).block = { afterB5 with buf := [(0, 0x05)], fstate := .idle } := by decide

theorem test_hostRsvd_H10 : hostReserved afterB9 = { block := afterB9, out := [.flag false, .rdata 0] } := by decide

theorem test_encCmd_C8 : encodeCommand (commandOfNats 2 682 341 963) = ⟨0xAA, 0xA5, 0x57, 0xC3⟩ := by decide
theorem test_encCmd_C11 : encodeCommand (commandOfNats 0 16 64 256) = ⟨0x01, 0x01, 0x01, 0x00⟩ := by decide
theorem test_decCmd_C15 : decodeCommand ⟨0x80, 0x7F, 0xFF, 0x01⟩ = ⟨2, 7, 1023, 769⟩ := by decide
theorem test_decCmd_C19 : decodeCommand ⟨0x31, 0x32, 0x33, 0x34⟩ = ⟨0, 787, 140, 820⟩ := by decide
theorem test_encSensor_W7 : encodeSensor (u8 (-128)) = ⟨0x80, 0x00, 0x00, 0x00⟩ := by decide
theorem test_encSensor_W9 : encodeSensor (u8 100) = ⟨0x64, 0x00, 0x00, 0x00⟩ := by decide
theorem test_decSensor : decodeSensor ⟨0xDE, 0xAD, 0xBE, 0xEF⟩ = -34 := by decide
theorem test_decSensor_min : decodeSensor ⟨0x80, 0x7F, 0xFF, 0x01⟩ = -128 := by decide

theorem test_service_N1 :
    (service 8 0x05 (node afterB5)).out =
        [.flag true, .flag true, .rdata 0x3FF00000, .setRgb ⟨1023, 0, 0⟩, .flag true] ∧
      (service 8 0x05 (node afterB5)).block = { afterB5 with buf := [(0, 0x05)], fstate := .idle } := by decide

theorem test_service_N6 :
    (service 8 0x05 { node { afterB5 with buf := [(0, 0x05)] } with lastInjected := some ⟨0x05, 0, 0, 0⟩ }).out =
      [.flag true, .flag true, .rdata 0x05000000, .setRgb ⟨80, 0, 0⟩, .label .staleSensorReading, .flag true] := by decide

theorem test_controller_N4 :
    (controllerStep 8 0x05 (nodeInCtl { afterB5 with fstate := .receiving, cnt := 0 } .decodeAndApply)).controller =
      { Controller.reset with window := ⟨0x3F, 0xF0, 0x00, 0x00⟩ } := by decide

/-- The first byte of the scan of program P3. -/
theorem test_chain_P3 :
    let cap : Nat → Nat := fun k => if k = 1 then 8 else 12
    let a := { opened with buf := [(4, 0x05)], tx := 0x05, sr := 0x05 }
    let b := { opened with buf := [(8, 0x09)], tx := 0x09, sr := 0x09 }
    tailByte [node a, node b] = [0x09] ∧
      chainWindows cap (chainByteClk cap (.byte 0xB0) [node a, node b]) = [⟨0, 0, 0, 0xB0⟩, ⟨0, 0, 0, 0x05⟩] := by decide

theorem test_chain_bit :
    chainAct (.bit true) { chainReset 0 with nodes := [node { opened with sr := 0x80 }, node { opened with sr := 0x01 }] } =
      .next { chainReset 0 with
        nodes := [node { opened with sr := 0x01, bitn := 1 }, node { opened with sr := 0x03, bitn := 1 }].map fun n =>
          { n with out := [.dataOut (n.block.sr == 0x01)] }
        receivedBit := [false] } := rfl

/-- In a chain a late handler corrupts its own node alone. -/
theorem test_chain_late_node :
    ∃ d m n, chainAct (.sample true false .shifted)
        { chainReset 0 with nodes := [node { Block.reset with ipFs := true }, node Block.reset] } = .next d ∧
      d.nodes = [m, n] ∧ m.missed = some .frameSelect ∧ n.missed = none ∧ n.block.fstate = .receiving :=
  ⟨_, _, _, rfl, rfl, rfl, rfl, rfl⟩

theorem test_trace_line :
    traceLine (.byteClk (.byte 0x3F)) (node opened) { node opened with out := [.emit 0x0A] } = some "B 3F > 0A" := by decide

/-! ### Witnesses: states and operands that meet the hypotheses of each statement -/

theorem opened_ok : blockOk Config.CAP opened := blockOk_of_eq reset_blockOk rfl rfl

theorem pendingScan_ok : blockOk Config.CAP pendingScan := blockOk_of_eq reset_blockOk rfl rfl

theorem witness_DecodeOfEncodeIsTheInstruction :
    (Instr.encCmd 3 1023 1023 1023).wellFormed = true ∧ (Instr.encSensor (-128)).wellFormed = true ∧
      (Instr.sample true true .shifted).wellFormed = true ∧
      (Instr.sample false true .shifted (some ⟨true, false⟩)).wellFormed = true := by decide

/-- A node with one turn to come, in a missed deadline's fault. -/
def nodeInFault (b : Block) (t : Turn) : State := { nodeWithTurn b t with missed := some .byteClock }

theorem witness_StepRunsTheDecodedInstruction :
    ((nodeWithTurn opened ⟨false, .word .event [0x01, 0x3F]⟩).turns = ⟨false, .word .event [0x01, 0x3F]⟩ :: [] ∧
      (nodeWithTurn opened ⟨false, .word .event [0x01, 0x3F]⟩).missed = none ∧
      decode .event [0x01, 0x3F] = .ok (.byteClk (.byte 0x3F))) ∧
    (decodeTableWord 1 1 = some .reset ∧ decodeTableWord 32 0x3FF00000 = some (.decCmd ⟨0x3F, 0xF0, 0x00, 0x00⟩)) ∧
    (∃ t, exec (.sample false true .shifted) (node { opened with ipBc := true }) = .fault (.deadlineMiss .byteClock) ∧
      step (nodeWithTurn { opened with fsQ := false, ipBc := true } ⟨false, .word .levels [0x11, 0x00]⟩) = .next t ∧
      t.missed = some .byteClock ∧ t.block.bcQ = true) :=
  ⟨by decide, by decide, _, rfl, rfl, rfl, rfl⟩

/-- Inside the fault a byte clock leaves it standing; `FS_ASSERT` and a `SAMPLE` that asserts end it. -/
theorem witness_DeadlineMissLastsUntilTheNextFsAssert :
    (∃ t, (nodeInFault opened ⟨false, .word .event [0x01, 0x3F]⟩).missed = some .byteClock ∧
      endsFault (.byteClk (.byte 0x3F)) opened = false ∧
      step (nodeInFault opened ⟨false, .word .event [0x01, 0x3F]⟩) = .next t ∧ t.missed = some .byteClock) ∧
    (∃ t, endsFault .fsAssert opened = true ∧ decode .event [0x04, 0x00] = .ok .fsAssert ∧
      step (nodeInFault opened ⟨false, .word .event [0x04, 0x00]⟩) = .next t ∧ t.missed = none ∧
      t.block.fstate = .receiving ∧ t.block.cnt = 0) ∧
    (∃ t, endsFault (.sample true false .shifted) Block.reset = true ∧
      step (nodeInFault Block.reset ⟨false, .word .levels [0x14, 0x00]⟩) = .next t ∧ t.missed = none) ∧
    (nodeInFault Block.reset ⟨false, .pins Config.FS_ACTIVE_LEVEL true .shifted⟩).block.fsQ = false :=
  ⟨⟨_, rfl, rfl, rfl, rfl⟩, ⟨_, rfl, rfl, rfl, rfl, rfl, rfl⟩, ⟨_, rfl, rfl, rfl⟩, rfl⟩

theorem witness_ScanAfterADeadlineMissIsWhole :
    ({ node pendingScan with missed := some .frameSelect, turns := scanTurns [0x01, 0x02, 0x03, 0x04] } : State).Inv ∧
      4 ≤ [0x01, 0x02, 0x03, (0x04 : Byte)].length := ⟨pendingScan_ok, by decide⟩

theorem witness_AgentsTakeTheirTurns :
    ((nodeInCtl opened .awaitFrame).turns = [⟨false, .controller 0x05⟩] ∧ (nodeInCtl opened .awaitFrame).missed = none) ∧
      ((nodeWithTurn opened ⟨false, .pins true false .shifted⟩).turns = [⟨false, .pins true false .shifted⟩] ∧
        handlersMeetDeadline (nodeWithTurn opened ⟨false, .pins true false .shifted⟩).block) ∧
      (∃ t, step (nodeWithTurn opened ⟨false, .overlappingEdge .byteClock⟩) = .next t ∧ t.missed = some .byteClock) :=
  ⟨⟨rfl, rfl⟩, ⟨rfl, rfl, rfl⟩, _, rfl, rfl⟩

theorem witness_AssertedResetOverridesTheTurn :
    (nodeWithTurn opened ⟨true, .overlappingEdge .byteClock⟩).turns = [⟨true, .overlappingEdge .byteClock⟩] := by decide

theorem witness_IdleChangesNothingForAnyTime : (node opened).turns = [] := by decide

theorem witness_EveryStepKeepsTheInvariant :
    ∃ t, (nodeWithTurn opened ⟨false, .word .event [0x01, 0x3F]⟩).Inv ∧
      step (nodeWithTurn opened ⟨false, .word .event [0x01, 0x3F]⟩) = .next t ∧ t.out = [.emit 0x00] := by
  refine ⟨_, opened_ok, rfl, ?_⟩
  have h : overrunLabel Config.CAP 0 = [] := if_neg (by have := cap_ge_eight; omega)
  exact congrArg (Output.emit 0x00 :: ·) h

theorem witness_HandlersMeetDeadlineIsKept :
    (nodeWithTurn opened ⟨false, .pins false true (.byte 0x01)⟩).missed = none ∧
      handlersMeetDeadline (nodeWithTurn opened ⟨false, .pins false true (.byte 0x01)⟩).block ∧
      turnMeetsDeadline ⟨false, .pins false true (.byte 0x01)⟩ = true := by
  exact ⟨rfl, ⟨rfl, rfl⟩, rfl⟩

theorem witness_SelectAgreesWithReceiving :
    (∃ t, wordAgrees (.sample false false (.byte 0x00)) opened ∧ selectAgrees opened ∧
      exec (.sample false false (.byte 0x00)) (node opened) = .next t ∧ t.block.fstate = .idle) ∧
    (∃ t, wordAgrees (.fsDeassert (some .inactive)) opened ∧
      exec (.fsDeassert (some .inactive)) (node opened) = .next t ∧ t.block.fstate = .idle) :=
  ⟨⟨_, (fun _ h => nomatch h), ⟨fun _ => rfl, fun _ => rfl⟩, rfl, rfl⟩,
    ⟨_, (fun _ h => by obtain rfl := Option.some.inj h; exact ⟨rfl, rfl⟩), rfl, rfl⟩⟩

theorem witness_EveryEdgeWordRunsItsEvents :
    handlersMeetDeadline (node opened).block ∧
      exec (decodeEdge 0b0111#4 .shifted) (node { opened with ipFs := true }) = .fault (.deadlineMiss .frameSelect) ∧
      exec (decodeEdge 0b1101#4 .shifted) (node { opened with ipBc := true }) = .fault (.deadlineMiss .byteClock) :=
  ⟨⟨rfl, rfl⟩, rfl, rfl⟩

theorem witness_CursorOnlyAdvances : ∃ t, step (node opened) = .next t ∧ t.missed = none ∧ t.out = [] := ⟨_, rfl, rfl, rfl⟩

theorem witness_ByteClkStoresEmitsAndRearms :
    ((node opened).Inv ∧ (node opened).block.fstate = .receiving) ∧
      ((node { opened with cur := Config.CAP - 1 }).Inv ∧
        (node { opened with cur := Config.CAP - 1 }).block.cur + 1 = Config.CAP) := by
  have := cap_pos
  exact ⟨⟨opened_ok, rfl⟩, ⟨by show Config.CAP - 1 < Config.CAP; omega, rfl, rfl⟩, by show Config.CAP - 1 + 1 = Config.CAP; omega⟩

theorem witness_ByteClkIsIgnoredWhileNotSelected :
    (node Block.reset).block.fstate ≠ .receiving ∧ (node pendingScan).block.fstate ≠ .receiving := by decide

theorem witness_FsDeassertGivesTheVerdict :
    (opened.fstate = .receiving ∧ opened.cnt = 0) ∧
      ({ opened with cnt := 3 }.cnt % 4 ≠ 0) ∧ ({ opened with cnt := 4, bitn := 7 }.cnt % 4 = 0) ∧
      ({ opened with cnt := 5 }.cnt % 4 ≠ 0) ∧ pendingScan.fstate ≠ .receiving := by decide

theorem witness_SampleRunsTheEventsOfTheEdgeWord : handlersMeetDeadline (node Block.reset).block := ⟨rfl, rfl⟩

theorem witness_SampleFaultsExactlyOnAPendingEdge :
    exec (.sample true true (.byte 0x00)) (node { Block.reset with ipFs := true, ipBc := true }) =
        .fault (.deadlineMiss .frameSelect) ∧
      exec (.sample false true (.byte 0x00)) (node { Block.reset with ipBc := true }) =
        .fault (.deadlineMiss .byteClock) := ⟨rfl, rfl⟩

theorem witness_BitShiftsOneBit :
    (node { opened with bitn := 7 }).block.fstate = .receiving ∧ (node pendingScan).block.fstate ≠ .receiving := by decide

theorem witness_EightBitsExchangeOneByte : (node { opened with sr := 0x3F }).block.fstate = .receiving := by decide

theorem witness_InjectWritesTheWindow : (node pendingScan).Inv ∧ (node pendingScan).block.fstate = .frameComplete :=
  ⟨pendingScan_ok, rfl⟩

theorem witness_InjectIsRejectedOutsideFrameComplete :
    (node opened).block.fstate ≠ .frameComplete ∧ (node Block.reset).block.fstate ≠ .frameComplete := by decide

theorem witness_OnlyAcceptedInjectionsAndByteClocksWrite :
    (∃ t, exec (.inject ⟨0x05, 0, 0, 0⟩) (node pendingScan) = .next t ∧ mainLoopOp (.inject ⟨0x05, 0, 0, 0⟩) = true ∧
      t.block.buf ≠ (node pendingScan).block.buf) ∧
    (∃ t, exec (.byteClk (.byte 0x3F)) (node opened) = .next t ∧ (node opened).block.fstate = .receiving ∧
      Memory.read t.block.buf (slot Config.CAP 0) ≠ Memory.read (node opened).block.buf (slot Config.CAP 0)) := by
  constructor
  · refine ⟨_, rfl, rfl, ?_⟩
    intro h
    have hw : window Config.CAP (inject Config.CAP ⟨0x05, 0, 0, 0⟩ pendingScan).block = ⟨0x05, 0, 0, 0⟩ :=
      window_writeWindow cap_ge_eight pendingScan_ok _ _ rfl rfl
    have h0 : window Config.CAP pendingScan = ⟨0x05, 0, 0, 0⟩ := by
      rw [← hw]
      have hb : (inject Config.CAP ⟨0x05, 0, 0, 0⟩ pendingScan).block.buf = pendingScan.buf := h
      simp only [window, hb]
      rfl
    exact absurd (congrArg Packet.b0 h0) (by simp [window, pendingScan, Block.reset, readSlot, Memory.read])
  · refine ⟨_, rfl, rfl, ?_⟩
    have : Memory.read (byteClk Config.CAP (.byte 0x3F) opened).block.buf (slot Config.CAP 0) = 0x3F :=
      memory_read_write_same _ _ rfl
    exact fun h => absurd (this.symm.trans h) (by simp [node, opened, Block.reset, Memory.read])

theorem witness_MainLoopCannotTouchHiddenState :
    (∃ t, mainLoopOp (.service 0x05) = true ∧ exec (.service 0x05) (node pendingScan) = .next t ∧ t.block.fstate = .idle) ∧
      (∃ t : State, t = controllerStep Config.CAP 0x05 (nodeInCtl pendingScan .injectNextPacket) ∧ t.block.fstate = .idle) :=
  ⟨⟨_, rfl, rfl, rfl⟩, ⟨_, rfl, rfl⟩⟩

theorem witness_EncCmdReturnsThePackedWord :
    (3 ≤ 3 ∧ 1023 ≤ 1023 ∧ 1023 ≤ 1023 ∧ 1023 ≤ 1023) ∧ ((0 : Nat) ≤ 3 ∧ (0 : Nat) ≤ 1023) := by decide

theorem witness_EncSensorReturnsTheWeightByte :
    ((-128 : Int) ≤ -128 ∧ (-128 : Int) ≤ 127) ∧ ((-128 : Int) ≤ 127 ∧ (127 : Int) ≤ 127) := by decide

theorem witness_ArgumentsOutOfRangeAreRefused :
    exec (.encCmd 4 0 0 0) (node Block.reset) = .refused .outOfRange ∧
      exec (.encCmd 0 1024 0 0) (node Block.reset) = .refused .outOfRange ∧
      exec (.encCmd 0 0 1024 0) (node Block.reset) = .refused .outOfRange ∧
      exec (.encCmd 0 0 0 1024) (node Block.reset) = .refused .outOfRange ∧
      exec (.encSensor 128) (node Block.reset) = .refused .outOfRange ∧
      exec (.encSensor (-129)) (node Block.reset) = .refused .outOfRange := ⟨rfl, rfl, rfl, rfl, rfl, rfl⟩

theorem witness_CodecRoundTrips : commandInRange 3 1023 1023 1023 ∧ weightInRange (-128) ∧ weightInRange 127 := by decide

theorem witness_ServiceIsOneWholePass :
    ((node pendingScan).Inv ∧ (node pendingScan).block.fstate = .frameComplete ∧
      (node pendingScan).controller.ctl = .awaitFrame) ∧
    ((node opened).Inv ∧ (node opened).block.fstate ≠ .frameComplete) :=
  ⟨⟨pendingScan_ok, rfl, rfl⟩, ⟨opened_ok, by decide⟩⟩

theorem witness_AwaitFramePolls :
    (nodeInCtl pendingScan .awaitFrame).turns = [⟨false, .controller 0x05⟩] ∧
      (nodeInCtl pendingScan .awaitFrame).missed = none ∧
      (nodeInCtl pendingScan .awaitFrame).controller.ctl = .awaitFrame := by decide

theorem witness_DecodeAndApplyUsesAValidWindowOnly :
    ((nodeInCtl pendingScan .decodeAndApply).turns = [⟨false, .controller 0x05⟩] ∧
      (nodeInCtl pendingScan .decodeAndApply).missed = none ∧
      (nodeInCtl pendingScan .decodeAndApply).controller.ctl = .decodeAndApply ∧
      (nodeInCtl pendingScan .decodeAndApply).block.fstate = .frameComplete) ∧
    (nodeInCtl opened .decodeAndApply).block.fstate ≠ .frameComplete := by decide

theorem witness_InjectNextPacketInjectsTheReading :
    (nodeInCtl pendingScan .injectNextPacket).Inv ∧
      (nodeInCtl pendingScan .injectNextPacket).turns = [⟨false, .controller 0x05⟩] ∧
      (nodeInCtl pendingScan .injectNextPacket).missed = none ∧
      (nodeInCtl pendingScan .injectNextPacket).controller.ctl = .injectNextPacket ∧
      (nodeInCtl pendingScan .injectNextPacket).block.fstate = .frameComplete ∧
      (nodeInCtl opened .injectNextPacket).block.fstate ≠ .frameComplete :=
  ⟨pendingScan_ok, rfl, rfl, rfl, rfl, by decide⟩

theorem witness_ActuatorMovesOnlyForACompletedScan :
    ∃ t, step (nodeInCtl pendingScan .decodeAndApply) = .next t ∧ t.missed = none ∧ actuatorCalls t.out = [t.actuator] :=
  ⟨_, rfl, rfl, rfl⟩

theorem witness_FrameStateTransitionTable :
    (node pendingScan).block.fstate = .frameComplete ∧ (node opened).block.fstate = .receiving ∧
      (node { Block.reset with bitn := 5 }).block.fstate ≠ .receiving := by decide

theorem witness_LabelsThatOneStepCanCarry :
    (∃ t, exec (.byteClk .shifted) (node opened) = .next t) ∧
      (∃ t, exec .fsAssert (node pendingScan) = .next t ∧ labels t.out = [.lostFrame]) ∧
      (∃ t, exec .fsDeassert (node { opened with bitn := 5 }) = .next t ∧
        labels t.out = [.malformedFrame 0, .partialByte 5]) ∧
      (∃ t, exec (.inject ⟨1, 2, 3, 4⟩) (node opened) = .next t ∧ labels t.out = [.missedUpdate .receiving]) ∧
      (nodeInCtl opened .injectNextPacket).controller.ctl = .injectNextPacket :=
  ⟨⟨_, rfl⟩, ⟨_, rfl, rfl⟩, ⟨_, rfl, rfl⟩, ⟨_, rfl, rfl⟩, rfl⟩

theorem witness_RelayIsAFourByteDelay :
    (node pendingScan).Inv ∧
      ∀ i ∈ [Instr.byteClk (.byte 0x01), .poll, .inject ⟨1, 2, 3, 4⟩, .byteClk (.byte 0x02)], insideScan i := by
  refine ⟨pendingScan_ok, ?_⟩
  simp only [List.forall_mem_cons, List.not_mem_nil, false_implies, implies_true, and_true]
  exact ⟨.inl ⟨0x01, rfl⟩, .inr ⟨rfl, rfl⟩, .inr ⟨rfl, rfl⟩, .inl ⟨0x02, rfl⟩⟩

theorem witness_WindowAtTheEndOfAScan :
    (node pendingScan).Inv ∧ 4 ≤ [0x01, 0x02, 0x03, (0x04 : Byte)].length ∧
      packetBytes ⟨0x01, 0x02, 0x03, 0x04⟩ = lastFour [0x01, 0x02, 0x03, 0x04] :=
  ⟨pendingScan_ok, by decide, by decide⟩

theorem witness_MalformedScanRecovers :
    (node pendingScan).Inv ∧
      (∀ rs ∈ [[], [0x01], [0x01, 0x02, 0x03], [0x01, 0x02, 0x03, 0x04, (0x05 : Byte)]],
        ¬(rs.length ≠ 0 ∧ rs.length % 4 = 0)) :=
  ⟨pendingScan_ok, by decide⟩

theorem witness_BlockIsAFourByteShiftRegister : 8 ≤ 8 ∧ blockOk 8 afterB9 := ⟨by decide, by decide, by decide, by decide⟩

theorem witness_CapacityIsNotObservable :
    8 ≤ 8 ∧ 8 ≤ 16 ∧ blockOk 8 afterB9 ∧
      blockOk 16 { afterB9 with buf := [(4, 0xB0), (5, 0xB1), (6, 0xB2), (7, 0xB3)], cur := 8 } ∧
      view 8 afterB9 =
        view 16 { afterB9 with buf := [(4, 0xB0), (5, 0xB1), (6, 0xB2), (7, 0xB3)], cur := 8 } :=
  ⟨by decide, by decide, ⟨by decide, by decide, by decide⟩, ⟨by decide, by decide, by decide⟩, by decide⟩

theorem witness_BlockOperationsAreTheInstructions : handlersMeetDeadline (node afterB9).block := ⟨rfl, rfl⟩

theorem witness_InjectedPacketLeadsTheNextScan :
    (node pendingScan).Inv ∧ (node pendingScan).block.fstate = .frameComplete := ⟨pendingScan_ok, rfl⟩

theorem witness_SameReadingTwiceIsSentTwice :
    ((node pendingScan).Inv ∧ (node pendingScan).block.fstate = .frameComplete) ∧
      ([0, 0, 0, (0 : Byte)].length ≠ 0 ∧ [0, 0, 0, (0 : Byte)].length % 4 = 0 ∧ 4 ≤ [0, 0, 0, (0 : Byte)].length) :=
  ⟨⟨pendingScan_ok, rfl⟩, by decide⟩

theorem witness_MissedUpdateRelaysTheOldCommand :
    (node pendingScan).Inv ∧ (node pendingScan).block.fstate = .frameComplete ∧ 4 ≤ [0, 0, 0, (0 : Byte)].length :=
  ⟨pendingScan_ok, rfl, by decide⟩

theorem witness_ObservationsHaveNoInfluence :
    ∃ t, (nodeWithTurn opened ⟨false, .pins true true .shifted⟩).block = (node opened).block ∧
      (nodeWithTurn opened ⟨false, .pins true true .shifted⟩).controller = (node opened).controller ∧
      (nodeWithTurn opened ⟨false, .pins true true .shifted⟩).actuator = (node opened).actuator ∧
      (nodeWithTurn opened ⟨false, .pins true true .shifted⟩).missed = (node opened).missed ∧
      (nodeWithTurn opened ⟨false, .pins true true .shifted⟩).lastInjected = (node opened).lastInjected ∧
      exec (.bit true) (node opened) = .next t := ⟨_, rfl, rfl, rfl, rfl, rfl, rfl⟩

theorem witness_ChainByteClockIsSimultaneous :
    (∀ n ∈ [node opened, node { opened with tx := 0x09 }], n.block.fstate = .receiving ∧ n.missed = none) ∧
      ([node opened, node { opened with tx := 0x09 }][1]?).isSome = true := by
  refine ⟨?_, rfl⟩
  simp only [List.forall_mem_cons, List.not_mem_nil, false_implies, implies_true, and_true]
  exact ⟨⟨rfl, rfl⟩, rfl, rfl⟩

/-- Two nodes of different capacities. -/
def twoCapacities (k : Nat) : Nat := if k = 1 then 8 else 16

theorem two_nodes_ok : chainOk twoCapacities [node afterB9, node afterB5] := by
  refine ⟨fun k => by unfold twoCapacities; split <;> omega, fun k n h => ?_⟩
  rcases k with _ | _ | k
  · cases h; exact ⟨by decide, by decide, by decide⟩
  · cases h; exact ⟨by decide, by decide, by decide⟩
  · cases h

theorem witness_ChainVerdictsAgree :
    (chainScan twoCapacities [0x01, 0x02, 0x03, 0x04] [node afterB9, node opened]).1.map (fun n => n.block.fstate) =
      [.frameComplete, .frameComplete] := by decide

theorem witness_ChainSendsItsWindowsLastNodeFirst :
    chainOk twoCapacities [node afterB9, node afterB5] ∧
      (1 ≤ 1 ∧ 1 ≤ [node afterB9, node afterB5].length) ∧ (1 ≤ 2 ∧ 2 ≤ [node afterB9, node afterB5].length) :=
  ⟨two_nodes_ok, by decide, by decide⟩

theorem witness_ChainEndsWithEachNodesPacket :
    chainOk twoCapacities [node afterB9, node afterB5] ∧ 1 ≤ 1 ∧
      [0x01, 0x02, 0x03, (0x04 : Byte)].length = 4 * 1 ∧
      (0 < [node afterB9, node afterB5].length ∧ 1 < [node afterB9, node afterB5].length) :=
  ⟨two_nodes_ok, by decide, by decide, by decide⟩

theorem witness_PacketMovesOneNodePerSlot :
    chainOk twoCapacities [node afterB9, node afterB5] ∧
      (chainWindows twoCapacities [node afterB9, node afterB5])[1 - 1]? = some ⟨0xB0, 0xB1, 0xB2, 0xB3⟩ ∧
      (chainWindows twoCapacities [node afterB9, node afterB5])[2 - 1]? = some ⟨0x3F, 0xF0, 0x00, 0x00⟩ ∧
      1 + 1 ≤ [node afterB9, node afterB5].length ∧ [0x01, 0x02, 0x03, (0x04 : Byte)].length = 4 * 1 :=
  ⟨two_nodes_ok, by decide, by decide, by decide, by decide⟩

theorem witness_FirstScanAfterResetReadsZeros :
    (∀ k, 8 ≤ twoCapacities k) ∧ 1 ≤ 1 ∧ [0x01, 0x02, 0x03, (0x04 : Byte)].length = 4 * 1 :=
  ⟨two_nodes_ok.1, by decide, by decide⟩

theorem witness_NodesActAlone :
    ∃ n', 1 ≤ 2 ∧ (chainReset 2).nodes[2 - 1]? = some (nodeReset 2) ∧ handlerOp .extract = false ∧ (nodeReset 2).missed = none ∧
      execAtCapacity (Config.capOfNode 2) .extract (nodeReset 2) = .next n' ∧
      nodeOp 2 (Config.capOfNode 2) .extract (nodeReset 2) = .next n' := ⟨_, by decide, rfl, rfl, rfl, rfl, rfl⟩

end Sys2Proof.Tests
end

section
/-! Proofs about packets as words (30_encoding.md R81, R88): each word and each of its fields as a number. -/

namespace Sys2Proof

/-- The word of four bytes as a number: byte 0 weighs most (R81). -/
theorem toNat_packetWord (p : Packet) :
    (packetWord p).toNat = ((p.b0.toNat * 256 + p.b1.toNat) * 256 + p.b2.toNat) * 256 + p.b3.toNat :=
  toNat_append4 p.b0 p.b1 p.b2 p.b3

/-- The word of four fields as a number: `cmd` weighs most (R81). -/
theorem toNat_commandWord (c : Command) :
    (commandWord c).toNat = ((c.cmd.toNat * 1024 + c.red.toNat) * 1024 + c.green.toNat) * 1024 + c.blue.toNat :=
  toNat_append4 c.cmd c.red c.green c.blue

/-- A field of a word as a number: a quotient's remainder. -/
theorem toNat_extractLsb'_eq_div_mod {w : Nat} (x : BitVec w) (start len : Nat) :
    (x.extractLsb' start len).toNat = x.toNat / 2 ^ start % 2 ^ len := by
  rw [BitVec.extractLsb'_toNat, Nat.shiftRight_eq_div_pow]

/-- The four fields of a word as numbers (R81). -/
theorem toNat_commandOfWord (w : BitVec 32) :
    (commandOfWord w).cmd.toNat = w.toNat / 2 ^ 30 % 2 ^ 2 ∧
    (commandOfWord w).red.toNat = w.toNat / 2 ^ 20 % 2 ^ 10 ∧
    (commandOfWord w).green.toNat = w.toNat / 2 ^ 10 % 2 ^ 10 ∧
    (commandOfWord w).blue.toNat = w.toNat / 2 ^ 0 % 2 ^ 10 :=
  ⟨toNat_extractLsb'_eq_div_mod .., toNat_extractLsb'_eq_div_mod .., toNat_extractLsb'_eq_div_mod ..,
    toNat_extractLsb'_eq_div_mod ..⟩

/-- The four bytes of a word as numbers (R161). -/
theorem toNat_packetOfWord (w : BitVec 32) :
    (packetOfWord w).b0.toNat = w.toNat / 2 ^ 24 % 2 ^ 8 ∧
    (packetOfWord w).b1.toNat = w.toNat / 2 ^ 16 % 2 ^ 8 ∧
    (packetOfWord w).b2.toNat = w.toNat / 2 ^ 8 % 2 ^ 8 ∧
    (packetOfWord w).b3.toNat = w.toNat / 2 ^ 0 % 2 ^ 8 :=
  ⟨toNat_extractLsb'_eq_div_mod .., toNat_extractLsb'_eq_div_mod .., toNat_extractLsb'_eq_div_mod ..,
    toNat_extractLsb'_eq_div_mod ..⟩

/-- R88, the fields of a command from its bytes. -/
theorem toNat_commandOfPacket (p : Packet) :
    (commandOfPacket p).cmd.toNat = p.b0.toNat / 64 ∧
    (commandOfPacket p).red.toNat = p.b0.toNat % 64 * 16 + p.b1.toNat / 16 ∧
    (commandOfPacket p).green.toNat = p.b1.toNat % 16 * 64 + p.b2.toNat / 4 ∧
    (commandOfPacket p).blue.toNat = p.b2.toNat % 4 * 256 + p.b3.toNat := by
  obtain ⟨hcmd, hred, hgreen, hblue⟩ := toNat_commandOfWord (packetWord p)
  rw [toNat_packetWord] at hcmd hred hgreen hblue
  have h0 := p.b0.isLt
  have h1 := p.b1.isLt
  have h2 := p.b2.isLt
  have h3 := p.b3.isLt
  refine ⟨hcmd.trans ?_, hred.trans ?_, hgreen.trans ?_, hblue.trans ?_⟩ <;> omega

/-- R88 "And back", the bytes of a command from its fields. -/
theorem toNat_packetOfCommand (c : Command) :
    (packetOfCommand c).b0.toNat = c.cmd.toNat * 64 + c.red.toNat / 16 ∧
    (packetOfCommand c).b1.toNat = c.red.toNat % 16 * 16 + c.green.toNat / 64 ∧
    (packetOfCommand c).b2.toNat = c.green.toNat % 64 * 4 + c.blue.toNat / 256 ∧
    (packetOfCommand c).b3.toNat = c.blue.toNat % 256 := by
  obtain ⟨hb0, hb1, hb2, hb3⟩ := toNat_packetOfWord (commandWord c)
  rw [toNat_commandWord] at hb0 hb1 hb2 hb3
  have hcmd := c.cmd.isLt
  have hred := c.red.isLt
  have hgreen := c.green.isLt
  have hblue := c.blue.isLt
  refine ⟨hb0.trans ?_, hb1.trans ?_, hb2.trans ?_, hb3.trans ?_⟩ <;> omega

/-- Settles O3: a field's value is a quotient's remainder of the word, and the word's value is the sum of its weighted
parts, so each formula of R88 is linear arithmetic. -/
theorem commandFieldsFromBytesAndBack : Obligations.CommandFieldsFromBytesAndBack :=
  ⟨toNat_commandOfPacket, toNat_packetOfCommand⟩

end Sys2Proof
end

section
/-! Proofs about a scan (40_bus_events.md R117, R118): what a run of operations does in the middle of a scan. -/

namespace Sys2Proof.Machine

/-! ### Runs of operations -/

section
variable {i : Instr} {is js : List Instr} {s u t : State} {os ps : List Output}

theorem runOps_cons (hi : exec i s = .next u) (his : runOps is u = .next (t, os)) :
    runOps (i :: is) s = .next (t, u.out ++ os) := by
  simp only [runOps, hi, his]

theorem runOps_append (his : runOps is s = .next (u, os)) (hjs : runOps js u = .next (t, ps)) :
    runOps (is ++ js) s = .next (t, os ++ ps) := by
  induction is generalizing s os with
  | nil => cases his; exact hjs
  | cons i is ih =>
    simp only [runOps] at his
    split at his
    case h_1 v hi =>
      split at his
      case h_1 r hr =>
        cases his
        rw [List.append_assoc]
        exact runOps_cons hi (ih hr)
      all_goals cases his
    all_goals cases his

theorem runOps_singleton (hi : exec i s = .next t) : runOps [i] s = .next (t, t.out) := by
  simpa using runOps_cons hi (rfl : runOps [] t = .next (t, []))

end

/-! ### The bytes that a run delivers -/

theorem deliveredBytes_cons (i : Instr) (is : List Instr) :
    deliveredBytes (i :: is) = deliveredBytes [i] ++ deliveredBytes is := by
  cases i with
  | byteClk rx select => cases rx <;> cases select <;> rfl
  | _ => rfl

theorem deliveredBytes_mainLoopOp {i : Instr} (h : mainLoopOp i = true) : deliveredBytes [i] = [] := by
  cases i with
  | byteClk rx select => cases h
  | _ => rfl

theorem deliveredBytes_byteClks (rs : List Byte) : deliveredBytes (rs.map fun r => .byteClk (.byte r)) = rs := by
  induction rs with
  | nil => rfl
  | cons r rs ih => exact congrArg (r :: ·) ih

/-! ### The last four bytes -/

theorem lastFour_append_of_le {ys : List Byte} (xs : List Byte) (h : 4 ≤ ys.length) :
    lastFour (xs ++ ys) = lastFour ys := by
  have hn : (xs ++ ys).length - 4 = xs.length + (ys.length - 4) := by
    rw [List.length_append]; omega
  rw [lastFour, lastFour, hn, List.drop_append]
  simp

/-- What stands before the last four does not matter for what the last four become. -/
theorem lastFour_lastFour_append {xs : List Byte} (ys : List Byte) (h : 4 ≤ xs.length) :
    lastFour (lastFour xs ++ ys) = lastFour (xs ++ ys) := by
  have hlen : 4 ≤ (lastFour xs ++ ys).length := by
    rw [List.length_append, lastFour, List.length_drop]; omega
  have hxs : xs.take (xs.length - 4) ++ lastFour xs = xs := List.take_append_drop ..
  rw [← lastFour_append_of_le (xs.take (xs.length - 4)) hlen, ← List.append_assoc, hxs]

/-- Of a window and the bytes after it, the last four are what is left when as many are taken off the front as came after. -/
theorem drop_length_eq_lastFour {ws : List Byte} (rs : List Byte) (h : ws.length = 4) :
    (ws ++ rs).drop rs.length = lastFour (ws ++ rs) := by
  have hn : (ws ++ rs).length - 4 = rs.length := by
    rw [List.length_append]; omega
  rw [lastFour, hn]

theorem length_windowBytes (cap : Nat) (b : Block) : (windowBytes cap b).length = 4 := rfl

theorem packetBytes_injective {p q : Packet} (h : packetBytes p = packetBytes q) : p = q := by
  cases p; cases q
  simpa [packetBytes] using h

/-! ### Inside an open scan -/

/-- Between two exchanges of a scan: the block is selected and the byte armed is the oldest of the window (R57). -/
structure ScanOpen (b : Block) : Prop where
  ok : blockOk Config.CAP b
  receiving : b.fstate = .receiving
  armed : b.tx = (window Config.CAP b).b0

/-- From block `b` to block `c` within a scan: `rs` was received, and what was put out is `os`. -/
structure Relayed (b : Block) (rs : List Byte) (c : Block) (os : List Output) : Prop where
  scanOpen : ScanOpen c
  windowBytes_eq : windowBytes Config.CAP c = lastFour (windowBytes Config.CAP b ++ rs)
  cnt_eq : c.cnt = b.cnt + rs.length
  emitted_eq : emitted os = (windowBytes Config.CAP b ++ rs).take rs.length

/-- Nothing was received and nothing emitted. -/
theorem Relayed.of_quiet {b : Block} {os : List Output} (h : ScanOpen b) (ho : emitted os = []) : Relayed b [] b os where
  scanOpen := h
  windowBytes_eq := rfl
  cnt_eq := rfl
  emitted_eq := ho

/-- One part of a scan after another: the window that the first leaves is what the second emits first. -/
theorem Relayed.trans {b c d : Block} {rs xs : List Byte} {os ps : List Output} (h : Relayed b rs c os)
    (k : Relayed c xs d ps) : Relayed b (rs ++ xs) d (os ++ ps) where
  scanOpen := k.scanOpen
  windowBytes_eq := by
    have h4 : 4 ≤ (windowBytes Config.CAP b ++ rs).length := by
      rw [List.length_append, length_windowBytes]; omega
    rw [k.windowBytes_eq, h.windowBytes_eq, lastFour_lastFour_append xs h4, List.append_assoc]
  cnt_eq := by
    rw [k.cnt_eq, h.cnt_eq, List.length_append, Nat.add_assoc]
  emitted_eq := by
    have hle : rs.length ≤ (windowBytes Config.CAP b ++ rs).length := by
      rw [List.length_append]; omega
    rw [emitted_append, h.emitted_eq, k.emitted_eq, h.windowBytes_eq,
      ← drop_length_eq_lastFour rs (length_windowBytes ..), ← List.append_assoc, List.length_append, List.take_add,
      List.take_append_of_le_length hle, List.drop_append_of_le_length hle]

/-- `FS_ASSERT` opens a scan on the window as it stands (R112). -/
theorem exec_fsAssert_opens {s : State} (h : s.Inv) :
    ∃ t, exec .fsAssert s = .next t ∧ ScanOpen t.block ∧
      windowBytes Config.CAP t.block = windowBytes Config.CAP s.block ∧ t.block.cnt = 0 ∧ emitted t.out = [] := by
  refine ⟨withEffect s (fsAssert Config.CAP s.block), rfl, ?_⟩
  rw [withEffect_block, withEffect_out, fsAssert_eq]
  refine ⟨⟨blockOk_of_eq h rfl rfl, rfl, rfl⟩, rfl, rfl, ?_⟩
  split <;> rfl

/-- One exchange of an open scan (R113, R58). -/
theorem exec_byteClk_relayed {s : State} (r : Byte) (h : ScanOpen s.block) :
    ∃ t, exec (.byteClk (.byte r)) s = .next t ∧ Relayed s.block [r] t.block t.out := by
  have hb := byteClk_receiving Config.CAP (.byte r) s.block h.receiving
  have hok := byteClk_ok cap_pos (.byte r) h.ok
  refine ⟨withEffect s (byteClk Config.CAP (.byte r) s.block), rfl, ?_⟩
  rw [hb] at hok
  rw [withEffect_block, withEffect_out, hb]
  refine ⟨⟨hok, h.receiving, rfl⟩, ?_, rfl, ?_⟩
  · rw [windowBytes, window_append cap_ge_eight h.ok r _ rfl rfl]
    rfl
  · simp [emitted, h.armed, windowBytes, packetBytes]

/-- R145: outside `FrameComplete` an operation of the main loop leaves the block as it is, and it never emits. -/
theorem exec_mainLoopOp {i : Instr} {s : State} (hi : mainLoopOp i = true) (hw : i.wellFormed = true)
    (hs : s.block.fstate ≠ .frameComplete) : ∃ t, exec i s = .next t ∧ t.block = s.block ∧ emitted t.out = [] := by
  have hflag : frameCompleteFlag s.block = false := by
    rw [frameCompleteFlag_eq]; exact decide_eq_false hs
  cases i with
  | poll => exact ⟨_, rfl, rfl, rfl⟩
  | extract => exact ⟨_, rfl, rfl, rfl⟩
  | hostRsvd => exact ⟨_, rfl, rfl, rfl⟩
  | decCmd p => exact ⟨_, rfl, rfl, rfl⟩
  | decSensor p => exact ⟨_, rfl, rfl, rfl⟩
  | inject p =>
    refine ⟨injectState Config.CAP p s, rfl, ?_⟩
    rw [injectState_block, injectState_out, inject_rejected _ _ _ hs]
    exact ⟨rfl, rfl⟩
  | encCmd cmd red green blue => exact ⟨_, if_pos (of_decide_eq_true hw), rfl, rfl⟩
  | encSensor weight => exact ⟨_, if_pos (of_decide_eq_true hw), rfl, rfl⟩
  | service w =>
    refine ⟨service Config.CAP w s, rfl, ?_⟩
    simp only [service, hflag]
    exact ⟨rfl, rfl⟩
  | _ => cases hi

/-- One operation inside an open scan, of the bus or of the main loop. -/
theorem exec_insideScan {i : Instr} {s : State} (hi : insideScan i) (h : ScanOpen s.block) :
    ∃ t, exec i s = .next t ∧ Relayed s.block (deliveredBytes [i]) t.block t.out := by
  obtain ⟨r, rfl⟩ | ⟨hmain, hwf⟩ := hi
  · exact exec_byteClk_relayed r h
  · obtain ⟨t, ht, hblock, hout⟩ := exec_mainLoopOp hmain hwf (s := s) (by rw [h.receiving]; decide)
    rw [deliveredBytes_mainLoopOp hmain]
    refine ⟨t, ht, ?_⟩
    rw [hblock]
    exact .of_quiet h hout

/-- Any number of operations inside an open scan. -/
theorem runOps_insideScan {is : List Instr} {s : State} (his : ∀ i ∈ is, insideScan i) (h : ScanOpen s.block) :
    ∃ t os, runOps is s = .next (t, os) ∧ Relayed s.block (deliveredBytes is) t.block os := by
  induction is generalizing s with
  | nil => exact ⟨s, [], rfl, .of_quiet h rfl⟩
  | cons i is ih =>
    rw [List.forall_mem_cons] at his
    obtain ⟨hi, his⟩ := his
    obtain ⟨u, hu, hsu⟩ := exec_insideScan hi h
    obtain ⟨t, os, ht, hut⟩ := ih his hsu.scanOpen
    rw [deliveredBytes_cons]
    exact ⟨t, u.out ++ os, runOps_cons hu ht, hsu.trans hut⟩

/-- `FS_DEASSERT` closes a scan: the window and the count stay, and the count gives the verdict (R114). -/
theorem exec_fsDeassert_closes {s : State} (h : s.block.fstate = .receiving) :
    ∃ t, exec .fsDeassert s = .next t ∧ windowBytes Config.CAP t.block = windowBytes Config.CAP s.block ∧
      t.block.cnt = s.block.cnt ∧
      (t.block.fstate = .frameComplete ↔ s.block.cnt ≠ 0 ∧ s.block.cnt % 4 = 0) ∧ emitted t.out = [] := by
  refine ⟨withEffect s (fsDeassert s.block), rfl, ?_⟩
  by_cases hc : s.block.cnt ≠ 0 ∧ s.block.cnt % 4 = 0
  · rw [withEffect_block, withEffect_out, fsDeassert_wellFormed _ h hc]
    exact ⟨rfl, rfl, iff_of_true rfl hc, emitted_partialByteLabel _⟩
  · rw [withEffect_block, withEffect_out, fsDeassert_malformed _ h hc]
    exact ⟨rfl, rfl, iff_of_false nofun hc, emitted_partialByteLabel _⟩

/-! ### A whole scan -/

/-- R117, R118, R114 of a scan of the bytes `rs` with nothing between them. -/
theorem runOps_scanOps {s : State} (rs : List Byte) (hinv : s.Inv) :
    ∃ t os, runOps (scanOps rs) s = .next (t, os) ∧
      windowBytes Config.CAP t.block = lastFour (windowBytes Config.CAP s.block ++ rs) ∧
      t.block.cnt = rs.length ∧ (t.block.fstate = .frameComplete ↔ rs.length ≠ 0 ∧ rs.length % 4 = 0) ∧
      emitted os = (windowBytes Config.CAP s.block ++ rs).take rs.length := by
  have hinside : ∀ i ∈ rs.map (fun r => Instr.byteClk (.byte r)), insideScan i :=
    List.forall_mem_map.mpr fun r _ => .inl ⟨r, rfl⟩
  obtain ⟨u, hu, hopen, hwu, hcu, hou⟩ := exec_fsAssert_opens hinv
  obtain ⟨v, os, hv, hrelay⟩ := runOps_insideScan hinside hopen
  obtain ⟨t, ht, hwt, hct, hverdict, hot⟩ := exec_fsDeassert_closes hrelay.scanOpen.receiving
  rw [deliveredBytes_byteClks] at hrelay
  have hcnt : v.block.cnt = rs.length := by
    rw [hrelay.cnt_eq, hcu, Nat.zero_add]
  rw [hcnt] at hct hverdict
  refine ⟨t, _, runOps_cons hu (runOps_append hv (runOps_singleton ht)), ?_, hct, hverdict, ?_⟩
  · rw [hwt, hrelay.windowBytes_eq, hwu]
  · rw [emitted_append, emitted_append, hou, hot, hrelay.emitted_eq, hwu, List.nil_append, List.append_nil]

/-- Settles O43: what one exchange or main-loop operation does is `Relayed`, and `Relayed` composes. -/
theorem relayIsAFourByteDelay : Obligations.RelayIsAFourByteDelay := by
  intro s is hinv his
  obtain ⟨u, hu, hopen, hwindow, -, hquiet⟩ := exec_fsAssert_opens hinv
  obtain ⟨t, os, ht, hrelay⟩ := runOps_insideScan his hopen
  refine ⟨t, u.out ++ os, runOps_cons hu ht, ?_⟩
  rw [emitted_append, hquiet, List.nil_append, hrelay.emitted_eq, hwindow]

/-- Settles O44: `runOps_scanOps`; four received bytes or more leave nothing of the old window among the last four. -/
theorem windowAtTheEndOfAScan : Obligations.WindowAtTheEndOfAScan := by
  intro s rs hinv
  obtain ⟨t, os, hrun, hwin, hcnt, hverdict, -⟩ := runOps_scanOps rs hinv
  have hlast (h4 : 4 ≤ rs.length) : windowBytes Config.CAP t.block = lastFour rs :=
    hwin.trans (lastFour_append_of_le _ h4)
  refine ⟨t, os, hrun, hwin, hlast, fun p h4 hp => ?_, hcnt, hverdict⟩
  have hp' : window Config.CAP t.block = p := packetBytes_injective ((hlast h4).trans hp.symm)
  rw [hp']

end Sys2Proof.Machine
end

section
/-! Proofs about the Frame Codec (42_frame_codec.md): `ENC_SENSOR` on a weight in range, and the round trips of R165. -/

namespace Sys2Proof

/-- R8: `u8(w)` is `w mod 256`. -/
theorem toNat_u8 (w : Int) : ((u8 w).toNat : Int) = w % 256 := by
  rw [u8, BitVec.toNat_ofInt]
  exact Int.toNat_of_nonneg (Int.emod_nonneg w (by decide))

/-- A weight in range is the signed reading of its byte, the direction opposite to `u8_s8`. -/
theorem s8_u8_of_weightInRange {w : Int} (h : weightInRange w) : s8 (u8 w) = w := by
  obtain ⟨hmin, hmax⟩ := h
  rw [s8, u8, BitVec.toInt_ofInt]
  exact Int.bmod_eq_of_le hmin (Int.lt_add_one_of_le hmax)

/-- The fields built from arguments in range hold the arguments, none masked (R160). -/
theorem toNat_commandOfNats {cmd red green blue : Nat} (h : commandInRange cmd red green blue) :
    (commandOfNats cmd red green blue).cmd.toNat = cmd ∧
    (commandOfNats cmd red green blue).red.toNat = red ∧
    (commandOfNats cmd red green blue).green.toNat = green ∧
    (commandOfNats cmd red green blue).blue.toNat = blue := by
  obtain ⟨hcmd, hred, hgreen, hblue⟩ := h
  simp only [commandOfNats, BitVec.toNat_ofNat]
  exact ⟨Nat.mod_eq_of_lt (Nat.lt_succ_of_le hcmd), Nat.mod_eq_of_lt (Nat.lt_succ_of_le hred),
    Nat.mod_eq_of_lt (Nat.lt_succ_of_le hgreen), Nat.mod_eq_of_lt (Nat.lt_succ_of_le hblue)⟩

/-- A sensor packet is a given packet exactly when it has that packet's byte 0 and the packet's padding is 0 (R82). -/
theorem sensorPacket_eq_iff (w : Byte) (p : Packet) :
    sensorPacket w = p ↔ w = p.b0 ∧ p.b1 = 0x00 ∧ p.b2 = 0x00 ∧ p.b3 = 0x00 := by
  cases p
  simp only [sensorPacket, Packet.mk.injEq, eq_comm (a := (0x00 : Byte))]

end Sys2Proof

namespace Sys2Proof.Machine

/-- A codec function only puts its result out (R160). -/
theorem restUnchanged_withOutput (s : State) (o : List Output) : restUnchanged s (withOutput s o) :=
  ⟨rfl, rfl, rfl, rfl, rfl, rfl⟩

/-- `ENC_SENSOR` on a weight in range is not refused (R163). -/
theorem exec_encSensor_of_weightInRange (s : State) {weight : Int} (h : weightInRange weight) :
    exec (.encSensor weight) s = .next (withOutput s [.packet (sensorPacket (u8 weight))]) :=
  if_pos h

/-- `DEC_CMD` undoes `ENC_CMD`: the packet is the bytes of the fields' word, and the word is the same. -/
theorem decodeCommand_encodeCommand (c : Command) : decodeCommand (encodeCommand c) = c :=
  (congrArg commandOfWord (packetWord_ofWord (commandWord c))).trans (commandOfWord_word c)

/-- `ENC_CMD` undoes `DEC_CMD`: every packet is the packet of its fields. -/
theorem encodeCommand_decodeCommand (p : Packet) : encodeCommand (decodeCommand p) = p :=
  (congrArg packetOfWord (commandWord_ofWord (packetWord p))).trans (packetOfWord_word p)

/-- `DEC_SENSOR` undoes `ENC_SENSOR` on a weight in range. -/
theorem decodeSensor_encodeSensor {w : Int} (h : weightInRange w) : decodeSensor (encodeSensor (u8 w)) = w :=
  s8_u8_of_weightInRange h

/-- `ENC_SENSOR` after `DEC_SENSOR` keeps byte 0 and clears the padding. -/
theorem encodeSensor_decodeSensor (p : Packet) : encodeSensor (u8 (decodeSensor p)) = sensorPacket p.b0 :=
  congrArg sensorPacket (u8_s8 p.b0)

/-- Settles O31: the weight is in range, so its byte goes out, and as a number that byte is the weight's remainder. -/
theorem encSensorReturnsTheWeightByte : Obligations.EncSensorReturnsTheWeightByte := by
  intro s weight hmin hmax
  exact ⟨_, u8 weight, exec_encSensor_of_weightInRange s ⟨hmin, hmax⟩, rfl, rfl, restUnchanged_withOutput _ _, toNat_u8 weight⟩

/-- Settles O34: through the word both command round trips are identities; the sensor codec carries byte 0 alone. -/
theorem codecRoundTrips : Obligations.CodecRoundTrips := by
  refine ⟨fun cmd red green blue hcmd hred hgreen hblue => ?_, fun w hmin hmax => decodeSensor_encodeSensor ⟨hmin, hmax⟩,
    encodeCommand_decodeCommand, fun p => ⟨encodeSensor_decodeSensor p, ?_⟩⟩
  · rw [decodeCommand_encodeCommand]
    exact toNat_commandOfNats ⟨hcmd, hred, hgreen, hblue⟩
  · rw [encodeSensor_decodeSensor, sensorPacket_eq_iff]
    exact and_iff_right rfl

end Sys2Proof.Machine
end

section
/-! Proofs about the Node Controller (43_node_controller.md): the control state it is in names the step it takes. -/

namespace Sys2Proof.Machine

/-- R181: a controller in `AwaitFrame` polls. -/
theorem controllerStep_of_awaitFrame {s : State} (cap : Nat) (r : Byte) (h : s.controller.ctl = .awaitFrame) :
    controllerStep cap r s = awaitFrame s := by
  rw [controllerStep, h]

/-- R181: where `AwaitFrame` goes, the flag read as the frame state it stands for (R31). -/
theorem awaitFrame_controller (s : State) :
    (awaitFrame s).controller = { s.controller with
      ctl := if s.block.fstate = .frameComplete then .decodeAndApply else .awaitFrame } := by
  simp only [awaitFrame, frameCompleteFlag_eq, decide_eq_true_eq]

/-- R181: `AwaitFrame` puts out the flag it polled, and nothing else. -/
theorem awaitFrame_out (s : State) : (awaitFrame s).out = [.flag (decide (s.block.fstate = .frameComplete))] := by
  simp only [awaitFrame, withEffect_out, poll, frameCompleteFlag_eq]

/-- Settles O37: the turn is the controller's step (R265), the step is `AwaitFrame`, and polling leaves the block as it is. -/
theorem awaitFramePolls : Obligations.AwaitFramePolls := by
  intro s r rest hturn hm hctl
  have hstep : step s = .next (awaitFrame (takeTurn s rest)) :=
    (step_controller hturn hm).trans (congrArg _ (controllerStep_of_awaitFrame _ r hctl))
  exact ⟨_, hstep, rfl, rfl, hm, rfl, awaitFrame_controller _, awaitFrame_out _⟩

end Sys2Proof.Machine
end

section
/-! Proofs about the decoder (30_encoding.md): what `decode` reads from the bytes that `encode` lays at each port. -/

namespace Sys2Proof

/-- The first byte of an `EDGE` word, bit 4 clear or set: nothing above bit 4, the edge word in bits 3:0 (log 3). -/
theorem edgeByte_fields (e : BitVec 4) :
    (bitsAboveClear 5 (0b0000#4 ++ e) = true ∧ (0b0000#4 ++ e).extractLsb' 0 4 = e ∧ (0b0000#4 ++ e).getLsbD 4 = false) ∧
      bitsAboveClear 5 (0b0001#4 ++ e) = true ∧ (0b0001#4 ++ e).extractLsb' 0 4 = e ∧ (0b0001#4 ++ e).getLsbD 4 = true := by
  revert e; decide

/-- The two bytes of an `EDGE` word: the edge word and the byte source are read back from them (log 3). -/
theorem edgeBytes_fields (e : BitVec 4) (rx : Rx) :
    ∃ x r, edgeBytes e rx = [x, r] ∧ bitsAboveClear 5 x = true ∧ x.extractLsb' 0 4 = e ∧ rxOf x r = rx := by
  obtain ⟨⟨hclear0, hword0, hsource0⟩, hclear1, hword1, hsource1⟩ := edgeByte_fields e
  cases rx with
  | byte b => exact ⟨_, b, rfl, hclear0, hword0, by rw [rxOf, hsource0]; rfl⟩
  | shifted => exact ⟨_, 0x00, rfl, hclear1, hword1, by rw [rxOf, hsource1]; rfl⟩

/-- At the port of whole edge words, the bytes of `e` and `rx` are the operation of `e` on `rx` (R86). -/
theorem decode_edge_edgeBytes (e : BitVec 4) (rx : Rx) : decode .edge (edgeBytes e rx) = .ok (decodeEdge e rx) := by
  obtain ⟨x, r, hbytes, hclear, hword, hrx⟩ := edgeBytes_fields e rx
  simp [hbytes, decode, hclear, hword, hrx]

/-- At the port of single events, they are the event of match value `e` on `rx`. -/
theorem decode_event_edgeBytes (e : BitVec 4) (rx : Rx) : decode .event (edgeBytes e rx) = decodeEvent e rx := by
  obtain ⟨x, r, hbytes, hclear, hword, hrx⟩ := edgeBytes_fields e rx
  simp [hbytes, decode, hclear, hword, hrx]

/-- A bit of the edge word is that bit of the byte. -/
theorem getLsbD_of_extractLsb' {x : Byte} {e : BitVec 4} (h : x.extractLsb' 0 4 = e) {i : Nat} (hi : i < 4) :
    x.getLsbD i = e.getLsbD i := by
  rw [← h, BitVec.getLsbD_extractLsb']
  simp [hi]

/-- The bits of an edge word are its four levels (R85). -/
theorem edgeWord_bits (a b c d : Bool) :
    (edgeWord a b c d).getLsbD 3 = a ∧ (edgeWord a b c d).getLsbD 2 = b ∧
      (edgeWord a b c d).getLsbD 1 = c ∧ (edgeWord a b c d).getLsbD 0 = d := by
  revert a b c d; decide

/-- At the port of levels, the bytes of a word without old levels are `SAMPLE` of its new levels (R111). -/
theorem decode_levels_edgeBytes (fs bc : Bool) (rx : Rx) :
    decode .levels (edgeBytes (edgeWord false fs false bc) rx) = .ok (.sample fs bc rx) := by
  obtain ⟨x, r, hbytes, hclear, hword, hrx⟩ := edgeBytes_fields (edgeWord false fs false bc) rx
  obtain ⟨h3, h2, h1, h0⟩ := edgeWord_bits false fs false bc
  have hx {i : Nat} (hi : i < 4) : x.getLsbD i = (edgeWord false fs false bc).getLsbD i := getLsbD_of_extractLsb' hword hi
  rw [← hx (by decide)] at h3 h2 h1 h0
  simp only [hbytes, decode, hclear, hrx, h3, h2, h1, h0, Bool.true_eq_false, Bool.false_eq_true, or_self, if_false]

/-- An edge word that selects both a frame-select event and `BYTE_CLK`, or none, is a `SAMPLE` (R86). -/
theorem decodeEdge_notOneEvent {old : Levels} {fs bc : Bool} (h : notOneEvent old fs bc) (rx : Rx) :
    decodeEdge (edgeWord old.fs fs old.bc bc) rx = .sample fs bc rx (some old) := by
  obtain ⟨oldFs, oldBc⟩ := old
  obtain ⟨h3, h2, h1, h0⟩ := edgeWord_bits oldFs fs oldBc bc
  have hselects : (!oldBc && bc) = (oldFs != fs) := by
    rw [Bool.eq_iff_iff]
    simpa using h.symm
  simp only [decodeEdge, selectsFsAssert_eq, selectsByteClk_eq, selectsFsDeassert_eq, h3, h2, h1, h0, hselects]
  cases oldFs <;> cases fs <;> rfl

/-- The pattern of `ENC_CMD` gives the arguments in range back (R160). -/
theorem decode_encCmd_commandInRange {cmd red green blue : Nat} (h : commandInRange cmd red green blue) :
    decode .encCmd (packetBytes (packetOfCommand (commandOfNats cmd red green blue))) = .ok (.encCmd cmd red green blue) := by
  have hfields : commandOfPacket (packetOfCommand (commandOfNats cmd red green blue)) = commandOfNats cmd red green blue :=
    Machine.decodeCommand_encodeCommand _
  obtain ⟨hcmd, hred, hgreen, hblue⟩ := toNat_commandOfNats h
  simp only [packetBytes, decode, hfields, hcmd, hred, hgreen, hblue]

/-- The pattern of `ENC_SENSOR` gives a weight in range back. -/
theorem decode_encSensor_weightInRange {weight : Int} (h : weightInRange weight) :
    decode .encSensor (packetBytes (sensorPacket (u8 weight))) = .ok (.encSensor weight) :=
  congrArg (fun w => Decoded.ok (.encSensor w)) (s8_u8_of_weightInRange h)

/-- Settles O1: each port's words are read back field by field; an edge word by the event it selects. -/
theorem decodeOfEncodeIsTheInstruction : Obligations.DecodeOfEncodeIsTheInstruction := by
  intro i hwf
  cases i with
  | sample fs bc rx old =>
    cases old with
    | none => exact decode_levels_edgeBytes fs bc rx
    | some old => exact (decode_edge_edgeBytes _ rx).trans (congrArg _ (decodeEdge_notOneEvent (of_decide_eq_true hwf) rx))
  | fsAssert clock =>
    cases clock with
    | none => exact decode_event_edgeBytes _ (.byte 0x00)
    | some c => exact (decode_edge_edgeBytes _ (.byte 0x00)).trans (congrArg _ (decodeEdge_assertWord c _))
  | byteClk rx select =>
    cases select with
    | none => exact decode_event_edgeBytes _ rx
    | some fs => exact (decode_edge_edgeBytes _ rx).trans (congrArg _ (decodeEdge_clockWord fs rx))
  | fsDeassert clock =>
    cases clock with
    | none => exact decode_event_edgeBytes _ (.byte 0x00)
    | some c => exact (decode_edge_edgeBytes _ (.byte 0x00)).trans (congrArg _ (decodeEdge_deassertWord c _))
  | bit d => cases d <;> rfl
  | encCmd cmd red green blue => exact decode_encCmd_commandInRange (of_decide_eq_true hwf)
  | encSensor weight => exact decode_encSensor_weightInRange (of_decide_eq_true hwf)
  | _ => rfl

/-- Settles O2: twenty-one words, each evaluated. -/
theorem writtenWordsDecode : Obligations.WrittenWordsDecode := by
  unfold Obligations.WrittenWordsDecode
  decide

end Sys2Proof
end

section
/-! Proofs about the Frame Codec's operations (42_frame_codec.md) on any arguments: R160, R161, R162, R164, R167. -/

namespace Sys2Proof.Machine

/-- R161: the word of the packet that carries the fields `c`. -/
theorem toNat_packetWord_encodeCommand (c : Command) :
    (packetWord (encodeCommand c)).toNat =
      c.cmd.toNat * 2 ^ 30 + c.red.toNat * 2 ^ 20 + c.green.toNat * 2 ^ 10 + c.blue.toNat := by
  have hword : packetWord (encodeCommand c) = commandWord c := packetWord_ofWord _
  rw [hword, toNat_commandWord]
  omega

/-- Settles O29: in range the fields are the arguments, and the packet is the bytes of their word. -/
theorem encCmdReturnsThePackedWord : Obligations.EncCmdReturnsThePackedWord := by
  intro s cmd red green blue hc hr hg hb
  have hrange : commandInRange cmd red green blue := ⟨hc, hr, hg, hb⟩
  obtain ⟨hcmd, hred, hgreen, hblue⟩ := toNat_commandOfNats hrange
  have hword := toNat_packetWord_encodeCommand (commandOfNats cmd red green blue)
  rw [hcmd, hred, hgreen, hblue] at hword
  exact ⟨_, _, if_pos hrange, rfl, rfl, restUnchanged_withOutput _ _, hword⟩

/-- Settles O30: the packet of the decoded fields is the packet, so its word is the fields' word. -/
theorem decCmdReturnsTheFields : Obligations.DecCmdReturnsTheFields := by
  intro s p
  have hword := toNat_packetWord_encodeCommand (decodeCommand p)
  rw [encodeCommand_decodeCommand] at hword
  exact ⟨_, _, rfl, rfl, rfl, restUnchanged_withOutput _ _, hword⟩

/-- Settles O32: two's complement of eight bits (R8). -/
theorem decSensorReturnsTheSignedByte : Obligations.DecSensorReturnsTheSignedByte := by
  intro s p
  have hvalue : decodeSensor p = if p.b0.toNat < 128 then (p.b0.toNat : Int) else p.b0.toNat - 256 := by
    simp only [decodeSensor, s8, BitVec.toInt_eq_toNat_cond]
    split <;> split <;> omega
  exact ⟨_, rfl, rfl, restUnchanged_withOutput _ _, congrArg (fun w => [Output.weight w]) hvalue⟩

/-- Settles O33: the two encoders look at the range before anything else (R160). -/
theorem argumentsOutOfRangeAreRefused : Obligations.ArgumentsOutOfRangeAreRefused := by
  refine ⟨fun s cmd red green blue h => if_neg ?_, fun s weight h => if_neg ?_⟩
  · rintro ⟨hc, hr, hg, hb⟩; omega
  · rintro ⟨hmin, hmax⟩; omega

/-- Settles O35: the formulas of R88, one read with bytes 1 to 3 zero, the other for byte 0 alone. -/
theorem decodersOnTheOtherKind : Obligations.DecodersOnTheOtherKind := by
  refine ⟨fun w => ?_, fun c => ?_⟩
  · obtain ⟨hcmd, hred, hgreen, hblue⟩ := toNat_commandOfPacket (encodeSensor w)
    refine ⟨hcmd, hred.trans ?_, BitVec.eq_of_toNat_eq (hgreen.trans ?_), BitVec.eq_of_toNat_eq (hblue.trans ?_)⟩ <;>
      simp [encodeSensor, sensorPacket]
  · obtain ⟨hb0, -, -, -⟩ := toNat_packetOfCommand c
    have hbyte : (encodeCommand c).b0 = BitVec.ofNat 8 (c.cmd.toNat * 64 + c.red.toNat / 16) := by
      rw [← hb0]; simp [encodeCommand]
    exact congrArg s8 hbyte

end Sys2Proof.Machine
end

section
/-! The laws of the block's operations at any capacity: events one after another and the edge detector (40_bus_events.md R111), the
pending bits (60_exceptions.md R230, R232), and what each operation does to the buffer, the cursor and the frame state. -/

namespace Sys2Proof.Machine

/-! ### Effects in sequence -/

theorem andThen_assoc (e : Effect) (f g : Block → Effect) :
    andThen (andThen e f) g = andThen e fun b => andThen (f b) g := by
  simp [andThen, List.append_assoc]

@[simp] theorem andThen_to_noEffect (e : Effect) : andThen e noEffect = e := by
  simp [andThen]

section
variable (cap : Nat) (rx : Rx)

theorem runEvents_singleton (ev : BusEvent) : runEvents cap rx [ev] = runEvent cap rx ev := by
  funext b
  exact andThen_to_noEffect _

theorem runEvents_append (evs evs' : List BusEvent) (b : Block) :
    runEvents cap rx (evs ++ evs') b = andThen (runEvents cap rx evs b) (runEvents cap rx evs') := by
  induction evs generalizing b with
  | nil => exact (andThen_noEffect b _).symm
  | cons ev evs ih =>
    have hrest : runEvents cap rx (evs ++ evs') = fun c => andThen (runEvents cap rx evs c) (runEvents cap rx evs') :=
      funext ih
    simp only [List.cons_append, runEvents, hrest, andThen_assoc]

/-! ### The three `if`s of `SAMPLE` are the rows of the table (R86, R111) -/

/-- The second table of R86 row by row is the three selections in the order of R111 (D10). -/
theorem edgeEvents_eq (e : BitVec 4) :
    edgeEvents e = (if selectsFsAssert e then [.fsAssert] else []) ++ (if selectsByteClk e then [.byteClk] else []) ++
      (if selectsFsDeassert e then [.fsDeassert] else []) := by
  revert e; decide

theorem sampleAssert_eq_runEvents (e : BitVec 4) :
    sampleAssert cap e = runEvents cap rx (if selectsFsAssert e then [.fsAssert] else []) := by
  funext b
  unfold sampleAssert
  split
  · rw [runEvents_singleton]; rfl
  · rfl

theorem sampleByte_eq_runEvents (e : BitVec 4) :
    sampleByte cap e rx = runEvents cap rx (if selectsByteClk e then [.byteClk] else []) := by
  funext b
  unfold sampleByte
  split
  · rw [runEvents_singleton]; rfl
  · rfl

theorem sampleDeassert_eq_runEvents (e : BitVec 4) :
    sampleDeassert e = runEvents cap rx (if selectsFsDeassert e then [.fsDeassert] else []) := by
  funext b
  unfold sampleDeassert
  split
  · rw [runEvents_singleton]; rfl
  · rfl

/-- `SAMPLE` latches the levels and runs the events of its edge word (R111). -/
theorem sample_eq_runEvents (fs bc : Bool) (b : Block) :
    sample cap fs bc rx b = runEvents cap rx (edgeEvents (sampleEdgeWord b fs bc)) (latch fs bc b) := by
  simp only [sample, edgeEvents_eq, runEvents_append, ← sampleAssert_eq_runEvents, ← sampleByte_eq_runEvents,
    ← sampleDeassert_eq_runEvents]

end

/-! ### The pending bits -/

/-- The block with its two pending bits at these values. -/
def setPending (fs bc : Bool) (b : Block) : Block := { b with ipFs := fs, ipBc := bc }

section
variable (x y : Bool) (b : Block)

@[simp] theorem setPending_cur : (setPending x y b).cur = b.cur := rfl
@[simp] theorem setPending_fstate : (setPending x y b).fstate = b.fstate := rfl
@[simp] theorem setPending_self : setPending b.ipFs b.ipBc b = b := rfl
@[simp] theorem window_setPending (cap : Nat) : window cap (setPending x y b) = window cap b := rfl

/-- No bit is pending exactly where clearing both changes nothing. -/
theorem setPending_of_handlersMeetDeadline (h : handlersMeetDeadline b) : setPending false false b = b := by
  obtain ⟨hfs, hbc⟩ := h
  have hself := setPending_self b
  rwa [hfs, hbc] at hself

end

/-! ### The verdict of `FS_DEASSERT` -/

/-- R114 in `Receiving`, both verdicts at once. -/
theorem fsDeassert_receiving {b : Block} (h : b.fstate = .receiving) :
    fsDeassert b =
      { block := { b with ipFs := false, fstate := if b.cnt ≠ 0 ∧ b.cnt % 4 = 0 then .frameComplete else .idle }
        out := (if b.cnt ≠ 0 ∧ b.cnt % 4 = 0 then [] else [.label (.malformedFrame b.cnt)]) ++ partialByteLabel b.bitn } := by
  by_cases hc : b.cnt ≠ 0 ∧ b.cnt % 4 = 0
  · rw [fsDeassert_wellFormed b h hc, if_pos hc, if_pos hc]; rfl
  · rw [fsDeassert_malformed b h hc, if_neg hc, if_neg hc]; rfl

/-! ### The pending bits after events -/

/-- The source whose handler runs the event (R229). -/
def eventSource : BusEvent → Source
  | .fsAssert => .frameSelect
  | .byteClk => .byteClock
  | .fsDeassert => .frameSelect

/-- No event of the list belongs to the source. -/
def noEventOf (src : Source) (evs : List BusEvent) : Bool := evs.all fun ev => eventSource ev != src

/-- The effect `e` with its block's pending bits at these values. -/
def Effect.withPending (fs bc : Bool) (e : Effect) : Effect := { e with block := setPending fs bc e.block }

section
variable (cap : Nat) (rx : Rx) (x y : Bool)

/-- A handler clears its own source's bit, leaves the other's, and looks at neither (R232). -/
theorem runEvent_setPending (ev : BusEvent) (b : Block) :
    runEvent cap rx ev (setPending x y b) =
      (runEvent cap rx ev b).withPending (x && eventSource ev != .frameSelect) (y && eventSource ev != .byteClock) := by
  cases ev with
  | fsAssert =>
    simp only [runEvent, fsAssert_eq]
    cases x <;> cases y <;> rfl
  | byteClk =>
    by_cases h : b.fstate = .receiving
    · have h' : (setPending x y b).fstate = .receiving := h
      simp only [runEvent, byteClk_receiving cap rx _ h', byteClk_receiving cap rx _ h]
      cases x <;> cases y <;> cases rx <;> rfl
    · have h' : (setPending x y b).fstate ≠ .receiving := h
      simp only [runEvent, byteClk_ignored cap rx _ h', byteClk_ignored cap rx _ h]
      cases x <;> cases y <;> rfl
  | fsDeassert =>
    by_cases h : b.fstate = .receiving
    · have h' : (setPending x y b).fstate = .receiving := h
      simp only [runEvent, fsDeassert_receiving h', fsDeassert_receiving h]
      cases x <;> cases y <;> rfl
    · have h' : (setPending x y b).fstate ≠ .receiving := h
      simp only [runEvent, fsDeassert_ignored _ h', fsDeassert_ignored _ h]
      cases x <;> cases y <;> rfl

/-- Events one after another clear the bits of the sources that they belong to, and look at none. -/
theorem runEvents_setPending (evs : List BusEvent) (b : Block) :
    runEvents cap rx evs (setPending x y b) =
      (runEvents cap rx evs b).withPending (x && noEventOf .frameSelect evs) (y && noEventOf .byteClock evs) := by
  induction evs generalizing x y b with
  | nil => simp [runEvents, noEventOf, Effect.withPending, noEffect]
  | cons ev evs ih =>
    simp only [runEvents, andThen, runEvent_setPending, Effect.withPending, ih, noEventOf, List.all_cons, Bool.and_assoc]

/-- With no bit pending, none is pending after events. -/
theorem runEvents_handlersMeetDeadline (evs : List BusEvent) {b : Block} (h : handlersMeetDeadline b) :
    handlersMeetDeadline (runEvents cap rx evs b).block := by
  rw [← setPending_of_handlersMeetDeadline b h, runEvents_setPending]
  exact ⟨rfl, rfl⟩

end

/-- The detector's latch: the levels, and the pending bits of the sources whose edges it sees (R111, R230). -/
theorem latch_eq_setPending (fs bc : Bool) (b : Block) :
    latch fs bc b = setPending (b.ipFs || hasEdge .frameSelect (sampleEdgeWord b fs bc))
      (b.ipBc || hasEdge .byteClock (sampleEdgeWord b fs bc)) { b with fsQ := fs, bcQ := bc } := by
  cases hf : hasEdge .frameSelect (sampleEdgeWord b fs bc) <;> cases hb : hasEdge .byteClock (sampleEdgeWord b fs bc) <;>
    simp [latch, hf, hb, raisePending, setPending]

/-- The events of an edge word belong to the sources whose edges it shows. -/
theorem noEventOf_edgeEvents (src : Source) (e : BitVec 4) : noEventOf src (edgeEvents e) = !hasEdge src e := by
  revert e; cases src <;> decide

/-- R111, R86: with no bit pending, what each edge sets its event's handler clears, and `SAMPLE` is the levels and the events. -/
theorem sample_of_handlersMeetDeadline (cap : Nat) (fs bc : Bool) (rx : Rx) {b : Block} (h : handlersMeetDeadline b) :
    sample cap fs bc rx b =
      runEvents cap rx (edgeEvents (sampleEdgeWord b fs bc)) { b with fsQ := fs, bcQ := bc } := by
  have hclear (z : Bool) : (z && !z) = false := by cases z <;> rfl
  have hafter (c : Block) (hc : handlersMeetDeadline c) (evs : List BusEvent) :
      (runEvents cap rx evs c).withPending false false = runEvents cap rx evs c :=
    congrArg (fun d => { runEvents cap rx evs c with block := d })
      (setPending_of_handlersMeetDeadline _ (runEvents_handlersMeetDeadline cap rx evs hc))
  obtain ⟨hfs, hbc⟩ := h
  rw [sample_eq_runEvents, latch_eq_setPending, runEvents_setPending, hfs, hbc, Bool.false_or, Bool.false_or,
    noEventOf_edgeEvents, noEventOf_edgeEvents, hclear, hclear]
  exact hafter _ ⟨rfl, rfl⟩ _

end Sys2Proof.Machine
end

section
/-! Proofs about the edge detector (40_bus_events.md R111; 30_encoding.md R86): what a step of it runs, and
when it is late (R227). -/

namespace Sys2Proof.Machine

/-! ### When a step of the detector is late -/

/-- R229: an edge of `frame_select` is a change of level; the edge of `byte_clock` is a rise. -/
theorem hasEdge_sampleEdgeWord (b : Block) (fs bc : Bool) :
    hasEdge .frameSelect (sampleEdgeWord b fs bc) = (b.fsQ != fs) ∧
      hasEdge .byteClock (sampleEdgeWord b fs bc) = (!b.bcQ && bc) := by
  refine ⟨?_, selectsByteClk_eq ..⟩
  rw [hasEdge, sampleEdgeWord, selectsFsAssert_eq, selectsFsDeassert_eq]
  cases b.fsQ <;> cases fs <;> rfl

/-- An edge misses the deadline exactly when its source is still pending (R227). -/
theorem missedDeadline_ne_none_iff (b : Block) (fs bc : Bool) :
    missedDeadline b fs bc ≠ none ↔
      (b.fsQ ≠ fs ∧ b.ipFs = true) ∨ (b.bcQ = false ∧ bc = true ∧ b.ipBc = true) := by
  obtain ⟨hfs, hbc⟩ := hasEdge_sampleEdgeWord b fs bc
  simp only [missedDeadline, hfs, hbc, pending]
  split
  · next h => simp_all
  · split <;> simp_all [and_assoc]

theorem detect_fault_iff (cap : Nat) (fs bc : Bool) (rx : Rx) (b : Block) (s : State) :
    (∃ r, detect cap fs bc rx b s = .fault r) ↔ missedDeadline b fs bc ≠ none := by
  unfold detect
  split
  · next src h => simp [h]
  · next h => simp [h]

/-- With no bit pending, the detector's step runs the events of its edge word. -/
theorem detect_of_handlersMeetDeadline (cap : Nat) (fs bc : Bool) (rx : Rx) {b : Block} (s : State)
    (h : handlersMeetDeadline b) :
    detect cap fs bc rx b s =
      .next (withEffect s (runEvents cap rx (edgeEvents (sampleEdgeWord b fs bc)) { b with fsQ := fs, bcQ := bc })) := by
  rw [← sample_of_handlersMeetDeadline cap fs bc rx h]
  simp only [detect, missedDeadline_none h]

/-- Settles O20: the detector's step with no bit pending. -/
theorem sampleRunsTheEventsOfTheEdgeWord : Obligations.SampleRunsTheEventsOfTheEdgeWord :=
  fun s fs bc rx h => detect_of_handlersMeetDeadline Config.CAP fs bc rx s h

/-- Settles O21: the detector's step is late exactly when an edge's source is pending. -/
theorem sampleFaultsExactlyOnAPendingEdge : Obligations.SampleFaultsExactlyOnAPendingEdge :=
  fun s fs bc rx => (detect_fault_iff Config.CAP fs bc rx s.block s).trans (missedDeadline_ne_none_iff s.block fs bc)

/-- Settles O60: whatever a word decodes to is the detector's step on that word, whose old levels are the word's. -/
theorem everyEdgeWordRunsItsEvents : Obligations.EveryEdgeWordRunsItsEvents := by
  intro s e rx
  obtain ⟨-, -, -, hlevels⟩ := decodeEdge_word e
  have hword : sampleEdgeWord (recallLevels ⟨e.getLsbD 3, e.getLsbD 1⟩ s.block) (e.getLsbD 2) (e.getLsbD 0) = e := hlevels
  rw [exec_decodeEdge]
  refine ⟨fun h => ?_, (detect_fault_iff ..).trans (missedDeadline_ne_none_iff ..)⟩
  have hrun := detect_of_handlersMeetDeadline Config.CAP (e.getLsbD 2) (e.getLsbD 0) rx s
    (b := recallLevels ⟨e.getLsbD 3, e.getLsbD 1⟩ s.block) h
  rwa [hword] at hrun

end Sys2Proof.Machine
end

section
/-! Proofs of the window law (20_memory.md R58): the block of any capacity is the 4-byte shift register. -/

namespace Sys2Proof.Machine

/-! ### What can be observed of an effect -/

theorem observable_append (o p : List Output) : observable (o ++ p) = observable o ++ observable p := by
  induction o with
  | nil => rfl
  | cons x o ih =>
    cases x with
    | label c => cases c <;> simp [observable, ih]
    | _ => simp [observable, ih]

theorem observable_overrunLabel (cap cur : Nat) : observable (overrunLabel cap cur) = [] := by
  unfold overrunLabel; split <;> rfl

theorem observable_partialByteLabel (n : BitVec 3) : observable (partialByteLabel n) = partialByteLabel n := by
  unfold partialByteLabel; split <;> rfl

/-- The effect `e` on a block of capacity `cap` shows what the shift register does in `r`. -/
structure Shows (cap : Nat) (e : Effect) (r : View × List Output) : Prop where
  view_eq : view cap e.block = r.1
  out_eq : observable e.out = r.2

theorem Shows.noEffect (cap : Nat) (b : Block) : Shows cap (noEffect b) (view cap b, []) := ⟨rfl, rfl⟩

/-- One operation after another. -/
theorem Shows.andThen {cap : Nat} {e : Effect} {r : View × List Output} {f : Block → Effect}
    {g : View → View × List Output} (he : Shows cap e r) (hf : Shows cap (f e.block) (g (view cap e.block))) :
    Shows cap (andThen e f) ((g r.1).1, r.2 ++ (g r.1).2) where
  view_eq := by rw [andThen_block, hf.view_eq, he.view_eq]
  out_eq := by rw [andThen_out, observable_append, he.out_eq, hf.out_eq, he.view_eq]

/-- A block's view, its window written out. -/
theorem view_eq_of_window {cap : Nat} {c : Block} {w : Packet} (h : window cap c = w) :
    view cap c = { w := w, fstate := c.fstate, cnt := c.cnt, tx := c.tx, fsQ := c.fsQ, bcQ := c.bcQ, ipFs := c.ipFs,
                   ipBc := c.ipBc, sr := c.sr, bitn := c.bitn } := by
  rw [view, h]

/-! ### One event at a time -/

section
variable {cap : Nat} {b : Block}

theorem view_fsAssert (cap : Nat) (b : Block) : Shows cap (fsAssert cap b) (viewFsAssert (view cap b)) := by
  rw [fsAssert_eq]
  refine ⟨rfl, ?_⟩
  by_cases h : b.fstate = .frameComplete
  · rw [viewFsAssert, if_pos h, if_pos (show (view cap b).fstate = .frameComplete from h)]; rfl
  · rw [viewFsAssert, if_neg h, if_neg (show (view cap b).fstate ≠ .frameComplete from h)]; rfl

theorem view_byteClk (h8 : 8 ≤ cap) (hok : blockOk cap b) (rx : Rx) :
    Shows cap (byteClk cap rx b) (viewByteClk rx (view cap b)) := by
  by_cases h : b.fstate = .receiving
  · have hrx : receivedByte b rx = viewReceived (view cap b) rx := by cases rx <;> rfl
    rw [byteClk_receiving cap rx b h, relayByte_append h8 hok, viewByteClk,
      if_pos (show (view cap b).fstate = .receiving from h), ← hrx]
    exact ⟨view_eq_of_window (window_append h8 hok _ _ rfl rfl),
      congrArg (Output.emit b.tx :: ·) (observable_overrunLabel cap b.cur)⟩
  · rw [byteClk_ignored cap rx b h, viewByteClk, if_neg (show (view cap b).fstate ≠ .receiving from h)]
    exact ⟨rfl, rfl⟩

theorem view_fsDeassert (cap : Nat) (b : Block) : Shows cap (fsDeassert b) (viewFsDeassert (view cap b)) := by
  have hpartial : partialByteLabel b.bitn = if (view cap b).bitn = 0 then [] else [.label (.partialByte (view cap b).bitn)] := rfl
  simp only [viewFsDeassert, ← hpartial]
  by_cases h : b.fstate = .receiving
  · rw [if_pos (show (view cap b).fstate = .receiving from h)]
    by_cases hc : b.cnt ≠ 0 ∧ b.cnt % 4 = 0
    · rw [fsDeassert_wellFormed b h hc, if_pos (show (view cap b).cnt ≠ 0 ∧ (view cap b).cnt % 4 = 0 from hc)]
      exact ⟨rfl, observable_partialByteLabel _⟩
    · rw [fsDeassert_malformed b h hc, if_neg (show ¬((view cap b).cnt ≠ 0 ∧ (view cap b).cnt % 4 = 0) from hc)]
      exact ⟨rfl, congrArg (Output.label (.malformedFrame b.cnt) :: ·) (observable_partialByteLabel _)⟩
  · rw [fsDeassert_ignored b h, if_neg (show (view cap b).fstate ≠ .receiving from h)]
    exact ⟨rfl, rfl⟩

theorem view_bitTime (cap : Nat) (d : Bool) (b : Block) : Shows cap (bitTime d b) (viewBit d (view cap b)) := by
  by_cases h : b.fstate = .receiving
  · rw [bitTime, selected_eq, if_pos (decide_eq_true h), viewBit, if_pos (show (view cap b).fstate = .receiving from h)]
    exact ⟨rfl, rfl⟩
  · rw [bitTime, selected_eq, if_neg (by simpa using h), viewBit, if_neg (show (view cap b).fstate ≠ .receiving from h)]
    exact .noEffect cap b

theorem view_inject (h8 : 8 ≤ cap) (hok : blockOk cap b) (p : Packet) :
    Shows cap (inject cap p b) (viewInject p (view cap b)) := by
  by_cases h : b.fstate = .frameComplete
  · rw [inject_accepted cap b p h, viewInject, if_pos (show (view cap b).fstate = .frameComplete from h)]
    exact ⟨view_eq_of_window (window_writeWindow h8 hok p _ rfl rfl), rfl⟩
  · rw [inject_rejected cap b p h, viewInject, if_neg (show (view cap b).fstate ≠ .frameComplete from h)]
    exact ⟨rfl, rfl⟩

/-! ### The detector's step -/

/-- The shift register after the latch of `viewSample`. -/
theorem view_latch (cap : Nat) (fs bc : Bool) (b : Block) :
    view cap (latch fs bc b) =
      { view cap b with
        fsQ := fs, bcQ := bc, ipFs := b.ipFs || (!b.fsQ && fs) || (b.fsQ && !fs), ipBc := b.ipBc || (!b.bcQ && bc) } := by
  simp only [latch_eq_setPending, hasEdge, sampleEdgeWord, selectsFsAssert_eq, selectsFsDeassert_eq, selectsByteClk_eq,
    Bool.or_assoc]
  rfl

theorem view_sampleAssert (cap : Nat) (e : BitVec 4) (b : Block) :
    Shows cap (sampleAssert cap e b) (if selectsFsAssert e then viewFsAssert (view cap b) else (view cap b, [])) := by
  unfold sampleAssert
  split
  · exact view_fsAssert cap b
  · exact .noEffect cap b

theorem view_sampleByte (h8 : 8 ≤ cap) (hok : blockOk cap b) (e : BitVec 4) (rx : Rx) :
    Shows cap (sampleByte cap e rx b) (if selectsByteClk e then viewByteClk rx (view cap b) else (view cap b, [])) := by
  unfold sampleByte
  split
  · exact view_byteClk h8 hok rx
  · exact .noEffect cap b

theorem view_sampleDeassert (cap : Nat) (e : BitVec 4) (b : Block) :
    Shows cap (sampleDeassert e b) (if selectsFsDeassert e then viewFsDeassert (view cap b) else (view cap b, [])) := by
  unfold sampleDeassert
  split
  · exact view_fsDeassert cap b
  · exact .noEffect cap b

theorem sampleAssert_ok (e : BitVec 4) (hok : blockOk cap b) : blockOk cap (sampleAssert cap e b).block := by
  unfold sampleAssert
  split
  · exact fsAssert_ok hok
  · exact hok

/-- The three `if`s one after another, each an `if` of the shift register (R111). -/
theorem view_sample (h8 : 8 ≤ cap) (hok : blockOk cap b) (fs bc : Bool) (rx : Rx) :
    Shows cap (sample cap fs bc rx b) (viewSample fs bc rx (view cap b)) := by
  have hassert := view_sampleAssert cap (sampleEdgeWord b fs bc) (latch fs bc b)
  have hbyte := view_sampleByte h8 (sampleAssert_ok (sampleEdgeWord b fs bc) (latch_ok fs bc hok)) (sampleEdgeWord b fs bc) rx
  have hdeassert := view_sampleDeassert cap (sampleEdgeWord b fs bc)
  have hall := (hassert.andThen (g := fun v => if selectsByteClk (sampleEdgeWord b fs bc) then viewByteClk rx v else (v, []))
    hbyte).andThen (g := fun v => if selectsFsDeassert (sampleEdgeWord b fs bc) then viewFsDeassert v else (v, []))
    (hdeassert _)
  simp only [view_latch, sampleEdgeWord, selectsFsAssert_eq, selectsFsDeassert_eq, selectsByteClk_eq] at hall
  exact hall

/-- R58, one operation at a time. -/
theorem view_blockEffect (h8 : 8 ≤ cap) (hok : blockOk cap b) (op : BlockOp) :
    Shows cap (blockEffect cap op b) (viewEffect op (view cap b)) := by
  cases op with
  | reset => exact ⟨rfl, rfl⟩
  | fsAssert => exact view_fsAssert cap b
  | byteClk rx => exact view_byteClk h8 hok rx
  | fsDeassert => exact view_fsDeassert cap b
  | sample fs bc rx => exact view_sample h8 hok fs bc rx
  | edge e rx => exact view_sample h8 (recallLevels_ok _ hok) _ _ rx
  | bit d => exact view_bitTime cap d b
  | poll => exact ⟨rfl, rfl⟩
  | extract => exact ⟨rfl, rfl⟩
  | inject p => exact view_inject h8 hok p
  | hostRsvd => exact ⟨rfl, rfl⟩

/-- R58 over runs: what is observed is what the shift register puts out. -/
theorem view_runBlock (h8 : 8 ≤ cap) (ops : List BlockOp) (hok : blockOk cap b) :
    view cap (runBlock cap ops b).1 = (runView ops (view cap b)).1 ∧
      observable (runBlock cap ops b).2 = (runView ops (view cap b)).2 := by
  induction ops generalizing b with
  | nil => exact ⟨rfl, rfl⟩
  | cons op ops ih =>
    obtain ⟨hview, hout⟩ := view_blockEffect h8 hok op
    obtain ⟨hviews, houts⟩ := ih (blockEffect_ok (by omega) op hok)
    simp only [runBlock, runView, observable_append, hout, hviews, houts, hview, and_self]

end

/-- Settles O46: `view_blockEffect`. -/
theorem blockIsAFourByteShiftRegister : Obligations.BlockIsAFourByteShiftRegister := by
  intro cap op b h8 hok
  obtain ⟨hview, hout⟩ := view_blockEffect h8 hok op
  exact ⟨hview, hout⟩

/-- Settles O47: both runs are the same run of the shift register. -/
theorem capacityIsNotObservable : Obligations.CapacityIsNotObservable := by
  intro cap cap' ops b b' h8 h8' hok hok' hviews
  obtain ⟨hview, hout⟩ := view_runBlock h8 ops hok
  obtain ⟨hview', hout'⟩ := view_runBlock h8' ops hok'
  rw [hview, hout, hview', hout', hviews]
  exact ⟨rfl, rfl⟩

end Sys2Proof.Machine
end

section
/-! What an operation of the block can do to the buffer, the cursor, the frame state, the levels and the outputs, at any
capacity. -/

namespace Sys2Proof.Machine

/-! ### At most one byte -/

/-- The effect `e` on `b` emits nothing and leaves the buffer and the cursor. -/
structure Quiet (b : Block) (e : Effect) : Prop where
  emitted_eq : emitted e.out = []
  buf_eq : e.block.buf = b.buf
  cur_eq : e.block.cur = b.cur

/-- The effect `e` on `b` is quiet, or it emits one byte, stores one at the cursor and advances the cursor (R113). -/
def OneByteOrNone (cap : Nat) (b : Block) (e : Effect) : Prop :=
  Quiet b e ∨ ∃ v x, emitted e.out = [x] ∧ e.block.buf = appendByte cap b v ∧ e.block.cur = nextCursor cap b.cur

section
variable {cap : Nat} {b : Block} {e : Effect} {f : Block → Effect}

theorem Quiet.noEffect (b : Block) : Quiet b (noEffect b) := ⟨rfl, rfl, rfl⟩

theorem OneByteOrNone.after_quiet (he : Quiet b e) (hf : OneByteOrNone cap e.block (f e.block)) :
    OneByteOrNone cap b (andThen e f) := by
  obtain hq | ⟨v, x, hout, hbuf, hcur⟩ := hf
  · exact .inl ⟨by rw [andThen_out, emitted_append, he.emitted_eq, hq.emitted_eq]; rfl,
      hq.buf_eq.trans he.buf_eq, hq.cur_eq.trans he.cur_eq⟩
  · refine .inr ⟨v, x, by rw [andThen_out, emitted_append, he.emitted_eq, hout]; rfl, ?_, ?_⟩
    · rw [andThen_block, hbuf, appendByte, he.buf_eq, he.cur_eq]; rfl
    · rw [andThen_block, hcur, he.cur_eq]

theorem OneByteOrNone.then_quiet (he : OneByteOrNone cap b e) (hf : Quiet e.block (f e.block)) :
    OneByteOrNone cap b (andThen e f) := by
  obtain hq | ⟨v, x, hout, hbuf, hcur⟩ := he
  · exact .inl ⟨by rw [andThen_out, emitted_append, hq.emitted_eq, hf.emitted_eq]; rfl,
      hf.buf_eq.trans hq.buf_eq, hf.cur_eq.trans hq.cur_eq⟩
  · exact .inr ⟨v, x, by rw [andThen_out, emitted_append, hout, hf.emitted_eq]; rfl,
      hf.buf_eq.trans hbuf, hf.cur_eq.trans hcur⟩

end

section
variable (cap : Nat) (rx : Rx) (b : Block)

theorem fsAssert_quiet : Quiet b (fsAssert cap b) := by
  rw [fsAssert_eq]
  refine ⟨?_, rfl, rfl⟩
  dsimp only
  split <;> rfl

theorem fsDeassert_quiet : Quiet b (fsDeassert b) := by
  by_cases h : b.fstate = .receiving
  · rw [fsDeassert_receiving h]
    refine ⟨?_, rfl, rfl⟩
    rw [emitted_append, emitted_partialByteLabel, List.append_nil]
    split <;> rfl
  · rw [fsDeassert_ignored b h]
    exact ⟨rfl, rfl, rfl⟩

theorem bitTime_quiet (d : Bool) : Quiet b (bitTime d b) := by
  unfold bitTime
  split
  · exact ⟨rfl, rfl, rfl⟩
  · exact .noEffect b

theorem byteClk_oneByteOrNone : OneByteOrNone cap b (byteClk cap rx b) := by
  by_cases h : b.fstate = .receiving
  · rw [byteClk_receiving cap rx b h]
    exact .inr ⟨receivedByte b rx, b.tx, congrArg (b.tx :: ·) (emitted_overrunLabel cap b.cur), rfl, rfl⟩
  · rw [byteClk_ignored cap rx b h]
    exact .inl ⟨rfl, rfl, rfl⟩

/-- A step of the detector runs `BYTE_CLK` once at most, between two quiet events (R111). -/
theorem sample_oneByteOrNone (fs bc : Bool) : OneByteOrNone cap b (sample cap fs bc rx b) := by
  have hassert : Quiet b (sampleAssert cap (sampleEdgeWord b fs bc) (latch fs bc b)) := by
    unfold sampleAssert
    split
    · obtain ⟨hout, hbuf, hcur⟩ := fsAssert_quiet cap (latch fs bc b)
      exact ⟨hout, hbuf.trans (latch_buf b fs bc), hcur.trans (latch_cur b fs bc)⟩
    · exact ⟨rfl, latch_buf b fs bc, latch_cur b fs bc⟩
  have hbyte (c : Block) : OneByteOrNone cap c (sampleByte cap (sampleEdgeWord b fs bc) rx c) := by
    unfold sampleByte
    split
    · exact byteClk_oneByteOrNone cap rx c
    · exact .inl (.noEffect c)
  have hdeassert (c : Block) : Quiet c (sampleDeassert (sampleEdgeWord b fs bc) c) := by
    unfold sampleDeassert
    split
    · exact fsDeassert_quiet c
    · exact .noEffect c
  exact (OneByteOrNone.after_quiet hassert (hbyte _)).then_quiet (hdeassert _)

/-! ### The frame state and the levels -/

@[simp] theorem fsAssert_fstate : (fsAssert cap b).block.fstate = .receiving := rfl

@[simp] theorem byteClk_fstate : (byteClk cap rx b).block.fstate = b.fstate := by
  by_cases h : b.fstate = .receiving
  · rw [byteClk_receiving cap rx b h]
  · rw [byteClk_ignored cap rx b h]

theorem fsDeassert_fstate_ne : (fsDeassert b).block.fstate ≠ .receiving := by
  by_cases h : b.fstate = .receiving
  · rw [fsDeassert_receiving h]
    dsimp only
    split <;> exact nofun
  · rw [fsDeassert_ignored b h]
    exact h

theorem runEvent_detectorUnchanged (ev : BusEvent) : detectorUnchanged b (runEvent cap rx ev b).block := by
  cases ev with
  | fsAssert => exact ⟨rfl, rfl⟩
  | byteClk =>
    by_cases h : b.fstate = .receiving
    · rw [runEvent, byteClk_receiving cap rx b h]; exact ⟨rfl, rfl⟩
    · rw [runEvent, byteClk_ignored cap rx b h]; exact ⟨rfl, rfl⟩
  | fsDeassert =>
    by_cases h : b.fstate = .receiving
    · rw [runEvent, fsDeassert_receiving h]; exact ⟨rfl, rfl⟩
    · rw [runEvent, fsDeassert_ignored b h]; exact ⟨rfl, rfl⟩

/-- An event by itself does not move the detector's memory (R26). -/
theorem runEvents_detectorUnchanged (evs : List BusEvent) : detectorUnchanged b (runEvents cap rx evs b).block := by
  induction evs generalizing b with
  | nil => exact ⟨rfl, rfl⟩
  | cons ev evs ih =>
    obtain ⟨hfs, hbc⟩ := runEvent_detectorUnchanged cap rx b ev
    obtain ⟨hfs', hbc'⟩ := ih (runEvent cap rx ev b).block
    exact ⟨hfs'.trans hfs, hbc'.trans hbc⟩

theorem sample_fsQ (fs bc : Bool) : (sample cap fs bc rx b).block.fsQ = fs := by
  rw [sample_eq_runEvents, (runEvents_detectorUnchanged ..).1, latch_fsQ]

/-- After a step of the detector the block is selected if the step asserted, or if it was selected before and the step did not
deassert (R111). -/
theorem sample_fstate_receiving_iff (fs bc : Bool) :
    (sample cap fs bc rx b).block.fstate = .receiving ↔
      (b.fsQ && !fs) = false ∧ ((!b.fsQ && fs) = true ∨ b.fstate = .receiving) := by
  have hassert : (sampleAssert cap (sampleEdgeWord b fs bc) (latch fs bc b)).block.fstate = .receiving ↔
      (!b.fsQ && fs) = true ∨ b.fstate = .receiving := by
    simp only [sampleAssert, sampleEdgeWord, selectsFsAssert_eq]
    split
    · next h => simp [h]
    · next h => simp [h]
  have hbyte (c : Block) : (sampleByte cap (sampleEdgeWord b fs bc) rx c).block.fstate = c.fstate := by
    unfold sampleByte
    split
    · exact byteClk_fstate cap rx c
    · rfl
  have hdeassert (c : Block) : (sampleDeassert (sampleEdgeWord b fs bc) c).block.fstate = .receiving ↔
      (b.fsQ && !fs) = false ∧ c.fstate = .receiving := by
    simp only [sampleDeassert, sampleEdgeWord, selectsFsDeassert_eq]
    split
    · next h => simp [h, fsDeassert_fstate_ne c]
    · next h => simp [h]
  simp only [sample, andThen_block]
  rw [hdeassert, hbyte, hassert]

/-! ### No event drives the actuator -/

theorem runEvent_actuatorCalls (ev : BusEvent) : actuatorCalls (runEvent cap rx ev b).out = [] := by
  have hoverrun : actuatorCalls (overrunLabel cap b.cur) = [] := by unfold overrunLabel; split <;> rfl
  have hpartial : actuatorCalls (partialByteLabel b.bitn) = [] := by unfold partialByteLabel; split <;> rfl
  cases ev with
  | fsAssert =>
    rw [runEvent, fsAssert_eq]
    dsimp only
    split <;> rfl
  | byteClk =>
    by_cases h : b.fstate = .receiving
    · rw [runEvent, byteClk_receiving cap rx b h]; exact hoverrun
    · rw [runEvent, byteClk_ignored cap rx b h]; rfl
  | fsDeassert =>
    by_cases h : b.fstate = .receiving
    · rw [runEvent, fsDeassert_receiving h, actuatorCalls_append, hpartial, List.append_nil]
      split <;> rfl
    · rw [runEvent, fsDeassert_ignored b h]; rfl

theorem runEvents_actuatorCalls (evs : List BusEvent) : actuatorCalls (runEvents cap rx evs b).out = [] := by
  induction evs generalizing b with
  | nil => rfl
  | cons ev evs ih => rw [runEvents, andThen_out, actuatorCalls_append, runEvent_actuatorCalls, ih, List.nil_append]

end

/-! ### The pending bits -/

/-- No operation of the block leaves a bit pending where none was (R27). -/
theorem blockEffect_handlersMeetDeadline (cap : Nat) (op : BlockOp) {b : Block} (h : handlersMeetDeadline b) :
    handlersMeetDeadline (blockEffect cap op b).block := by
  have hevent (rx : Rx) (ev : BusEvent) : handlersMeetDeadline (runEvent cap rx ev b).block := by
    rw [← runEvents_singleton]
    exact runEvents_handlersMeetDeadline cap rx _ h
  have hsample (fs bc : Bool) (rx : Rx) (c : Block) (hc : handlersMeetDeadline c) :
      handlersMeetDeadline (sample cap fs bc rx c).block := by
    rw [sample_of_handlersMeetDeadline cap fs bc rx hc]
    exact runEvents_handlersMeetDeadline cap rx _ hc
  cases op with
  | reset => exact ⟨rfl, rfl⟩
  | fsAssert => exact hevent .shifted .fsAssert
  | byteClk rx => exact hevent rx .byteClk
  | fsDeassert => exact hevent .shifted .fsDeassert
  | sample fs bc rx => exact hsample fs bc rx b h
  | edge e rx => exact hsample _ _ rx _ h
  | bit d =>
    simp only [blockEffect, bitTime]
    split <;> exact h
  | poll => exact h
  | extract => exact h
  | inject p =>
    simp only [blockEffect, inject]
    split <;> exact h
  | hostRsvd => exact h

end Sys2Proof.Machine
end

section
/-! What an operation can do to the whole node, said once for each kind: `RESET`, the handler context, the main loop
(60_exceptions.md R235); and what a step can do that leaves no fault standing. -/

namespace Sys2Proof.Machine

/-- Every operation is `RESET`, one of the handler context or one of the main loop (R235). -/
theorem reset_or_handlerOp_or_mainLoopOp (i : Instr) : i = .reset ∨ handlerOp i = true ∨ mainLoopOp i = true := by
  cases i with
  | reset => exact .inl rfl
  | sample | fsAssert | byteClk | fsDeassert | bit => exact .inr (.inl rfl)
  | _ => exact .inr (.inr rfl)

theorem restUnchanged_withEffect (s : State) (e : Effect) : restUnchanged s (withEffect s e) :=
  ⟨rfl, rfl, rfl, rfl, rfl, rfl⟩

/-! ### The handler context -/

/-- The block that an operation starts from: the levels are those of its edge word, where it is one (R85; log 31). -/
def levelsBefore (i : Instr) (b : Block) : Block :=
  match wordLevels i with
  | some l => recallLevels l b
  | none => b

/-- Where the word says what the detector remembers, the levels are the detector's. -/
theorem levelsBefore_of_wordAgrees {i : Instr} {b : Block} (h : wordAgrees i b) : levelsBefore i b = b := by
  unfold levelsBefore
  split
  · next l hl =>
    obtain ⟨hfs, hbc⟩ := h l hl
    rw [recallLevels, hfs, hbc]
  · rfl

@[simp] theorem levelsBefore_buf (i : Instr) (b : Block) : (levelsBefore i b).buf = b.buf := by
  unfold levelsBefore; split <;> rfl

@[simp] theorem levelsBefore_cur (i : Instr) (b : Block) : (levelsBefore i b).cur = b.cur := by
  unfold levelsBefore; split <;> rfl

/-- What an operation of the handler context does to the block `b` of the node studied by itself. -/
inductive HandlerEffect (b : Block) : Instr → Effect → Prop
  | detector {i : Instr} (fs bc : Bool) (rx : Rx) : HandlerEffect b i (sample Config.CAP fs bc rx (levelsBefore i b))
  | fsAssert : HandlerEffect b .fsAssert (Machine.fsAssert Config.CAP b)
  | byteClk (rx : Rx) : HandlerEffect b (.byteClk rx) (Machine.byteClk Config.CAP rx b)
  | fsDeassert : HandlerEffect b .fsDeassert (Machine.fsDeassert b)
  | bit (d : Bool) : HandlerEffect b (.bit d) (bitTime d b)

/-- An operation of the handler context that goes on changes the block and the outputs alone. -/
theorem exec_handlerOp_next {i : Instr} {s t : State} (hi : handlerOp i = true) (h : exec i s = .next t) :
    ∃ e, t = withEffect s e ∧ HandlerEffect s.block i e := by
  cases i with
  | sample fs bc rx old =>
    cases old with
    | none =>
      obtain ⟨-, rfl⟩ := detect_next h
      exact ⟨_, rfl, .detector (i := .sample fs bc rx none) fs bc rx⟩
    | some l =>
      obtain ⟨-, rfl⟩ := detect_next h
      obtain ⟨h3, h2, h1, h0⟩ := edgeWord_bits l.fs fs l.bc bc
      refine ⟨_, rfl, ?_⟩
      rw [h3, h2, h1, h0]
      exact .detector (i := .sample fs bc rx (some l)) fs bc rx
  | fsAssert clock =>
    cases clock with
    | none => cases h; exact ⟨_, rfl, .fsAssert⟩
    | some c =>
      obtain ⟨-, rfl⟩ := detect_next h
      refine ⟨_, rfl, ?_⟩
      cases c <;> exact .detector (i := .fsAssert (some _)) _ _ _
  | byteClk rx select =>
    cases select with
    | none => cases h; exact ⟨_, rfl, .byteClk rx⟩
    | some fs =>
      obtain ⟨-, rfl⟩ := detect_next h
      refine ⟨_, rfl, ?_⟩
      cases fs <;> exact .detector (i := .byteClk rx (some _)) _ _ _
  | fsDeassert clock =>
    cases clock with
    | none => cases h; exact ⟨_, rfl, .fsDeassert⟩
    | some c =>
      obtain ⟨-, rfl⟩ := detect_next h
      refine ⟨_, rfl, ?_⟩
      cases c <;> exact .detector (i := .fsDeassert (some _)) _ _ _
  | bit d => cases h; exact ⟨_, rfl, .bit d⟩
  | _ => cases hi

/-- With no bit pending, an operation of the handler context answers next. -/
theorem exec_handlerOp_of_handlersMeetDeadline {i : Instr} {s : State} (hi : handlerOp i = true)
    (h : handlersMeetDeadline s.block) : ∃ t, exec i s = .next t := by
  have hdetect (fs bc : Bool) (rx : Rx) (l : Levels) : ∃ t, detect Config.CAP fs bc rx (recallLevels l s.block) s = .next t :=
    ⟨_, detect_of_handlersMeetDeadline _ fs bc rx s (b := recallLevels l s.block) h⟩
  cases i with
  | sample fs bc rx old =>
    cases old with
    | none => exact ⟨_, detect_of_handlersMeetDeadline _ fs bc rx s h⟩
    | some l => exact hdetect _ _ rx _
  | fsAssert clock =>
    cases clock with
    | none => exact ⟨_, rfl⟩
    | some c => exact hdetect _ _ _ _
  | byteClk rx select =>
    cases select with
    | none => exact ⟨_, rfl⟩
    | some fs => exact hdetect _ _ rx _
  | fsDeassert clock =>
    cases clock with
    | none => exact ⟨_, rfl⟩
    | some c => exact hdetect _ _ _ _
  | bit d => exact ⟨_, rfl⟩
  | _ => cases hi

/-- Nothing but an operation of the handler context can miss the deadline. -/
theorem handlerOp_of_exec_fault {i : Instr} {s : State} {r : Fault} (h : exec i s = .fault r) : handlerOp i = true := by
  cases i with
  | encCmd cmd red green blue =>
    simp only [exec, execEncCmd] at h
    split at h <;> cases h
  | encSensor weight =>
    simp only [exec, execEncSensor] at h
    split at h <;> cases h
  | sample | fsAssert | byteClk | fsDeassert | bit => rfl
  | _ => cases h

section
variable {b : Block} {i : Instr} {e : Effect}

theorem HandlerEffect.oneByteOrNone (h : HandlerEffect b i e) : OneByteOrNone Config.CAP b e := by
  cases h with
  | detector fs bc rx =>
    have hsample := sample_oneByteOrNone Config.CAP rx (levelsBefore i b) fs bc
    obtain ⟨hout, hbuf, hcur⟩ | ⟨v, x, hout, hbuf, hcur⟩ := hsample
    · exact .inl ⟨hout, hbuf.trans (levelsBefore_buf i b), hcur.trans (levelsBefore_cur i b)⟩
    · refine .inr ⟨v, x, hout, ?_, ?_⟩
      · rw [hbuf, appendByte, levelsBefore_buf, levelsBefore_cur, appendByte]
      · rw [hcur, levelsBefore_cur]
  | fsAssert => exact .inl (fsAssert_quiet _ b)
  | byteClk rx => exact byteClk_oneByteOrNone _ rx b
  | fsDeassert => exact .inl (fsDeassert_quiet b)
  | bit d => exact .inl (bitTime_quiet b d)

theorem HandlerEffect.actuatorCalls_eq (h : HandlerEffect b i e) : actuatorCalls e.out = [] := by
  cases h with
  | detector fs bc rx => rw [sample_eq_runEvents]; exact runEvents_actuatorCalls ..
  | fsAssert => exact runEvent_actuatorCalls _ .shifted b .fsAssert
  | byteClk rx => exact runEvent_actuatorCalls _ rx b .byteClk
  | fsDeassert => exact runEvent_actuatorCalls Config.CAP .shifted b .fsDeassert
  | bit d => unfold bitTime; split <;> rfl

end

/-! ### The main loop -/

/-- What a step of the main loop, the controller's included, can do to the node. -/
structure MainLoopEffect (s t : State) : Prop where
  block : t.block = s.block ∨ ∃ p, t.block = (inject Config.CAP p s.block).block
  emitted_eq : emitted t.out = []
  /-- The actuator is driven with the channels of a valid window, once, or not at all (R182). -/
  actuator : (t.actuator = s.actuator ∧ actuatorCalls t.out = []) ∨
    (s.block.fstate = .frameComplete ∧ t.actuator = channels (decodeCommand (window Config.CAP s.block)) ∧
      actuatorCalls t.out = [t.actuator])
  missed : t.missed = s.missed
  turns : t.turns = s.turns
  ticks : t.ticks = s.ticks

/-- An operation that puts out results alone. -/
theorem MainLoopEffect.of_withOutput (s : State) {o : List Output} (he : emitted o = []) (ha : actuatorCalls o = []) :
    MainLoopEffect s (withOutput s o) := ⟨.inl rfl, he, .inl ⟨rfl, ha⟩, rfl, rfl, rfl⟩

theorem emitted_inject (cap : Nat) (p : Packet) (b : Block) : emitted (inject cap p b).out = [] := by
  unfold inject; split <;> rfl

theorem actuatorCalls_inject (cap : Nat) (p : Packet) (b : Block) : actuatorCalls (inject cap p b).out = [] := by
  unfold inject; split <;> rfl

theorem injectState_mainLoopEffect (p : Packet) (s : State) : MainLoopEffect s (injectState Config.CAP p s) :=
  ⟨.inr ⟨p, rfl⟩, emitted_inject .., .inl ⟨rfl, actuatorCalls_inject ..⟩, rfl, rfl, rfl⟩

theorem service_mainLoopEffect (w : Byte) (s : State) : MainLoopEffect s (service Config.CAP w s) := by
  unfold service
  split
  · next h =>
    rw [frameCompleteFlag_eq, decide_eq_true_eq] at h
    refine ⟨.inr ⟨_, rfl⟩, ?_, .inr ⟨h, rfl, ?_⟩, rfl, rfl, rfl⟩
    · simp [poll, extract, emitted, emitted_inject]
    · simp [poll, extract, actuatorCalls, actuatorCalls_inject]
  · exact ⟨.inl rfl, rfl, .inl ⟨rfl, rfl⟩, rfl, rfl, rfl⟩

theorem exec_mainLoopEffect {i : Instr} {s t : State} (hi : mainLoopOp i = true) (h : exec i s = .next t) :
    MainLoopEffect s t := by
  cases i with
  | poll => cases h; exact .of_withOutput s rfl rfl
  | extract => cases h; exact .of_withOutput s rfl rfl
  | inject p => cases h; exact injectState_mainLoopEffect p s
  | hostRsvd => cases h; exact .of_withOutput s rfl rfl
  | encCmd cmd red green blue =>
    simp only [exec, execEncCmd] at h
    split at h <;> cases h
    exact .of_withOutput s rfl rfl
  | decCmd p => cases h; exact .of_withOutput s rfl rfl
  | encSensor weight =>
    simp only [exec, execEncSensor] at h
    split at h <;> cases h
    exact .of_withOutput s rfl rfl
  | decSensor p => cases h; exact .of_withOutput s rfl rfl
  | service w => cases h; exact service_mainLoopEffect w s
  | _ => cases hi

theorem controllerStep_mainLoopEffect (r : Byte) (s : State) : MainLoopEffect s (controllerStep Config.CAP r s) := by
  unfold controllerStep
  split
  · exact ⟨.inl rfl, rfl, .inl ⟨rfl, rfl⟩, rfl, rfl, rfl⟩
  · unfold decodeAndApply
    dsimp only
    split
    · next h =>
      rw [frameCompleteFlag_eq, decide_eq_true_eq] at h
      exact ⟨.inl rfl, rfl, .inr ⟨h, rfl, rfl⟩, rfl, rfl, rfl⟩
    · exact ⟨.inl rfl, rfl, .inl ⟨rfl, rfl⟩, rfl, rfl, rfl⟩
  · refine ⟨.inr ⟨encodeSensor r, rfl⟩, ?_, .inl ⟨rfl, ?_⟩, rfl, rfl, rfl⟩
    · simp [injectNextPacket, emitted_inject]
    · simp [injectNextPacket, actuatorCalls_inject]

/-! ### Any operation -/

/-- An operation takes no turn and no time, and only `RESET` ends a fault. -/
theorem exec_next_rest {i : Instr} {s t : State} (h : exec i s = .next t) :
    t.turns = s.turns ∧ t.ticks = s.ticks ∧ (s.missed = none → t.missed = none) := by
  obtain rfl | hi | hi := reset_or_handlerOp_or_mainLoopOp i
  · cases h; exact ⟨rfl, rfl, fun _ => rfl⟩
  · obtain ⟨e, rfl, -⟩ := exec_handlerOp_next hi h; exact ⟨rfl, rfl, id⟩
  · have hm := exec_mainLoopEffect hi h; exact ⟨hm.turns, hm.ticks, hm.missed.trans⟩

/-- With no bit pending, none is pending after an operation of the block. -/
theorem OneBlockOp.handlersMeetDeadline {b c : Block} (hop : OneBlockOp b c) (h : handlersMeetDeadline b) :
    handlersMeetDeadline c := by
  obtain rfl | ⟨op, rfl⟩ := hop
  · exact h
  · exact blockEffect_handlersMeetDeadline _ op h

theorem OneBlockOp.blockOk {b c : Block} (hop : OneBlockOp b c) (h : blockOk Config.CAP b) : blockOk Config.CAP c := by
  obtain rfl | ⟨op, rfl⟩ := hop
  · exact h
  · exact blockEffect_ok cap_pos op h

/-- An operation keeps the invariant. -/
theorem exec_inv {i : Instr} {s t : State} (hinv : s.Inv) (h : exec i s = .next t) : t.Inv := (exec_block h).blockOk hinv

/-! ### A step that leaves no fault standing -/

/-- The state that a turn's operation starts from: the node as `s` has it, but for the pending bits, which the end of a fault
clears. -/
structure TurnFrom (s u : State) : Prop where
  block : ∃ x y, u.block = setPending x y s.block
  controller : u.controller = s.controller
  actuator : u.actuator = s.actuator

theorem turnFrom_takeTurn (s : State) (rest : List Turn) : TurnFrom s (takeTurn s rest) := ⟨⟨_, _, rfl⟩, rfl, rfl⟩

theorem turnFrom_premiseAgain (s : State) (rest : List Turn) : TurnFrom s (premiseAgain (takeTurn s rest)) :=
  ⟨⟨false, false, rfl⟩, rfl, rfl⟩

/-- A step after which no fault stands is idle, or one operation or controller step from the node as it is (R227, R60). -/
theorem step_sound {s t : State} (h : step s = .next t) (ht : t.missed = none) :
    t = idleStep s ∨ ∃ u, TurnFrom s u ∧ ((∃ i, exec i u = .next t) ∨ ∃ r, t = controllerStep Config.CAP r u) := by
  have hguard {ends handler : Bool} {f : State → Host.Outcome State Fault Refusal} {rest : List Turn}
      (hg : guardStep 0 Config.CAP ends handler f (takeTurn s rest) = .next t) : ∃ u, TurnFrom s u ∧ f u = .next t := by
    obtain ⟨u, rfl | rfl, hu⟩ := guardStep_sound hg ht
    · exact ⟨_, turnFrom_takeTurn s rest, hu⟩
    · exact ⟨_, turnFrom_premiseAgain s rest, hu⟩
  cases hturns : s.turns with
  | nil =>
    rw [step_idle hturns] at h
    cases h
    exact .inl rfl
  | cons tn rest =>
    rw [step_turn hturns] at h
    refine .inr ?_
    obtain ⟨reset, act⟩ := tn
    cases reset with
    | true => exact ⟨_, turnFrom_takeTurn s rest, .inl ⟨.reset, h⟩⟩
    | false =>
      cases act with
      | word port bytes =>
        simp only [runTurn, runAct, Bool.false_eq_true, if_false] at h
        split at h
        · next i _ =>
          obtain ⟨u, hu, hi⟩ := hguard h
          exact ⟨u, hu, .inl ⟨i, hi⟩⟩
        · cases h
      | pins fsPin bcPin rx =>
        obtain ⟨u, hu, hi⟩ := hguard h
        exact ⟨u, hu, .inl ⟨_, hi⟩⟩
      | controller r =>
        obtain ⟨u, hu, hi⟩ := hguard (f := fun u => .next (controllerStep Config.CAP r u)) h
        cases hi
        exact ⟨u, hu, .inr ⟨r, rfl⟩⟩
      | overlappingEdge src =>
        cases h
        simp [overlap] at ht

end Sys2Proof.Machine
end

section
/-! Proofs about the step (20_memory.md R60) and the fault state of a missed deadline (60_exceptions.md R227; U2). -/

namespace Sys2Proof.Machine

/-! ### One turn -/

/-- A turn that brings a word runs the operation that the word decodes to. -/
theorem step_word {s : State} {port : Port} {bytes : List Byte} {rest : List Turn} {i : Instr}
    (hturn : s.turns = ⟨false, .word port bytes⟩ :: rest) (hdec : decode port bytes = .ok i) :
    step s = runOp i (takeTurn s rest) := by
  simp only [step_turn hturn, runTurn, runAct, hdec, Bool.false_eq_true, if_false]

theorem step_reject {s : State} {port : Port} {bytes : List Byte} {rest : List Turn} {r : Reject}
    (hturn : s.turns = ⟨false, .word port bytes⟩ :: rest) (hdec : decode port bytes = .reject r) :
    step s = .refused (.undecodable r) := by
  simp only [step_turn hturn, runTurn, runAct, hdec, Bool.false_eq_true, if_false]

theorem step_pins {s : State} {fsPin bcPin : Bool} {rx : Rx} {rest : List Turn}
    (hturn : s.turns = ⟨false, .pins fsPin bcPin rx⟩ :: rest) :
    step s = runOp (.sample (logicalFs fsPin) (logicalBc bcPin) rx) (takeTurn s rest) :=
  step_turn hturn

theorem step_overlappingEdge {s : State} {src : Source} {rest : List Turn}
    (hturn : s.turns = ⟨false, .overlappingEdge src⟩ :: rest) :
    step s = .next (overlap 0 Config.CAP src (takeTurn s rest)) :=
  step_turn hturn

theorem step_reset {s : State} {act : Act} {rest : List Turn} (hturn : s.turns = ⟨true, act⟩ :: rest) :
    step s = .next (resetState (takeTurn s rest)) :=
  step_turn hturn

/-- A run of the machine, one step after another. -/
theorem run_succ {s u : State} (n : Nat) (h : step s = .next u) :
    Host.Core.run Sys2Proof.core (n + 1) s = Host.Core.run Sys2Proof.core n u := by
  have hstep : Sys2Proof.core.step s = .next u := h
  simp only [Host.Core.run, hstep]

/-! ### Into the fault state, in it, and out of it -/

/-- An operation that misses the deadline goes on into the fault state, from the block with no bit pending (R227). -/
theorem runOp_of_fault {i : Instr} {s : State} {src : Source} (hm : s.missed = none)
    (hf : exec i s = .fault (.deadlineMiss src)) :
    ∃ t, exec i (withoutPending s) = .next t ∧ runOp i s = .next (corrupt 0 Config.CAP src (missOutputs 0 src s) t) := by
  obtain ⟨t, ht⟩ := exec_handlerOp_of_handlersMeetDeadline (s := withoutPending s) (handlerOp_of_exec_fault hf) ⟨rfl, rfl⟩
  exact ⟨t, ht, by simp only [runOp, guardOp, guardStep, hm, hf, inFault, ht]⟩

/-- In the fault state a step that does not end the fault leaves it standing. -/
theorem guardStep_stays {k cap : Nat} {handler : Bool} {f : State → Host.Outcome State Fault Refusal} {s t : State}
    (hm : s.missed ≠ none) (h : guardStep k cap false handler f s = .next t) : t.missed ≠ none := by
  obtain ⟨hnone, -⟩ | ⟨-, hends, -⟩ | ⟨src, os, u, -, rfl, -⟩ := guardStep_next h
  · exact absurd hnone hm
  · cases hends
  · exact nofun

/-- In the fault state an operation that ends the fault runs with the premise restored (U2). -/
theorem runOp_ends {i : Instr} {s : State} (hm : s.missed ≠ none) (he : endsFault i s.block = true) :
    runOp i s = exec i (premiseAgain s) := by
  cases hsrc : s.missed with
  | none => exact absurd hsrc hm
  | some src => simp only [runOp, guardOp, guardStep, hsrc, he, if_true]

/-- What ends a fault is `RESET` or an operation of the handler context. -/
theorem reset_or_handlerOp_of_endsFault {i : Instr} {b : Block} (h : endsFault i b = true) : i = .reset ∨ handlerOp i = true := by
  cases i with
  | reset => exact .inl rfl
  | sample | fsAssert | byteClk | fsDeassert | bit => exact .inr rfl
  | _ => cases h

/-- An operation that ends a fault answers next, and no fault stands after it. -/
theorem exec_of_endsFault {i : Instr} {b : Block} (h : endsFault i b = true) (s : State) :
    ∃ t, exec i (premiseAgain s) = .next t ∧ t.missed = none := by
  obtain rfl | hi := reset_or_handlerOp_of_endsFault h
  · exact ⟨_, rfl, rfl⟩
  · obtain ⟨t, ht⟩ := exec_handlerOp_of_handlersMeetDeadline (s := premiseAgain s) hi ⟨rfl, rfl⟩
    obtain ⟨-, -, hmissed⟩ := exec_next_rest ht
    exact ⟨t, ht, hmissed rfl⟩

/-- An edge of `frame_select` to its active level, with no bit pending, opens a scan (R111, R112). -/
theorem exec_sample_rising {s : State} (bc : Bool) (rx : Rx) (h : s.block.fsQ = false) (hp : handlersMeetDeadline s.block) :
    ∃ t, exec (.sample true bc rx) s = .next t ∧ t.missed = s.missed ∧ t.block.fstate = .receiving := by
  have hnext : exec (.sample true bc rx) s = .next (withEffect s (sample Config.CAP true bc rx s.block)) := by
    rw [sample_of_handlersMeetDeadline _ true bc rx hp]
    exact detect_of_handlersMeetDeadline Config.CAP true bc rx s hp
  refine ⟨_, hnext, rfl, ?_⟩
  rw [withEffect_block, sample_fstate_receiving_iff, h]
  exact ⟨rfl, .inl rfl⟩

/-- `SAMPLE` ends a fault when its levels assert `frame_select`. -/
theorem endsFault_sample (fs bc : Bool) (rx : Rx) (b : Block) : endsFault (.sample fs bc rx) b = (!b.fsQ && fs) :=
  selectsFsAssert_eq ..

/-! ### The statements -/

/-- Settles O4: `step_word`; an operation that does not fault is `exec`, one that does goes on into the fault state. -/
theorem stepRunsTheDecodedInstruction : Obligations.StepRunsTheDecodedInstruction := by
  refine ⟨fun s port bytes rest i hturn hdec hm => ⟨fun hf => ?_, fun src hf => ?_⟩, fun s nbits w i hw hm hf => ?_⟩
  · exact (step_word hturn hdec).trans (runOp_of_no_fault hm hf)
  · obtain ⟨t, ht, hrun⟩ := runOp_of_fault (s := takeTurn s rest) hm hf
    exact ⟨_, (step_word hturn hdec).trans hrun, rfl, List.mem_cons_self, (exec_next_rest ht).1⟩
  · have hdec : decode (tableWordAtPort nbits w).1 (tableWordAtPort nbits w).2 = .ok i := by
      unfold decodeTableWord at hw
      split at hw
      · next j hj => cases hw; exact hj
      · cases hw
    exact (step_word (s := s.withFetchWord nbits w) (rest := s.turns) rfl hdec).trans
      (runOp_of_no_fault (s := takeTurn (s.withFetchWord nbits w) s.turns) hm hf)

/-- Settles O5: a guarded step that does not end the fault stays in it; one that does runs with the premise restored. -/
theorem deadlineMissLastsUntilTheNextFsAssert : Obligations.DeadlineMissLastsUntilTheNextFsAssert := by
  intro s src hsrc
  have hm (rest : List Turn) : (takeTurn s rest).missed ≠ none := by
    rw [takeTurn_missed, hsrc]; exact nofun
  refine ⟨fun act rest t hturn hword hpins h => ?_, fun port bytes rest i hturn hdec hends => ?_,
    fun bcPin rx rest hturn hfs => ?_⟩
  · cases act with
    | word port bytes =>
      cases hdec : decode port bytes with
      | ok i =>
        rw [step_word hturn hdec, runOp, guardOp, takeTurn_block, hword port bytes i rfl hdec] at h
        exact guardStep_stays (hm rest) h
      | reject r =>
        rw [step_reject hturn hdec] at h
        cases h
    | pins fsPin bcPin rx =>
      have hends : endsFault (.sample (logicalFs fsPin) (logicalBc bcPin) rx) s.block = false := by
        rw [endsFault_sample]
        obtain hq | hpin := hpins fsPin bcPin rx rfl
        · rw [hq]; rfl
        · rw [logicalFs, beq_false_of_ne hpin, Bool.and_false]
      rw [step_pins hturn, runOp, guardOp, takeTurn_block, hends] at h
      exact guardStep_stays (hm rest) h
    | controller r =>
      rw [step_turn hturn] at h
      exact guardStep_stays (hm rest) (f := fun u => .next (controllerStep Config.CAP r u)) h
    | overlappingEdge src =>
      rw [step_overlappingEdge hturn] at h
      cases h
      exact nofun
  · obtain ⟨t, ht, htm⟩ := exec_of_endsFault hends (takeTurn s rest)
    exact ⟨t, ((step_word hturn hdec).trans (runOp_ends (hm rest) hends)).trans ht, htm, ht⟩
  · have hlevel : logicalFs Config.FS_ACTIVE_LEVEL = true := beq_self_eq_true _
    have hends : endsFault (.sample true (logicalBc bcPin) rx) (takeTurn s rest).block = true := by
      rw [endsFault_sample, takeTurn_block, hfs]; rfl
    obtain ⟨t, ht, htm, hrecv⟩ :=
      exec_sample_rising (s := premiseAgain (takeTurn s rest)) (logicalBc bcPin) rx hfs ⟨rfl, rfl⟩
    have hstep := step_pins hturn
    rw [hlevel, runOp_ends (hm rest) hends, ht] at hstep
    exact ⟨t, hstep, htm, hrecv⟩

/-- R7, R26: the logical level of `byte_clock`. -/
theorem logicalBc_eq (pin : Bool) : logicalBc pin = (pin == decide (Config.BC_ACTIVE_EDGE = .rising)) := by
  unfold logicalBc
  cases Config.BC_ACTIVE_EDGE <;> cases pin <;> rfl

/-- Settles O6: each kind of turn by its equation. -/
theorem agentsTakeTheirTurns : Obligations.AgentsTakeTheirTurns := by
  refine ⟨fun s r rest hturn hm => step_controller hturn hm, fun s fsPin bcPin rx rest hturn hm hp => ?_,
    fun s src rest hturn => ⟨_, step_overlappingEdge hturn, rfl, List.mem_cons_self, rfl, rfl, rfl⟩⟩
  rw [step_pins hturn, runOp_of_no_fault (s := takeTurn s rest) hm (exec_no_fault (s := takeTurn s rest) hp _), logicalBc_eq]
  rfl

/-- Settles O7: an asserted reset is `RESET` and nothing else. -/
theorem assertedResetOverridesTheTurn : Obligations.AssertedResetOverridesTheTurn :=
  fun _ _ _ hturn => ⟨_, step_reset hturn, rfl, rfl, rfl, rfl, rfl, rfl⟩

/-- Settles O8, by induction on the number of idle steps. -/
theorem idleChangesNothingForAnyTime : Obligations.IdleChangesNothingForAnyTime := by
  intro n
  induction n with
  | zero => exact fun s hturns => ⟨s, rfl, rfl, rfl, rfl, rfl, rfl, hturns⟩
  | succ n ih =>
    intro s hturns
    obtain ⟨t, hrun, hrest⟩ := ih (idleStep s) hturns
    refine ⟨t, ?_, hrest⟩
    exact (run_succ n (step_idle hturns)).trans hrun

/-- Settles O10. -/
theorem resetMeetsTheInvariant : Obligations.ResetMeetsTheInvariant := reset_blockOk

/-- Settles O9: a step leaves the block alone, takes it through one operation, or leaves it unknown, which is a block still. -/
theorem everyStepKeepsTheInvariant : Obligations.EveryStepKeepsTheInvariant := by
  intro s t hinv h
  obtain hop | hop | ⟨u, b, hb⟩ := step_block h
  · exact hop.blockOk hinv
  · exact hop.blockOk (blockOk_of_eq hinv rfl rfl)
  · unfold State.Inv
    rw [hb]
    exact anyBlock_ok cap_pos u b

/-- No step ends the run in a fault (R227, U2). -/
theorem step_no_fault (s : State) (r : Fault) : step s ≠ .fault r := by
  have hop (i : Instr) (u : State) : runOp i u ≠ .fault r := guardStep_no_fault (fun _ _ hu => exec_no_fault hu i _) r
  cases hturns : s.turns with
  | nil => rw [step_idle hturns]; exact nofun
  | cons tn rest =>
    obtain ⟨reset, act⟩ := tn
    cases reset with
    | true => rw [step_reset hturns]; exact nofun
    | false =>
      cases act with
      | word port bytes =>
        cases hdec : decode port bytes with
        | ok i => rw [step_word hturns hdec]; exact hop i _
        | reject e =>
          rw [step_reject hturns hdec]
          exact nofun
      | pins fsPin bcPin rx => rw [step_pins hturns]; exact hop _ _
      | controller reading =>
        rw [step_turn hturns]
        exact guardStep_no_fault (f := fun u => .next (controllerStep Config.CAP reading u)) (fun _ _ _ => nofun) r
      | overlappingEdge src => rw [step_overlappingEdge hturns]; exact nofun

/-- Where the premise holds and the turn keeps it, no fault stands after the step, and no bit is pending (R27, R265). -/
theorem step_keeps_premise {s t : State} (hm : s.missed = none) (hp : handlersMeetDeadline s.block)
    (hturn : ∀ tn rest, s.turns = tn :: rest → turnMeetsDeadline tn = true) (h : step s = .next t) :
    t.missed = none ∧ handlersMeetDeadline t.block := by
  have hop {i : Instr} {rest : List Turn} (hi : runOp i (takeTurn s rest) = .next t) :
      t.missed = none ∧ handlersMeetDeadline t.block := by
    rw [runOp_of_no_fault (s := takeTurn s rest) hm (exec_no_fault (s := takeTurn s rest) hp i)] at hi
    obtain ⟨-, -, hmissed⟩ := exec_next_rest hi
    exact ⟨hmissed hm, (exec_block hi).handlersMeetDeadline hp⟩
  cases hturns : s.turns with
  | nil =>
    rw [step_idle hturns] at h
    cases h
    exact ⟨hm, hp⟩
  | cons tn rest =>
    have hkeeps := hturn tn rest hturns
    obtain ⟨reset, act⟩ := tn
    cases reset with
    | true =>
      rw [step_reset hturns] at h
      cases h
      exact ⟨rfl, rfl, rfl⟩
    | false =>
      cases act with
      | word port bytes =>
        cases hdec : decode port bytes with
        | ok i => rw [step_word hturns hdec] at h; exact hop h
        | reject e =>
          rw [step_reject hturns hdec] at h
          cases h
      | pins fsPin bcPin rx => rw [step_pins hturns] at h; exact hop h
      | controller r =>
        rw [step_controller hturns hm] at h
        cases h
        have hc := controllerStep_mainLoopEffect r (takeTurn s rest)
        exact ⟨hc.missed.trans hm, (controllerStep_block r (takeTurn s rest)).handlersMeetDeadline hp⟩
      | overlappingEdge src => cases hkeeps

/-- Settles O11: `step_keeps_premise`, and `step_no_fault` for the states in which nothing is known. -/
theorem handlersMeetDeadlineIsKept : Obligations.HandlersMeetDeadlineIsKept :=
  ⟨fun s hm hp hturn => ⟨⟨step_no_fault s, fun _ h => (step_keeps_premise hm hp hturn h).1⟩,
    fun _ h => (step_keeps_premise hm hp hturn h).2⟩, step_no_fault⟩

end Sys2Proof.Machine
end

section
/-! Proofs of what every operation or step keeps: the levels and the frame state (10_state.md R14), the cursor (R22), the buffer
(41_host_port.md R145), the hidden registers (R188), the actuator (R187), and the node's independence of what stands outside it
(R37). -/

namespace Sys2Proof.Machine

/-! ### The frame state and the levels -/

/-- A step of the detector makes the levels and the frame state agree again (R14, R111). -/
theorem sample_selectAgrees (cap : Nat) (fs bc : Bool) (rx : Rx) {b : Block} (h : selectAgrees b) :
    selectAgrees (sample cap fs bc rx b).block := by
  unfold selectAgrees at h ⊢
  rw [sample_fsQ, sample_fstate_receiving_iff, ← h]
  cases b.fsQ <;> cases fs <;> decide

/-- An injection consumes the flag and nothing else of the frame state (D3). -/
theorem inject_block_cases (cap : Nat) (p : Packet) (b : Block) :
    (b.fstate = .frameComplete ∧ (inject cap p b).block = { b with buf := writeWindow cap b p, fstate := .idle }) ∨
      (b.fstate ≠ .frameComplete ∧ (inject cap p b).block = b) := by
  by_cases h : b.fstate = .frameComplete
  · rw [inject_accepted cap b p h]; exact .inl ⟨h, rfl⟩
  · rw [inject_rejected cap b p h]; exact .inr ⟨h, rfl⟩

theorem inject_selectAgrees (cap : Nat) (p : Packet) {b : Block} (h : selectAgrees b) :
    selectAgrees (inject cap p b).block := by
  obtain ⟨hfc, hb⟩ | ⟨-, hb⟩ := inject_block_cases cap p b
  · rw [hb]
    have hq : b.fsQ ≠ true := fun hq => by have := h.mp hq; rw [hfc] at this; cases this
    exact iff_of_false hq nofun
  · rwa [hb]

/-- Settles O12: the detector's steps restore the agreement, and nothing else but a bare event moves one side of it. -/
theorem selectAgreesWithReceiving : Obligations.SelectAgreesWithReceiving := by
  intro i s t hna hnd hword hagree h
  obtain rfl | hi | hi := reset_or_handlerOp_or_mainLoopOp i
  · cases h
    exact iff_of_false nofun nofun
  · obtain ⟨e, rfl, he⟩ := exec_handlerOp_next hi h
    cases he with
    | detector fs bc rx =>
      rw [levelsBefore_of_wordAgrees hword]
      exact sample_selectAgrees _ fs bc rx hagree
    | fsAssert => exact absurd rfl hna
    | byteClk rx =>
      have hfs : (byteClk Config.CAP rx s.block).block.fsQ = s.block.fsQ :=
        (runEvent_detectorUnchanged Config.CAP rx s.block .byteClk).1
      unfold selectAgrees at hagree ⊢
      rw [withEffect_block, byteClk_fstate, hfs]
      exact hagree
    | fsDeassert => exact absurd rfl hnd
    | bit d =>
      rw [withEffect_block, bitTime]
      split <;> exact hagree
  · obtain hb | ⟨p, hb⟩ := (exec_mainLoopEffect hi h).block
    · rwa [hb]
    · rw [hb]; exact inject_selectAgrees _ p hagree

/-! ### The cursor -/

/-- The cursor stands where it stood, or one further where a byte was emitted (R22, R113). -/
theorem OneByteOrNone.cursor {cap : Nat} {b : Block} {e : Effect} (h : OneByteOrNone cap b e) :
    (emitted e.out).length ≤ 1 ∧ e.block.cur = if emitted e.out = [] then b.cur else (b.cur + 1) % cap := by
  obtain ⟨hout, -, hcur⟩ | ⟨v, x, hout, -, hcur⟩ := h
  · rw [hout, if_pos rfl]; exact ⟨Nat.zero_le 1, hcur⟩
  · rw [hout, if_neg nofun]; exact ⟨Nat.le_refl 1, hcur⟩

theorem MainLoopEffect.cur_eq {s t : State} (h : MainLoopEffect s t) : t.block.cur = s.block.cur := by
  obtain hb | ⟨p, hb⟩ := h.block
  · rw [hb]
  · obtain ⟨-, hp⟩ | ⟨-, hp⟩ := inject_block_cases Config.CAP p s.block <;> rw [hb, hp]

theorem MainLoopEffect.cursor {s t : State} (h : MainLoopEffect s t) :
    (emitted t.out).length ≤ 1 ∧ t.block.cur = if emitted t.out = [] then s.block.cur else (s.block.cur + 1) % Config.CAP := by
  rw [h.emitted_eq, if_pos rfl]
  exact ⟨Nat.zero_le 1, h.cur_eq⟩

/-- Settles O13: the step is idle, or one operation, of which `HandlerEffect.oneByteOrNone` and the main loop's frame speak. -/
theorem cursorOnlyAdvances : Obligations.CursorOnlyAdvances := by
  intro s t h ht
  obtain rfl | ⟨u, hu, hstep⟩ := step_sound h ht
  · exact .inr ⟨Nat.zero_le 1, rfl⟩
  · obtain ⟨⟨x, y, hblock⟩, -, -⟩ := hu
    have hcur : u.block.cur = s.block.cur := by rw [hblock, setPending_cur]
    rw [← hcur]
    obtain ⟨i, hi⟩ | ⟨r, rfl⟩ := hstep
    · obtain rfl | hk | hk := reset_or_handlerOp_or_mainLoopOp i
      · cases hi; exact .inl rfl
      · obtain ⟨e, rfl, he⟩ := exec_handlerOp_next hk hi
        exact .inr he.oneByteOrNone.cursor
      · exact .inr (exec_mainLoopEffect hk hi).cursor
    · exact .inr (controllerStep_mainLoopEffect r u).cursor

/-! ### The buffer -/

/-- A slot that an append changes is the slot of the cursor (R53). -/
theorem read_appendByte_other {cap : Nat} {b : Block} {v : Byte} {a : Nat} (h : a ≠ slot cap b.cur) :
    Memory.read (appendByte cap b v) a = Memory.read b.buf a :=
  memory_read_write_other v h

/-- A slot that an injection changes is one of the window's (R53). -/
theorem read_writeWindow_other {cap : Nat} {b : Block} {a : Nat} (p : Packet) (h : a ∉ windowSlots cap b) :
    Memory.read (writeWindow cap b p) a = Memory.read b.buf a := by
  have e1 : (b.cur : Int) - 4 + 1 = b.cur - 3 := by omega
  have e2 : (b.cur : Int) - 3 + 1 = b.cur - 2 := by omega
  have e3 : (b.cur : Int) - 2 + 1 = b.cur - 1 := by omega
  simp only [windowSlots, List.mem_cons, List.not_mem_nil, or_false, not_or] at h
  obtain ⟨h4, h3, h2, h1⟩ := h
  simp only [writeWindow, packetBytes, memWrite, writeSlot, e1, e2, e3]
  rw [memory_read_write_other _ h1, memory_read_write_other _ h2, memory_read_write_other _ h3, memory_read_write_other _ h4]

/-- Settles O27: the main loop writes by an accepted injection only, the handler context by the one byte of a `BYTE_CLK`. -/
theorem onlyAcceptedInjectionsAndByteClocksWrite : Obligations.OnlyAcceptedInjectionsAndByteClocksWrite := by
  intro i s t h
  have hmain (hi : mainLoopOp i = true) (hbuf : t.block.buf ≠ s.block.buf) : s.block.fstate = .frameComplete := by
    obtain hb | ⟨p, hb⟩ := (exec_mainLoopEffect hi h).block
    · exact absurd (congrArg Block.buf hb) hbuf
    · obtain ⟨hfc, -⟩ | ⟨-, hp⟩ := inject_block_cases Config.CAP p s.block
      · exact hfc
      · exact absurd (congrArg Block.buf (hb.trans hp)) hbuf
  refine ⟨hmain, fun hrecv hreset a ha => ?_⟩
  obtain rfl | hi | hi := reset_or_handlerOp_or_mainLoopOp i
  · exact absurd rfl hreset
  · obtain ⟨e, rfl, he⟩ := exec_handlerOp_next hi h
    rw [withEffect_block] at ha
    obtain ⟨-, hbuf, -⟩ | ⟨v, x, hout, hbuf, -⟩ := he.oneByteOrNone
    · exact absurd (congrArg (Memory.read · a) hbuf) ha
    · refine ⟨by_contra fun hslot => ha ?_, ?_⟩
      · rw [hbuf]; exact read_appendByte_other hslot
      · rw [withEffect_out, hout]; exact nofun
  · have hfc := hmain hi fun hbuf => ha (congrArg (Memory.read · a) hbuf)
    rw [hrecv] at hfc
    cases hfc

/-- Settles O28: a step of the main loop leaves the block or injects, and an injection writes the window and ends the flag. -/
theorem mainLoopCannotTouchHiddenState : Obligations.MainLoopCannotTouchHiddenState := by
  intro s t h
  have heffect : MainLoopEffect s t := by
    obtain ⟨i, hi, h⟩ | ⟨r, rfl⟩ := h
    · exact exec_mainLoopEffect hi h
    · exact controllerStep_mainLoopEffect r s
  have hblock : t.block = s.block ∨ s.block.fstate = .frameComplete ∧
      ∃ p, t.block = { s.block with buf := writeWindow Config.CAP s.block p, fstate := .idle } := by
    obtain hb | ⟨p, hb⟩ := heffect.block
    · exact .inl hb
    · obtain ⟨hfc, hp⟩ | ⟨-, hp⟩ := inject_block_cases Config.CAP p s.block
      · exact .inr ⟨hfc, p, hb.trans hp⟩
      · exact .inl (hb.trans hp)
  obtain hb | ⟨hfc, p, hb⟩ := hblock
  · rw [hb]
    exact ⟨rfl, rfl, rfl, ⟨rfl, rfl⟩, rfl, rfl, rfl, rfl, fun _ _ => rfl, fun hne => absurd rfl hne⟩
  · rw [hb]
    exact ⟨rfl, rfl, rfl, ⟨rfl, rfl⟩, rfl, rfl, rfl, rfl, fun _ ha => read_writeWindow_other p ha, fun _ => ⟨hfc, rfl⟩⟩

/-! ### The actuator -/

/-- Settles O40: the handler context and idleness never drive the actuator, the main loop only with a valid window. -/
theorem actuatorMovesOnlyForACompletedScan : Obligations.ActuatorMovesOnlyForACompletedScan := by
  intro s t h ht
  obtain rfl | ⟨u, hu, hstep⟩ := step_sound h ht
  · exact .inl ⟨rfl, rfl⟩
  · obtain ⟨⟨x, y, hblock⟩, -, hactuator⟩ := hu
    have hfstate : u.block.fstate = s.block.fstate := by rw [hblock, setPending_fstate]
    have hwindow : window Config.CAP u.block = window Config.CAP s.block := by rw [hblock, window_setPending]
    rw [← hfstate, ← hwindow, ← hactuator]
    obtain ⟨i, hi⟩ | ⟨r, rfl⟩ := hstep
    · obtain rfl | hk | hk := reset_or_handlerOp_or_mainLoopOp i
      · cases hi; exact .inl ⟨rfl, rfl⟩
      · obtain ⟨e, rfl, he⟩ := exec_handlerOp_next hk hi
        exact .inl ⟨rfl, he.actuatorCalls_eq⟩
      · exact (exec_mainLoopEffect hk hi).actuator
    · exact (controllerStep_mainLoopEffect r u).actuator

/-! ### What has no part in a meaning -/

/-- A step of the detector that goes on is the same effect at every node. -/
theorem detect_congr {cap : Nat} {fs bc : Bool} {rx : Rx} {b : Block} {s t : State} (h : detect cap fs bc rx b s = .next t) :
    ∃ e, t = withEffect s e ∧ ∀ s', detect cap fs bc rx b s' = .next (withEffect s' e) := by
  obtain ⟨hnone, rfl⟩ := detect_next h
  exact ⟨_, rfl, fun s' => by rw [detect, hnone]⟩

/-- The operation is one of those that do more to the node than to its block and its outputs. -/
def touchesMore : Instr → Bool
  | .reset => true
  | .inject _ => true
  | .service _ => true
  | _ => false

/-- Every other operation is, at every node with the same block, the same effect on the block. -/
theorem exec_congr {i : Instr} {s t : State} (hi : touchesMore i = false) (h : exec i s = .next t) :
    ∃ e, t = withEffect s e ∧ ∀ s', s'.block = s.block → exec i s' = .next (withEffect s' e) := by
  have hdetect {fs bc : Bool} {rx : Rx} {f : Block → Block} (hd : detect Config.CAP fs bc rx (f s.block) s = .next t) :
      ∃ e, t = withEffect s e ∧
        ∀ s', s'.block = s.block → detect Config.CAP fs bc rx (f s'.block) s' = .next (withEffect s' e) := by
    obtain ⟨e, rfl, he⟩ := detect_congr hd
    exact ⟨e, rfl, fun s' hb => by rw [hb]; exact he s'⟩
  have hblock {f : Block → Effect} (hf : withEffect s (f s.block) = t) :
      ∃ e, t = withEffect s e ∧
        ∀ s' : State, s'.block = s.block →
          (.next (withEffect s' (f s'.block)) : Host.Outcome State Fault Refusal) = .next (withEffect s' e) :=
    ⟨_, hf.symm, fun s' hb => by rw [hb]⟩
  have hout {o : List Output} (ho : withOutput s o = t) :
      ∃ e, t = withEffect s e ∧
        ∀ s' : State, s'.block = s.block →
          (.next (withOutput s' o) : Host.Outcome State Fault Refusal) = .next (withEffect s' e) :=
    ⟨{ block := s.block, out := o }, ho.symm, fun s' hb => by rw [← hb]; rfl⟩
  cases i with
  | sample fs bc rx old =>
    cases old with
    | none => exact hdetect (f := id) h
    | some l => exact hdetect (f := recallLevels _) h
  | fsAssert clock =>
    cases clock with
    | none => cases h; exact hblock rfl
    | some c => exact hdetect (f := recallLevels _) h
  | byteClk rx select =>
    cases select with
    | none => cases h; exact hblock rfl
    | some fs => exact hdetect (f := recallLevels _) h
  | fsDeassert clock =>
    cases clock with
    | none => cases h; exact hblock (f := fsDeassert) rfl
    | some c => exact hdetect (f := recallLevels _) h
  | bit d => cases h; exact hblock (f := bitTime d) rfl
  | poll => cases h; exact hblock (f := poll) rfl
  | extract => cases h; exact hblock rfl
  | hostRsvd => cases h; exact hblock (f := hostReserved) rfl
  | encCmd cmd red green blue =>
    simp only [exec, execEncCmd] at h ⊢
    split at h
    · next hrange => cases h; simp only [if_pos hrange]; exact hout rfl
    · cases h
  | decCmd p => cases h; exact hout rfl
  | encSensor weight =>
    simp only [exec, execEncSensor] at h ⊢
    split at h
    · next hrange => cases h; simp only [if_pos hrange]; exact hout rfl
    · cases h
  | decSensor p => cases h; exact hout rfl
  | _ => cases hi

/-- Two results of an operation agree: the same block and controller; the whole node, where the rest of the node was the same;
and the observer's memory and the outputs, where that memory was the same. -/
structure SameResult (s s' t t' : State) : Prop where
  block : t'.block = t.block
  controller : t'.controller = t.controller
  node : s'.actuator = s.actuator → s'.missed = s.missed → t'.toNode = t.toNode
  observer : s'.lastInjected = s.lastInjected → t'.lastInjected = t.lastInjected ∧ t'.out = t.out

theorem toNode_eq {t t' : State} (hb : t'.block = t.block) (hc : t'.controller = t.controller) (ha : t'.actuator = t.actuator)
    (hm : t'.missed = t.missed) : t'.toNode = t.toNode := by
  obtain ⟨⟨_, _, _, _⟩, _⟩ := t
  obtain ⟨⟨_, _, _, _⟩, _⟩ := t'
  exact Node.mk.injEq .. ▸ ⟨hb, hc, ha, hm⟩

/-- R184 from `FrameComplete`: one pass, the outputs in the order of its expansion (log 14). -/
theorem service_accepted {s : State} (cap : Nat) (w : Byte) (h : s.block.fstate = .frameComplete) :
    service cap w s =
      { injectState cap (encodeSensor w) s with
        out := (poll s.block).out ++ (extract cap s.block).out ++ [.setRgb (channels (decodeCommand (window cap s.block)))] ++
          staleLabel (encodeSensor w) s.lastInjected ++ (injectState cap (encodeSensor w) s).out
        actuator := channels (decodeCommand (window cap s.block))
        controller := { s.controller with
          window := window cap s.block, command := decodeCommand (window cap s.block), reading := w } } := by
  have hflag : frameCompleteFlag s.block = true := by rw [frameCompleteFlag_eq]; exact decide_eq_true h
  rw [service, if_pos hflag]

/-- R184 from any other frame state: the poll alone. -/
theorem service_rejected {s : State} (cap : Nat) (w : Byte) (h : s.block.fstate ≠ .frameComplete) :
    service cap w s = withEffect s (poll s.block) := by
  have hflag : ¬frameCompleteFlag s.block = true := by rw [frameCompleteFlag_eq]; simpa using h
  rw [service, if_neg hflag]

section
variable {s s' : State}

theorem sameResult_withEffect (hc : s'.controller = s.controller) (e : Effect) :
    SameResult s s' (withEffect s e) (withEffect s' e) where
  block := rfl
  controller := hc
  node := fun ha hm => toNode_eq rfl hc ha hm
  observer := fun hl => ⟨hl, rfl⟩

theorem sameResult_reset (hc : s'.controller = s.controller) : SameResult s s' (resetState s) (resetState s') := by
  have hctl : (resetState s').controller = (resetState s).controller := by rw [resetState, hc, resetState]
  exact ⟨rfl, hctl, fun ha _ => toNode_eq rfl hctl ha rfl, fun _ => ⟨rfl, rfl⟩⟩

theorem sameResult_injectState (hb : s'.block = s.block) (hc : s'.controller = s.controller) (cap : Nat) (p : Packet) :
    SameResult s s' (injectState cap p s) (injectState cap p s') := by
  have hblock : (injectState cap p s').block = (injectState cap p s).block := by
    rw [injectState_block, hb, injectState_block]
  refine ⟨hblock, hc, fun ha hm => toNode_eq hblock hc ha hm, fun hl => ⟨?_, ?_⟩⟩
  · rw [injectState_lastInjected, hb, hl, injectState_lastInjected]
  · rw [injectState_out, hb, injectState_out]

theorem sameResult_service (hb : s'.block = s.block) (hc : s'.controller = s.controller) (cap : Nat) (w : Byte) :
    SameResult s s' (service cap w s) (service cap w s') := by
  by_cases h : s.block.fstate = .frameComplete
  · have hinject := sameResult_injectState hb hc cap (encodeSensor w)
    rw [service_accepted cap w h, service_accepted cap w (by rw [hb]; exact h), hb, hc]
    exact ⟨hinject.block, rfl, fun _ hm => toNode_eq hinject.block rfl rfl hm,
      fun hl => ⟨(hinject.observer hl).1, by rw [hl, (hinject.observer hl).2]⟩⟩
  · rw [service_rejected cap w h, service_rejected cap w (by rw [hb]; exact h), hb]
    exact sameResult_withEffect hc (poll s.block)

/-- An operation has the same result at two states with the same block and controller. -/
theorem exec_sameResult {i : Instr} {t : State} (hb : s'.block = s.block) (hc : s'.controller = s.controller)
    (h : exec i s = .next t) : ∃ t', exec i s' = .next t' ∧ SameResult s s' t t' := by
  cases hi : touchesMore i with
  | false =>
    obtain ⟨e, rfl, he⟩ := exec_congr hi h
    exact ⟨_, he s' hb, sameResult_withEffect hc e⟩
  | true =>
    cases i with
    | reset => cases h; exact ⟨_, rfl, sameResult_reset hc⟩
    | inject p => cases h; exact ⟨_, rfl, sameResult_injectState hb hc _ p⟩
    | service w => cases h; exact ⟨_, rfl, sameResult_service hb hc _ w⟩
    | _ => cases hi

end

/-- Settles O52: `exec_sameResult`. -/
theorem observationsHaveNoInfluence : Obligations.ObservationsHaveNoInfluence := by
  intro i s s' t hb hc h
  obtain ⟨t', ht', hblock, hcontroller, hnode, hobserver⟩ := exec_sameResult hb hc h
  exact ⟨t', ht', hblock, hcontroller, hnode, hobserver⟩

/-! ### The operations of the window law, and reset -/

/-- Settles O48: an edge word and `SAMPLE` are the detector's step, which with no bit pending is not late; the others are `exec`'s
own arms. -/
theorem blockOperationsAreTheInstructions : Obligations.BlockOperationsAreTheInstructions := by
  intro op s hp
  have hdetect (fs bc : Bool) (rx : Rx) {b : Block} (hb : handlersMeetDeadline b) :
      detect Config.CAP fs bc rx b s = .next (withEffect s (sample Config.CAP fs bc rx b)) := by
    simp only [detect, missedDeadline_none hb]
  cases op with
  | sample fs bc rx => exact ⟨_, hdetect fs bc rx hp, rfl, rfl⟩
  | edge e rx => exact ⟨_, (exec_decodeEdge e rx s).trans (hdetect _ _ rx hp), rfl, rfl⟩
  | _ => exact ⟨_, rfl, rfl, rfl⟩

/-- R262, D21: the level already asserted when reset is released is the edge word 0100, which performs `FS_ASSERT`. -/
theorem exec_sample_after_reset (s : State) (rx : Rx) :
    exec (.sample true false rx) (resetState s) =
      .next (withEffect (resetState s) (fsAssert Config.CAP { Block.reset with fsQ := true })) := by
  have hevents : edgeEvents (sampleEdgeWord Block.reset true false) = [.fsAssert] := by decide
  have hdetect := detect_of_handlersMeetDeadline Config.CAP true false rx (b := Block.reset) (resetState s) ⟨rfl, rfl⟩
  rw [hevents, runEvents_singleton] at hdetect
  exact hdetect

/-- Settles O14: every field by `Block.reset`; then `exec_sample_after_reset`. -/
theorem resetLeavesTheResetValues : Obligations.ResetLeavesTheResetValues := by
  refine ⟨fun s => ⟨resetState s, rfl, fun _ => rfl, rfl, rfl, rfl, rfl, rfl, rfl, rfl, rfl, rfl, rfl, rfl, rfl, rfl, rfl, rfl,
    rfl, rfl⟩, fun s rx => ⟨_, _, rfl, exec_sample_after_reset s rx, ?_⟩⟩
  rw [withEffect_block, withEffect_out, fsAssert_eq]
  exact ⟨rfl, rfl⟩

end Sys2Proof.Machine
end

section
/-! Proofs about the bus events by themselves and the bit-level step (40_bus_events.md R112, R113, R114, R119, R120; R234). -/

namespace Sys2Proof.Machine

/-! ### The events by themselves -/

/-- Settles O16: `fsAssert_eq`; the byte armed is the window's oldest (R53). -/
theorem fsAssertOpensAScan : Obligations.FsAssertOpensAScan := by
  intro s
  refine ⟨_, rfl, ?_, ?_, restUnchanged_withEffect s _⟩
  · rw [withEffect_block, fsAssert_eq]; rfl
  · rw [withEffect_out, fsAssert_eq]

/-- The label of the wrap stands exactly where the cursor's advance leaves the last slot (R222). -/
theorem overrunLabel_eq {cap cur : Nat} (h : cur < cap) :
    overrunLabel cap cur = if cur + 1 = cap then [.label .bufferNearOverrun] else [] := by
  have hiff : cur = cap - 1 ↔ cur + 1 = cap := by omega
  simp only [overrunLabel, hiff]

/-- Settles O17: `byteClk_receiving`; the buffer's laws for the slots, `relayByte_append` for the byte armed. -/
theorem byteClkStoresEmitsAndRearms : Obligations.ByteClkStoresEmitsAndRearms := by
  intro s rx hinv hrecv
  have ⟨hcur, hwf, _⟩ := hinv
  refine ⟨withEffect s (byteClk Config.CAP rx s.block), rfl, ?_⟩
  rw [withEffect_block, withEffect_out, byteClk_receiving Config.CAP rx s.block hrecv, overrunLabel_eq hcur]
  exact ⟨memory_read_write_same _ _ hwf, fun a ha => read_appendByte_other ha, writeSlot_wf _ _ _ hwf, nextCursor_eq hcur, rfl,
    rfl, relayByte_append cap_ge_eight hinv _, rfl, rfl, hrecv, ⟨rfl, rfl⟩, rfl, rfl, rfl, restUnchanged_withEffect s _⟩

/-- Settles O18: `byteClk_ignored`. -/
theorem byteClkIsIgnoredWhileNotSelected : Obligations.ByteClkIsIgnoredWhileNotSelected := by
  intro s rx h
  have heffect := byteClk_ignored Config.CAP rx s.block h
  exact ⟨_, rfl, congrArg Effect.block heffect, congrArg Effect.out heffect, restUnchanged_withEffect s _⟩

theorem labels_partialByteLabel (n : BitVec 3) : labels (partialByteLabel n) = if n = 0 then [] else [.partialByte n] := by
  unfold partialByteLabel; split <;> rfl

/-- Settles O19: the verdict by the count in `Receiving`, the edge ignored elsewhere. -/
theorem fsDeassertGivesTheVerdict : Obligations.FsDeassertGivesTheVerdict := by
  intro s
  refine ⟨withEffect s (fsDeassert s.block), rfl, restUnchanged_withEffect s _, fun hrecv hc0 hc4 => ?_, fun hrecv hc => ?_,
    fun hrecv => ?_⟩
  · rw [withEffect_block, withEffect_out, fsDeassert_wellFormed _ hrecv ⟨hc0, hc4⟩]
    exact ⟨rfl, labels_partialByteLabel _⟩
  · have hnot : ¬(s.block.cnt ≠ 0 ∧ s.block.cnt % 4 = 0) := by omega
    rw [withEffect_block, withEffect_out, fsDeassert_malformed _ hrecv hnot]
    exact ⟨rfl, congrArg (Condition.malformedFrame s.block.cnt :: ·) (labels_partialByteLabel _)⟩
  · rw [withEffect_block, withEffect_out, fsDeassert_ignored _ hrecv]
    exact ⟨rfl, rfl⟩

/-! ### The bit-level step -/

theorem bitTime_receiving (d : Bool) {b : Block} (h : b.fstate = .receiving) :
    bitTime d b = { block := { b with sr := shiftIn b.sr d, bitn := b.bitn + 1 }, out := [.dataOut (b.sr.getLsbD 7)] } := by
  rw [bitTime, selected_eq, if_pos (decide_eq_true h)]

theorem bitTime_ignored (d : Bool) {b : Block} (h : b.fstate ≠ .receiving) : bitTime d b = noEffect b := by
  rw [bitTime, selected_eq, if_neg (by simpa using h)]

/-- Settles O22: `bitTime_receiving`, `bitTime_ignored`. -/
theorem bitShiftsOneBit : Obligations.BitShiftsOneBit := by
  intro s d
  refine ⟨withEffect s (bitTime d s.block), rfl, restUnchanged_withEffect s _, fun h => ?_, fun h => ?_⟩
  · rw [withEffect_block, withEffect_out, bitTime_receiving d h]; exact ⟨rfl, rfl⟩
  · rw [withEffect_block, withEffect_out, bitTime_ignored d h]; exact ⟨rfl, rfl⟩

/-- Bit times one after another shift the bits in, the first highest (R120). -/
def shiftInAll : List Bool → Byte → Byte
  | [], sr => sr
  | d :: ds, sr => shiftInAll ds (shiftIn sr d)

/-- The bits that bit times one after another drive: `sr[7]` before each (R120). -/
def bitsDriven : List Bool → Byte → List Bool
  | [], _ => []
  | d :: ds, sr => sr.getLsbD 7 :: bitsDriven ds (shiftIn sr d)

/-- Bit times one after another while selected. -/
theorem runOps_bits (ds : List Bool) {s : State} (h : s.block.fstate = .receiving) :
    ∃ t os, runOps (ds.map .bit) s = .next (t, os) ∧
      t.block = { s.block with sr := shiftInAll ds s.block.sr, bitn := s.block.bitn + BitVec.ofNat 3 ds.length } ∧
      drivenBits os = bitsDriven ds s.block.sr := by
  induction ds generalizing s with
  | nil => exact ⟨s, [], rfl, by simp [shiftInAll], rfl⟩
  | cons d ds ih =>
    obtain ⟨t, os, hrun, hblock, hdriven⟩ := ih (s := withEffect s (bitTime d s.block))
      (by rw [withEffect_block, bitTime_receiving d h]; exact h)
    refine ⟨t, _, runOps_cons rfl hrun, ?_, ?_⟩
    · have hbitn : s.block.bitn + 1 + BitVec.ofNat 3 ds.length = s.block.bitn + BitVec.ofNat 3 (ds.length + 1) := by
        rw [BitVec.ofNat_add, BitVec.add_assoc, BitVec.add_comm 1]; rfl
      rw [hblock, withEffect_block, bitTime_receiving d h, List.length_cons, ← hbitn]
      rfl
    · rw [drivenBits_append, hdriven, withEffect_out, withEffect_block, bitTime_receiving d h]
      rfl

/-- The eight bits of a byte, bit 7 first (R84). -/
def bitsOf (x : Byte) : List Bool :=
  [x.getLsbD 7, x.getLsbD 6, x.getLsbD 5, x.getLsbD 4, x.getLsbD 3, x.getLsbD 2, x.getLsbD 1, x.getLsbD 0]

/-- Eight bits shifted in are the byte, whatever `sr` held. -/
theorem shiftInAll_bitsOf (x sr : Byte) : shiftInAll (bitsOf x) sr = x := by
  apply BitVec.eq_of_getLsbD_eq
  intro i hi
  simp only [bitsOf, shiftInAll, getLsbD_shiftIn]
  interval_cases i <;> rfl

/-- Eight bit times drive the old `sr`, bit 7 first. -/
theorem bitsDriven_bitsOf (x sr : Byte) : bitsDriven (bitsOf x) sr = bitsOf sr := by
  simp only [bitsOf, bitsDriven, getLsbD_shiftIn]
  rfl

/-- `BYTE_CLK` does not look at `bitn`, and at `sr` only in the bit-level form (R120). -/
theorem byteClk_shifted_eq (cap : Nat) (x : Byte) {b : Block} (h : b.fstate = .receiving) :
    byteClk cap .shifted { b with sr := x } = byteClk cap (.byte x) b := by
  rw [byteClk_receiving cap .shifted { b with sr := x } h, byteClk_receiving cap (.byte x) b h]
  rfl

/-- Settles O23: `runOps_bits` on the eight bits of `x`; the `BYTE_CLK` that follows is the byte-level one. -/
theorem eightBitsExchangeOneByte : Obligations.EightBitsExchangeOneByte := by
  intro s x h
  obtain ⟨t, os, hrun, hblock, hdriven⟩ := runOps_bits (bitsOf x) h
  have height : s.block.bitn + BitVec.ofNat 3 (bitsOf x).length = s.block.bitn := by
    have hlen : (bitsOf x).length = 8 := rfl
    have hwrap : BitVec.ofNat 3 8 = 0#3 := by decide
    rw [hlen, hwrap, BitVec.add_zero]
  rw [shiftInAll_bitsOf, height] at hblock
  rw [bitsDriven_bitsOf] at hdriven
  refine ⟨t, withEffect t (byteClk Config.CAP .shifted t.block), withEffect s (byteClk Config.CAP (.byte x) s.block), os, hrun,
    hblock, hdriven, rfl, rfl, ?_⟩
  simp only [withEffect_block, withEffect_out, hblock, byteClk_shifted_eq Config.CAP x h, and_self]

/-! ### The transition table and the labels -/

theorem labels_overrunLabel (cap cur : Nat) :
    labels (overrunLabel cap cur) = [] ∨ labels (overrunLabel cap cur) = [.bufferNearOverrun] := by
  unfold overrunLabel
  split
  · exact .inr rfl
  · exact .inl rfl

/-- What an `INJECT` answers, by the frame state (R144, R224). -/
theorem labels_inject (cap : Nat) (p : Packet) (b : Block) :
    labels (inject cap p b).out = if b.fstate = .frameComplete then [] else [.missedUpdate b.fstate] := by
  by_cases h : b.fstate = .frameComplete
  · rw [inject_accepted cap b p h, if_pos h]; rfl
  · rw [inject_rejected cap b p h, if_neg h]; rfl

theorem inject_fstate (cap : Nat) (p : Packet) (b : Block) :
    (inject cap p b).block.fstate = if b.fstate = .frameComplete then .idle else b.fstate := by
  obtain ⟨h, hb⟩ | ⟨h, hb⟩ := inject_block_cases cap p b
  · rw [hb, if_pos h]
  · rw [hb, if_neg h]

theorem labels_fsAssert (cap : Nat) (b : Block) :
    labels (fsAssert cap b).out = if b.fstate = .frameComplete then [.lostFrame] else [] := by
  rw [fsAssert_eq]
  dsimp only
  split <;> rfl

/-- The label `MalformedFrame` is the verdict of a count that is no nonzero multiple of 4 (R114). -/
theorem malformedFrame_mem_labels_fsDeassert (b : Block) :
    .malformedFrame b.cnt ∈ labels (fsDeassert b).out ↔ b.fstate = .receiving ∧ ¬(b.cnt ≠ 0 ∧ b.cnt % 4 = 0) := by
  have hpartial : .malformedFrame b.cnt ∉ labels (partialByteLabel b.bitn) := by
    rw [labels_partialByteLabel]
    split <;> simp
  by_cases h : b.fstate = .receiving
  · rw [fsDeassert_receiving h, labels_append, List.mem_append, or_iff_left hpartial]
    split
    · next hc => exact iff_of_false nofun fun hn => hn.2 hc
    · next hc => exact iff_of_true List.mem_cons_self ⟨h, hc⟩
  · rw [fsDeassert_ignored b h]
    exact iff_of_false nofun fun hn => h hn.1

theorem fsDeassert_fstate (b : Block) :
    (fsDeassert b).block.fstate = if b.fstate = .receiving
      then (if b.cnt ≠ 0 ∧ b.cnt % 4 = 0 then .frameComplete else .idle) else b.fstate := by
  by_cases h : b.fstate = .receiving
  · rw [fsDeassert_receiving h, if_pos h]
  · rw [fsDeassert_ignored b h, if_neg h]

/-- Settles O41: each row by the equation of its operation. -/
theorem frameStateTransitionTable : Obligations.FrameStateTransitionTable := by
  intro s
  refine ⟨⟨_, rfl, rfl, rfl, labels_fsAssert Config.CAP s.block⟩,
    fun rx => ⟨_, rfl, byteClk_fstate Config.CAP rx s.block, fun h => ?_⟩,
    ⟨_, rfl, fsDeassert_fstate s.block, malformedFrame_mem_labels_fsDeassert s.block, fun h => ?_⟩, ⟨_, rfl, rfl, rfl⟩,
    ⟨_, rfl, rfl, rfl⟩, fun p => ⟨_, rfl, inject_fstate Config.CAP p s.block,
      labels_inject Config.CAP p s.block⟩, ⟨_, rfl, rfl, rfl⟩⟩
  · exact congrArg Effect.out (byteClk_ignored Config.CAP rx s.block h)
  · exact congrArg Effect.out (fsDeassert_ignored s.block h)

/-- A controller's injection carries the two labels of R223 and R224 at most. -/
theorem labels_injectNextPacket (cap : Nat) (r : Byte) (s : State) :
    labels (injectNextPacket cap r s).out =
      (if s.lastInjected = some (encodeSensor r) then [.staleSensorReading] else []) ++
        if s.block.fstate = .frameComplete then [] else [.missedUpdate s.block.fstate] := by
  have hstale : labels (staleLabel (encodeSensor r) s.lastInjected) =
      if s.lastInjected = some (encodeSensor r) then [.staleSensorReading] else [] := by
    unfold staleLabel
    split <;> rfl
  rw [← hstale, ← labels_inject cap (encodeSensor r) s.block, ← labels_append]
  rfl

/-- Settles O42: the labels of each operation's outputs. -/
theorem labelsThatOneStepCanCarry : Obligations.LabelsThatOneStepCanCarry := by
  refine ⟨fun s t rx h => ?_, fun s t h => ?_, fun s t h c hc => ?_, fun s t p h => ?_, fun s r hctl c hc => ?_⟩
  · cases h
    by_cases h : s.block.fstate = .receiving
    · rw [withEffect_out, byteClk_receiving _ rx _ h]
      exact labels_overrunLabel Config.CAP s.block.cur
    · rw [withEffect_out, byteClk_ignored _ rx _ h]
      exact .inl rfl
  · cases h
    rw [withEffect_out, labels_fsAssert]
    split
    · exact .inr rfl
    · exact .inl rfl
  · cases h
    by_cases h : s.block.fstate = .receiving
    · rw [withEffect_out, fsDeassert_receiving h, labels_append, labels_partialByteLabel, List.mem_append] at hc
      refine hc.imp (fun hc => ?_) (fun hc => ?_)
      · split at hc
        · cases hc
        · exact List.mem_singleton.mp hc
      · split at hc
        · cases hc
        · exact List.mem_singleton.mp hc
    · rw [withEffect_out, fsDeassert_ignored _ h] at hc
      cases hc
  · cases h
    rw [injectState_out, labels_inject]
    split
    · exact .inl rfl
    · exact .inr rfl
  · have hstep : controllerStep Config.CAP r s = injectNextPacket Config.CAP r s := by rw [controllerStep, hctl]
    rw [hstep, labels_injectNextPacket, List.mem_append] at hc
    refine hc.imp (fun hc => ?_) (fun hc => ?_)
    · split at hc
      · exact List.mem_singleton.mp hc
      · cases hc
    · split at hc
      · cases hc
      · exact List.mem_singleton.mp hc

end Sys2Proof.Machine
end

section
/-! Proofs about the host port (41_host_port.md) and the Node Controller's steps (43_node_controller.md). -/

namespace Sys2Proof.Machine

/-! ### The host port -/

/-- Settles O24: the three reads put out what they return and nothing else. -/
theorem hostReadsChangeNothing : Obligations.HostReadsChangeNothing := by
  intro s
  have hflag := frameCompleteFlag_eq s.block
  refine ⟨⟨_, rfl, rfl, restUnchanged_withEffect s _, ?_⟩, ⟨_, rfl, rfl, restUnchanged_withEffect s _, ?_⟩,
    _, rfl, rfl, restUnchanged_withEffect s _, rfl⟩
  · rw [withEffect_out, poll, hflag]
  · rw [withEffect_out, extract, hflag]; rfl

/-- The four slots after an injection, at the addresses of the window (R53). -/
theorem read_writeWindow {cap : Nat} {b : Block} (h8 : 8 ≤ cap) (hok : blockOk cap b) (p : Packet) :
    Memory.read (writeWindow cap b p) (slot cap ((b.cur : Int) - 4)) = p.b0 ∧
    Memory.read (writeWindow cap b p) (slot cap ((b.cur : Int) - 3)) = p.b1 ∧
    Memory.read (writeWindow cap b p) (slot cap ((b.cur : Int) - 2)) = p.b2 ∧
    Memory.read (writeWindow cap b p) (slot cap ((b.cur : Int) - 1)) = p.b3 := by
  have hwindow := window_writeWindow h8 hok p { b with buf := writeWindow cap b p } rfl rfl
  exact ⟨congrArg Packet.b0 hwindow, congrArg Packet.b1 hwindow, congrArg Packet.b2 hwindow, congrArg Packet.b3 hwindow⟩

/-- The observer remembers the packet of an accepted injection (log 8). -/
theorem rememberInjected_eq (p : Packet) (b : Block) (before : Option Packet) :
    rememberInjected p b before = if b.fstate = .frameComplete then some p else before := by
  simp only [rememberInjected, frameCompleteFlag_eq, decide_eq_true_eq]

/-- Settles O25: `inject_accepted`, `read_writeWindow` for the window's slots, `read_writeWindow_other` for the others. -/
theorem injectWritesTheWindow : Obligations.InjectWritesTheWindow := by
  intro s p hinv hfc
  refine ⟨injectState Config.CAP p s, rfl, ?_⟩
  have hlast : (injectState Config.CAP p s).lastInjected = some p := by
    rw [injectState_lastInjected, rememberInjected_eq, if_pos hfc]
  have ⟨_, hwf, _⟩ := hinv
  obtain ⟨h0, h1, h2, h3⟩ := read_writeWindow cap_ge_eight hinv p
  rw [injectState_block, injectState_out, inject_accepted _ _ p hfc]
  exact ⟨h0, h1, h2, h3, fun a ha => read_writeWindow_other p ha, memWrite_wf _ _ _ hwf, rfl, rfl, hlast, rfl, rfl, rfl,
    rfl, rfl⟩

/-- Settles O26: `inject_rejected`; the observer's memory stays with the rest. -/
theorem injectIsRejectedOutsideFrameComplete : Obligations.InjectIsRejectedOutsideFrameComplete := by
  intro s p h
  have heffect := inject_rejected Config.CAP s.block p h
  have hlast : (injectState Config.CAP p s).lastInjected = s.lastInjected := by
    rw [injectState_lastInjected, rememberInjected_eq, if_neg h]
  exact ⟨_, rfl, congrArg Effect.block heffect, ⟨rfl, rfl, rfl, hlast, rfl, rfl⟩, congrArg Effect.out heffect⟩

/-! ### The controller's steps -/

theorem controllerStep_of_decodeAndApply {s : State} (cap : Nat) (r : Byte) (h : s.controller.ctl = .decodeAndApply) :
    controllerStep cap r s = decodeAndApply cap s := by
  rw [controllerStep, h]

theorem controllerStep_of_injectNextPacket {s : State} (cap : Nat) (r : Byte) (h : s.controller.ctl = .injectNextPacket) :
    controllerStep cap r s = injectNextPacket cap r s := by
  rw [controllerStep, h]

/-- R182 with a valid window. -/
theorem decodeAndApply_valid {s : State} (cap : Nat) (h : s.block.fstate = .frameComplete) :
    decodeAndApply cap s =
      { withEffect s (extract cap s.block) with
        out := (extract cap s.block).out ++ [.setRgb (channels (decodeCommand (window cap s.block)))]
        actuator := channels (decodeCommand (window cap s.block))
        controller := { s.controller with
          window := window cap s.block, command := decodeCommand (window cap s.block), ctl := .injectNextPacket } } := by
  have hflag : frameCompleteFlag s.block = true := by rw [frameCompleteFlag_eq]; exact decide_eq_true h
  simp only [decodeAndApply, hflag, if_true]
  rfl

/-- R182 without (D19): back to `AwaitFrame`, the window in its temporary. -/
theorem decodeAndApply_invalid {s : State} (cap : Nat) (h : s.block.fstate ≠ .frameComplete) :
    decodeAndApply cap s =
      { withEffect s (extract cap s.block) with
        controller := { s.controller with window := window cap s.block, ctl := .awaitFrame } } := by
  have hflag : frameCompleteFlag s.block = false := by rw [frameCompleteFlag_eq]; exact decide_eq_false h
  simp only [decodeAndApply, hflag, Bool.false_eq_true, if_false]

/-- Settles O38: the turn is `DecodeAndApply`, valid or not. -/
theorem decodeAndApplyUsesAValidWindowOnly : Obligations.DecodeAndApplyUsesAValidWindowOnly := by
  intro s r rest hturn hm hctl
  have hstep : step s = .next (decodeAndApply Config.CAP (takeTurn s rest)) :=
    (step_controller hturn hm).trans (congrArg _ (controllerStep_of_decodeAndApply _ r hctl))
  refine ⟨_, hstep, ?_⟩
  by_cases h : s.block.fstate = .frameComplete
  · rw [decodeAndApply_valid (s := takeTurn s rest) _ h]
    exact ⟨rfl, hm, rfl, rfl, rfl, fun _ => ⟨rfl, rfl, rfl, rfl⟩, fun hn => absurd h hn⟩
  · rw [decodeAndApply_invalid (s := takeTurn s rest) _ h]
    exact ⟨rfl, hm, rfl, rfl, rfl, fun hn => absurd hn h, fun _ => ⟨rfl, rfl, rfl, rfl⟩⟩

/-- Settles O39: the turn is `InjectNextPacket`; the label by `labels_injectNextPacket`, the rest by the injection. -/
theorem injectNextPacketInjectsTheReading : Obligations.InjectNextPacketInjectsTheReading := by
  intro s r rest hinv hturn hm hctl
  have hstep : step s = .next (injectNextPacket Config.CAP r (takeTurn s rest)) :=
    (step_controller hturn hm).trans (congrArg _ (controllerStep_of_injectNextPacket _ r hctl))
  have hlabels := labels_injectNextPacket Config.CAP r (takeTurn s rest)
  have hstale : .staleSensorReading ∈ labels (injectNextPacket Config.CAP r (takeTurn s rest)).out ↔
      s.lastInjected = some (encodeSensor r) := by
    have hmissed : Condition.staleSensorReading ∉
        if s.block.fstate = .frameComplete then [] else [Condition.missedUpdate s.block.fstate] := by
      split <;> simp
    rw [hlabels, takeTurn_lastInjected, takeTurn_block, List.mem_append, or_iff_left hmissed]
    split
    · next h => exact iff_of_true List.mem_cons_self h
    · next h => exact iff_of_false List.not_mem_nil h
  have hlast : (injectNextPacket Config.CAP r (takeTurn s rest)).lastInjected = _ :=
    rememberInjected_eq (encodeSensor r) s.block s.lastInjected
  refine ⟨_, hstep, rfl, hm, rfl, hstale, fun h => ?_, fun h => ?_⟩
  · have heffect := inject_accepted Config.CAP s.block (encodeSensor r) h
    have hblock : (injectNextPacket Config.CAP r (takeTurn s rest)).block = _ := congrArg Effect.block heffect
    rw [if_pos h] at hlast
    refine ⟨?_, congrArg Block.fstate hblock, hlast, ?_⟩
    · rw [hblock]
      exact window_writeWindow cap_ge_eight hinv (encodeSensor r) _ rfl rfl
    · exact List.mem_append_right _ (by rw [injectState_out, takeTurn_block, heffect]; exact List.mem_cons_self)
  · have heffect := inject_rejected Config.CAP s.block (encodeSensor r) h
    rw [if_neg h] at hlast
    refine ⟨congrArg Effect.block heffect, hlast, ?_, ?_⟩
    · refine List.mem_append_right _ ?_
      rw [injectState_out, takeTurn_block, heffect]
      exact List.mem_cons_of_mem _ List.mem_cons_self
    · rw [hlabels, takeTurn_block, if_neg h]
      exact List.mem_append_right _ List.mem_cons_self

/-! ### The whole pass -/

/-- R184: from `AwaitFrame` in `FrameComplete` the pass is the three steps in sequence. -/
theorem service_eq_three_steps {s : State} (w : Byte) (hfc : s.block.fstate = .frameComplete)
    (hctl : s.controller.ctl = .awaitFrame) :
    service Config.CAP w s =
      { controllerStep Config.CAP w (controllerStep Config.CAP w (controllerStep Config.CAP w s)) with
        out := (controllerStep Config.CAP w s).out ++
          (controllerStep Config.CAP w (controllerStep Config.CAP w s)).out ++
          (controllerStep Config.CAP w (controllerStep Config.CAP w (controllerStep Config.CAP w s))).out } := by
  have h1 : controllerStep Config.CAP w s = { withEffect s (poll s.block) with
      controller := { s.controller with ctl := .decodeAndApply } } := by
    rw [controllerStep_of_awaitFrame _ w hctl, awaitFrame, frameCompleteFlag_eq, decide_eq_true hfc]
    rfl
  have h2 := (controllerStep_of_decodeAndApply (s := { withEffect s (poll s.block) with
    controller := { s.controller with ctl := .decodeAndApply } }) Config.CAP w rfl).trans (decodeAndApply_valid _ hfc)
  rw [h1, h2, controllerStep_of_injectNextPacket _ w rfl, service_accepted _ w hfc, injectNextPacket, ← hctl]
  rfl

/-- Settles O36: `service_accepted`, `service_rejected`, and the three steps. -/
theorem serviceIsOneWholePass : Obligations.ServiceIsOneWholePass := by
  intro s w hinv
  refine ⟨service Config.CAP w s, rfl, fun hfc => ?_, fun h => ?_, service_eq_three_steps w⟩
  · have hblock : (service Config.CAP w s).block = _ :=
      (congrArg (fun t : State => t.block) (service_accepted Config.CAP w hfc)).trans
        (congrArg Effect.block (inject_accepted _ _ _ hfc))
    have hcalls : actuatorCalls (service Config.CAP w s).out = [channels (decodeCommand (window Config.CAP s.block))] := by
      simp [service_accepted _ w hfc, poll, extract, actuatorCalls, actuatorCalls_inject]
    refine ⟨?_, ?_, ?_, hcalls, ?_⟩
    · rw [hblock]
    · rw [hblock]; exact window_writeWindow cap_ge_eight hinv (encodeSensor w) _ rfl rfl
    · rw [service_accepted _ w hfc]
    · rw [service_accepted _ w hfc]
  · rw [service_rejected _ w h]
    exact ⟨rfl, restUnchanged_withEffect s _, rfl⟩

end Sys2Proof.Machine
end

section
/-! Proofs about whole scans at one node: partial-frame recovery (40_bus_events.md R116), injections between scans
(20_memory.md R64; 41_host_port.md R146; 43_node_controller.md R185), and the scan that ends a missed deadline's fault
(60_exceptions.md R227). -/

namespace Sys2Proof.Machine

/-! ### The bytes of a scan and its end -/

/-- `BYTE_CLK` of each byte, one after another. -/
def byteClks (rs : List Byte) : List Instr := rs.map fun r => .byteClk (.byte r)

/-- The bytes of an open scan, one after another: `Relayed`, and the rest of the node as it was. -/
theorem runOps_byteClks (rs : List Byte) {s : State} (h : ScanOpen s.block) :
    ∃ t os, runOps (byteClks rs) s = .next (t, os) ∧ Relayed s.block rs t.block os ∧
      t.block.cur = (s.block.cur + rs.length) % Config.CAP ∧ t.actuator = s.actuator := by
  induction rs generalizing s with
  | nil => exact ⟨s, [], rfl, .of_quiet h rfl, (Nat.mod_eq_of_lt h.ok.1).symm, rfl⟩
  | cons r rs ih =>
    obtain ⟨u, hu, hsu⟩ := exec_byteClk_relayed r h
    obtain ⟨t, os, ht, hut, hcur, hact⟩ := ih hsu.scanOpen
    cases hu
    refine ⟨t, _, runOps_cons rfl ht, hsu.trans hut, ?_, hact⟩
    rw [hcur, withEffect_block, byteClk_receiving _ _ _ h.receiving, nextCursor, Nat.mod_add_mod, List.length_cons,
      Nat.add_assoc, Nat.add_comm 1]

/-- What is left of a scan of `rs` when it has been opened. -/
def restOfScan (rs : List Byte) : List Instr := byteClks rs ++ [.fsDeassert]

theorem restOfScan_wellFormed (rs : List Byte) : ∀ i ∈ restOfScan rs, i.wellFormed = true := by
  intro i hi
  obtain hi | hi := List.mem_append.mp hi
  · obtain ⟨r, -, rfl⟩ := List.mem_map.mp hi
    rfl
  · rw [List.mem_singleton.mp hi]
    rfl

/-- What the scan of `rs` from the block `b` leaves (R113, R114, R118) and puts out (R117). -/
structure ScanDone (b : Block) (rs : List Byte) (c : Block) (os : List Output) : Prop where
  windowBytes_eq : windowBytes Config.CAP c = lastFour (windowBytes Config.CAP b ++ rs)
  cnt_eq : c.cnt = rs.length
  fstate_eq : c.fstate = if rs.length ≠ 0 ∧ rs.length % 4 = 0 then .frameComplete else .idle
  cur_eq : c.cur = (b.cur + rs.length) % Config.CAP
  emitted_eq : emitted os = (windowBytes Config.CAP b ++ rs).take rs.length
  malformed : ¬(rs.length ≠ 0 ∧ rs.length % 4 = 0) → .malformedFrame rs.length ∈ labels os

/-- The bytes and the end of a scan that has just been opened. -/
theorem runOps_rest_of_scan (rs : List Byte) {s : State} (h : ScanOpen s.block) (hcnt : s.block.cnt = 0) :
    ∃ t os, runOps (restOfScan rs) s = .next (t, os) ∧ ScanDone s.block rs t.block os ∧
      t.actuator = s.actuator := by
  obtain ⟨u, os, hu, hrelay, hcur, hact⟩ := runOps_byteClks rs h
  have hcnt' : u.block.cnt = rs.length := by rw [hrelay.cnt_eq, hcnt, Nat.zero_add]
  have hend := fsDeassert_receiving hrelay.scanOpen.receiving
  rw [hcnt'] at hend
  have hblock := congrArg Effect.block hend
  have hout := congrArg Effect.out hend
  refine ⟨_, _, runOps_append hu (runOps_singleton rfl), ?_, hact⟩
  rw [withEffect_block, withEffect_out, hblock, hout]
  refine ⟨hrelay.windowBytes_eq, rfl, rfl, hcur, ?_, fun hbad => ?_⟩
  · rw [emitted_append, emitted_append, emitted_partialByteLabel, hrelay.emitted_eq]
    split <;> simp [emitted]
  · rw [labels_append, labels_append, if_neg hbad]
    exact List.mem_append_right _ List.mem_cons_self

/-- A whole scan. -/
theorem runOps_scan (rs : List Byte) {s : State} (hinv : s.Inv) :
    ∃ t os, runOps (scanOps rs) s = .next (t, os) ∧ ScanDone s.block rs t.block os ∧ t.actuator = s.actuator := by
  obtain ⟨u, hu, hopen, hwindow, hcnt, hquiet⟩ := exec_fsAssert_opens hinv
  cases hu
  obtain ⟨t, os, ht, hdone, hact⟩ := runOps_rest_of_scan rs hopen hcnt
  refine ⟨t, _, runOps_cons rfl ht, ⟨?_, hdone.cnt_eq, hdone.fstate_eq, hdone.cur_eq, ?_, fun hbad => ?_⟩, hact⟩
  · rw [hdone.windowBytes_eq, hwindow]
  · rw [emitted_append, hquiet, hdone.emitted_eq, hwindow, List.nil_append]
  · rw [labels_append]
    exact List.mem_append_right _ (hdone.malformed hbad)

/-- Operations one after another keep the invariant. -/
theorem runOps_inv {is : List Instr} {s t : State} {os : List Output} (hinv : s.Inv) (h : runOps is s = .next (t, os)) :
    t.Inv := by
  induction is generalizing s os with
  | nil => cases h; exact hinv
  | cons i is ih =>
    simp only [runOps] at h
    split at h
    case h_1 u hu =>
      split at h
      case h_1 r hr => cases h; exact ih (exec_inv hinv hu) hr
      all_goals cases h
    all_goals cases h

/-- Settles O45: `runOps_scan` with a malformed count ends in `Idle`, where the host port refuses and the next scan relays. -/
theorem malformedScanRecovers : Obligations.MalformedScanRecovers := by
  intro s rs ns p hinv hbad
  obtain ⟨t, os, hrun, hdone, hact⟩ := runOps_scan rs hinv
  have hidle : t.block.fstate = .idle := by rw [hdone.fstate_eq, if_neg hbad]
  have hne : t.block.fstate ≠ .frameComplete := by rw [hidle]; exact nofun
  have hflag : frameCompleteFlag t.block = false := by rw [frameCompleteFlag_eq]; exact decide_eq_false hne
  have hreject := inject_rejected Config.CAP t.block p hne
  obtain ⟨u, ps, hnext, hnextDone, -⟩ := runOps_scan ns (runOps_inv hinv hrun)
  refine ⟨t, os, hrun, hdone.malformed hbad, hdone.cur_eq, hdone.windowBytes_eq, hidle, ⟨_, rfl, ?_⟩,
    ⟨_, packetWord (window Config.CAP t.block), rfl, ?_⟩, ⟨_, rfl, congrArg Effect.block hreject, ?_⟩, hact,
    ⟨_, rfl, rfl, rfl⟩, u, ps, hnext, hnextDone.emitted_eq⟩
  · rw [withEffect_out, poll, hflag]
  · rw [withEffect_out, extract, hflag]
  · rw [injectState_out, hreject]
    exact List.mem_cons_of_mem _ List.mem_cons_self

/-! ### Injections between scans -/

/-- An accepted injection puts the packet into the window, and nothing on the wire. -/
theorem exec_inject_accepted {s : State} (p : Packet) (hinv : s.Inv) (hfc : s.block.fstate = .frameComplete) :
    ∃ t, exec (.inject p) s = .next t ∧ t.Inv ∧ windowBytes Config.CAP t.block = packetBytes p ∧ emitted t.out = [] := by
  refine ⟨_, rfl, inject_ok cap_pos p hinv, ?_, emitted_inject ..⟩
  rw [injectState_block, inject_accepted _ _ p hfc]
  exact congrArg packetBytes (window_writeWindow cap_ge_eight hinv p _ rfl rfl)

/-- A scan of four bytes or more emits the window first. -/
theorem take_four_of_emitted {ws rs : List Byte} (hws : ws.length = 4) (hrs : 4 ≤ rs.length) :
    ((ws ++ rs).take rs.length).take 4 = ws := by
  rw [List.take_take, Nat.min_eq_left hrs, ← hws, List.take_left]

/-- The packet injected leads the scan that follows (R64). -/
theorem runOps_inject_scan {s : State} (p : Packet) {rs : List Byte} (hinv : s.Inv) (hfc : s.block.fstate = .frameComplete)
    (hrs : 4 ≤ rs.length) :
    ∃ t os, runOps (.inject p :: scanOps rs) s = .next (t, os) ∧ (emitted os).take 4 = packetBytes p ∧
      t.block.fstate = if rs.length ≠ 0 ∧ rs.length % 4 = 0 then .frameComplete else .idle := by
  obtain ⟨u, hu, huinv, hwindow, hquiet⟩ := exec_inject_accepted p hinv hfc
  obtain ⟨t, os, ht, hdone, -⟩ := runOps_scan rs huinv
  refine ⟨t, _, runOps_cons hu ht, ?_, hdone.fstate_eq⟩
  rw [emitted_append, hquiet, List.nil_append, hdone.emitted_eq, take_four_of_emitted (length_windowBytes ..) hrs, hwindow]

/-- Settles O49: the window after the injection is the packet, and the first four bytes of a scan are the window. -/
theorem injectedPacketLeadsTheNextScan : Obligations.InjectedPacketLeadsTheNextScan := by
  intro s p r0 r1 r2 r3 hinv hfc
  obtain ⟨t, ht, htinv, hwindow, -⟩ := exec_inject_accepted p hinv hfc
  obtain ⟨u, hu, hopen, hwindow', -, -⟩ := exec_fsAssert_opens htinv
  obtain ⟨v, os, hv, hrelay, -, -⟩ := runOps_byteClks [r0, r1, r2, r3] hopen
  have hbytes : windowBytes Config.CAP u.block = packetBytes p := hwindow'.trans hwindow
  refine ⟨t, u, v, os, ht, hu, ?_, hv, ?_⟩
  · rw [hopen.armed, packetBytes_injective hbytes]
  · rw [hrelay.emitted_eq, hbytes]; rfl

/-- Settles O50: `runOps_inject_scan` twice; the first scan completes a frame, so the second injection is accepted too. -/
theorem sameReadingTwiceIsSentTwice : Obligations.SameReadingTwiceIsSentTwice := by
  intro s p ms ns hinv hfc hms0 hms4 hns
  obtain ⟨t, os, ht, hos, hverdict⟩ := runOps_inject_scan p hinv hfc (rs := ms) (by omega)
  rw [if_pos ⟨hms0, hms4⟩] at hverdict
  obtain ⟨u, ps, hu, hps, -⟩ := runOps_inject_scan p (runOps_inv hinv ht) hverdict hns
  exact ⟨t, os, u, ps, ht, hu, hos, hps⟩

/-- Settles O51: the assertion consumes the flag, the injection is rejected, and the scan emits the old window first. -/
theorem missedUpdateRelaysTheOldCommand : Obligations.MissedUpdateRelaysTheOldCommand := by
  intro s p rs hinv hfc hrs
  obtain ⟨t, ht, hopen, hwindow, -, -⟩ := exec_fsAssert_opens hinv
  have hlabels : labels t.out = [.lostFrame] := by
    cases ht
    rw [withEffect_out, labels_fsAssert, if_pos hfc]
  have hreject := inject_rejected Config.CAP t.block p (by rw [hopen.receiving]; exact nofun)
  have hblock : (injectState Config.CAP p t).block = t.block := congrArg Effect.block hreject
  obtain ⟨v, os, hv, hrelay, -, -⟩ := runOps_byteClks rs (s := injectState Config.CAP p t) (by rw [hblock]; exact hopen)
  refine ⟨t, _, v, os, ht, hlabels, rfl, ?_, hv, ?_⟩
  · rw [injectState_out, hreject, hopen.receiving]
  · rw [hrelay.emitted_eq, hblock, take_four_of_emitted (length_windowBytes ..) hrs, hwindow]

/-! ### Turns that bring operations -/

/-- The turn that brings an operation at its port (log 1, log 3). -/
def turnOf (i : Instr) : Turn := { reset := false, act := .word (encode i).1 (encode i).2 }

/-- With no fault standing, the turns that bring operations do to the block what the operations do one after another. -/
theorem run_turnsOf {is : List Instr} (hwf : ∀ i ∈ is, i.wellFormed = true) {s s' t : State} {os : List Output}
    (hm : s'.missed = none) (hb : s'.block = s.block) (hc : s'.controller = s.controller) (hturns : s'.turns = is.map turnOf)
    (h : runOps is s = .next (t, os)) :
    ∃ t', Host.Core.run Sys2Proof.core is.length s' = .next t' ∧ t'.missed = none ∧ t'.turns = [] ∧ t'.block = t.block := by
  induction is generalizing s s' os with
  | nil => cases h; exact ⟨s', rfl, hm, hturns, hb⟩
  | cons i is ih =>
    rw [List.forall_mem_cons] at hwf
    simp only [runOps] at h
    split at h
    case h_1 u hu =>
      split at h
      case h_1 r hr =>
        cases h
        obtain ⟨u', hu', hsame⟩ := exec_sameResult (s' := takeTurn s' (is.map turnOf)) hb hc hu
        have hstep : step s' = .next u' := by
          rw [step_word hturns (decodeOfEncodeIsTheInstruction i hwf.1)]
          exact (runOp_of_no_fault (s := takeTurn s' _) hm (fun r => by rw [hu']; exact nofun)).trans hu'
        obtain ⟨hturns', -, hm'⟩ := exec_next_rest hu'
        obtain ⟨t', hrun, ht'⟩ := ih hwf.2 (hm' hm) hsame.block hsame.controller hturns' hr
        exact ⟨t', (run_succ is.length hstep).trans hrun, ht'⟩
      all_goals cases h
    all_goals cases h

/-- `FS_ASSERT` runs from every state, in a fault from the state with the premise restored (U2). -/
theorem runOp_fsAssert (s : State) : ∃ u, (u = s ∨ u = premiseAgain s) ∧ runOp .fsAssert s = exec .fsAssert u ∧
    u.missed = none := by
  cases hm : s.missed with
  | none => exact ⟨s, .inl rfl, runOp_of_no_fault hm (fun r => nofun), hm⟩
  | some src => exact ⟨premiseAgain s, .inr rfl, runOp_ends (by rw [hm]; exact nofun) rfl, rfl⟩

/-- Settles O15: the turn of `FS_ASSERT` ends any fault and opens a scan; after it the turns do what the operations do. -/
theorem scanAfterADeadlineMissIsWhole : Obligations.ScanAfterADeadlineMissIsWhole := by
  intro s rs hinv hturns
  have hturns' : s.turns = turnOf .fsAssert :: (restOfScan rs).map turnOf := hturns
  obtain ⟨u, hu, hassert, hm⟩ := runOp_fsAssert (takeTurn s ((restOfScan rs).map turnOf))
  have huinv : u.Inv := by
    obtain rfl | rfl := hu
    · exact hinv
    · exact blockOk_of_eq hinv rfl rfl
  have huturns : u.turns = (restOfScan rs).map turnOf := by obtain rfl | rfl := hu <;> rfl
  obtain ⟨v, hv, hopen, -, hcnt, -⟩ := exec_fsAssert_opens huinv
  obtain ⟨hvturns, -, hvm⟩ := exec_next_rest hv
  obtain ⟨t, os, ht, hdone, -⟩ := runOps_rest_of_scan rs hopen hcnt
  obtain ⟨t', hrun, hm', hturns'', hblock⟩ := run_turnsOf (restOfScan_wellFormed rs) (hvm hm) rfl rfl (hvturns.trans huturns) ht
  have hlen : (restOfScan rs).length = rs.length + 1 := by simp [restOfScan, byteClks]
  have hstep : step s = .next v :=
    (step_word hturns' (decodeOfEncodeIsTheInstruction .fsAssert rfl)).trans (hassert.trans hv)
  rw [hlen] at hrun
  refine ⟨t', (run_succ (rs.length + 1) hstep).trans hrun, hm', hturns'', ?_⟩
  rw [hblock]
  exact ⟨hdone.cnt_eq, hdone.fstate_eq, fun h4 => hdone.windowBytes_eq.trans (lastFour_append_of_le _ h4)⟩

end Sys2Proof.Machine
end

section
/-! Proofs about one step of the chain (44_chain.md R200, R201, R202, R206): what each act does at each node, and that every node
reaches the same verdict. -/

namespace Sys2Proof.Machine

/-! ### An act at one node (R206) -/

/-- One node's step of its own: that node's new state, every other node as it was. -/
theorem chainAtNode_of_next {k : Nat} {f : State → Host.Outcome State Fault Refusal} {c : Chain} {n n' : State} (hk : 1 ≤ k)
    (hn : c.nodes[k - 1]? = some n) (hf : f n = .next n') :
    chainAtNode k f c = .next (withNodes c (c.nodes.set (k - 1) n') []) := by
  have hk0 : k ≠ 0 := by omega
  simp only [chainAtNode, hk0, if_false, hn, hf]

theorem chainAtNode_frame {k : Nat} {f : State → Host.Outcome State Fault Refusal} {c : Chain} {n n' : State} (hk : 1 ≤ k)
    (hn : c.nodes[k - 1]? = some n) (hf : f n = .next n') :
    ∃ d, chainAtNode k f c = .next d ∧ d.nodes[k - 1]? = some n' ∧ d.nodes.length = c.nodes.length ∧
      ∀ j, j ≠ k - 1 → d.nodes[j]? = c.nodes[j]? := by
  obtain ⟨hlt, -⟩ := List.getElem?_eq_some_iff.mp hn
  exact ⟨_, chainAtNode_of_next hk hn hf, List.getElem?_set_self hlt, List.length_set,
    fun j hj => List.getElem?_set_ne (Ne.symm hj)⟩

/-- Settles O59: an act at a node is that node's guarded step, and the list of nodes changes in that place. -/
theorem nodesActAlone : Obligations.NodesActAlone := by
  refine ⟨execAtCapacity_eq, fun k cap i s t hm h => guardStep_of_next hm h,
    fun c k n hk hn => ⟨fun i n' hi h => ?_, fun r hm => ?_⟩⟩
  · have hact : chainAct (.atNode k i) c = chainAtNode k (nodeOp k (Config.capOfNode k) i) c := by
      simp only [chainAct, chainActAt, hi, Bool.false_eq_true, if_false]
    rw [hact]
    exact chainAtNode_frame hk hn h
  · exact chainAtNode_frame hk hn (guardStep_of_next hm rfl)

/-! ### The bus events at every node -/

section
variable {k cap : Nat} {n : State}

/-- `BYTE_CLK` and `FS_DEASSERT` at a node with no fault standing. -/
theorem afterEvent_byteClk (hm : n.missed = none) (rx : Rx) :
    afterEvent k cap (.byteClk rx) n = withEffect n (byteClk cap rx n.block) :=
  afterEvent_of_next hm rfl

theorem afterEvent_fsDeassert (hm : n.missed = none) : afterEvent k cap .fsDeassert n = withEffect n (fsDeassert n.block) :=
  afterEvent_of_next hm rfl

/-- `FS_ASSERT` at any node: the scan is open, no fault stands, and the buffer and the cursor are as before. -/
theorem afterEvent_fsAssert_opens (k cap : Nat) (n : State) :
    ∃ u : State, afterEvent k cap .fsAssert n = withEffect u (fsAssert cap u.block) ∧ u.missed = none ∧
      u.block.buf = n.block.buf ∧ u.block.cur = n.block.cur := by
  rw [afterEvent_fsAssert]
  cases hm : n.missed with
  | none => exact ⟨n, rfl, hm, rfl, rfl⟩
  | some src => exact ⟨premiseAgain n, rfl, rfl, rfl, rfl⟩

theorem lineByte_of_receiving (k : Nat) (h : n.block.fstate = .receiving) : lineByte k n = n.block.tx := by
  rw [lineByte, selected_eq, if_pos (decide_eq_true h)]

end

@[simp] theorem chainByteClkFrom_length (cap : Nat → Nat) (k : Nat) (rx : Rx) (nodes : List State) :
    (chainByteClkFrom cap k rx nodes).length = nodes.length := by
  induction nodes generalizing k rx with
  | nil => rfl
  | cons n ns ih => simp [chainByteClkFrom, ih]

/-- What `BYTE_CLK` makes true at every node. -/
theorem forall_mem_chainByteClkFrom {cap : Nat → Nat} {P Q : State → Prop}
    (h : ∀ k rx n, P n → Q (afterEvent k (cap k) (.byteClk rx) n)) (k : Nat) (rx : Rx) {nodes : List State}
    (hP : ∀ n ∈ nodes, P n) : ∀ n ∈ chainByteClkFrom cap k rx nodes, Q n := by
  induction nodes generalizing k rx with
  | nil => exact nofun
  | cons n ns ih =>
    rw [List.forall_mem_cons] at hP
    exact List.forall_mem_cons.mpr ⟨h k rx n hP.1, ih (k + 1) _ hP.2⟩

/-- What something done at every node makes true at every node. -/
theorem forall_mem_atNodesFrom {f : Nat → State → State} {P Q : State → Prop} (h : ∀ k n, P n → Q (f k n)) (k : Nat)
    {nodes : List State} (hP : ∀ n ∈ nodes, P n) : ∀ n ∈ atNodesFrom f k nodes, Q n := by
  induction nodes generalizing k with
  | nil => exact nofun
  | cons n ns ih =>
    rw [List.forall_mem_cons] at hP
    exact List.forall_mem_cons.mpr ⟨h k n hP.1, ih (k + 1) hP.2⟩

/-! ### The simultaneous exchange (R202) -/

/-- Node by node, the first of the list being node `j`: each receives what its upstream neighbour had armed. -/
theorem chainByteClkFrom_getElem? (cap : Nat → Nat) (j : Nat) (m : Byte) {nodes : List State}
    (hopen : ∀ n ∈ nodes, n.block.fstate = .receiving ∧ n.missed = none) {k : Nat} {n : State} (hk : nodes[k]? = some n) :
    (chainByteClkFrom cap j (.byte m) nodes)[k]? =
      some (withEffect n (byteClk (cap (j + k))
        (.byte (if k = 0 then m else ((nodes[k - 1]?).map fun u => u.block.tx).getD 0x00)) n.block)) := by
  induction nodes generalizing j m k with
  | nil => cases hk
  | cons u us ih =>
    rw [List.forall_mem_cons] at hopen
    obtain ⟨⟨hrecv, hm⟩, hopens⟩ := hopen
    cases k with
    | zero =>
      cases hk
      rw [chainByteClkFrom, afterEvent_byteClk hm]
      rfl
    | succ k =>
      rw [chainByteClkFrom, lineByte_of_receiving j hrecv, relayRx, List.getElem?_cons_succ, ih (j + 1) u.block.tx hopens hk,
        Nat.add_assoc, Nat.add_comm 1 k]
      cases k <;> rfl

/-- The master receives what the last node had armed. -/
theorem tailByteFrom_eq (k : Nat) {nodes : List State} (hopen : ∀ n ∈ nodes, n.block.fstate = .receiving) :
    tailByteFrom k nodes = (nodes.getLast?.map fun n => n.block.tx).toList := by
  induction nodes generalizing k with
  | nil => rfl
  | cons n ns ih =>
    rw [List.forall_mem_cons] at hopen
    cases ns with
    | nil => exact congrArg (fun b => [b]) (lineByte_of_receiving k hopen.1)
    | cons n' ns => exact ih (k + 1) hopen.2

/-- Settles O53: `chainByteClkFrom_getElem?` from node 1 on. -/
theorem chainByteClockIsSimultaneous : Obligations.ChainByteClockIsSimultaneous := by
  intro cap m nodes hopen
  refine ⟨chainByteClkFrom_length .., fun k n hk => ?_, tailByteFrom_eq 1 fun n hn => (hopen n hn).1⟩
  rw [chainByteClk, chainByteClkFrom_getElem? cap 1 m hopen hk, Nat.add_comm 1 k]

/-! ### The verdict (R201) -/

/-- The node is in a scan in which `c` bytes have come, and no fault stands. -/
structure InScan (c : Nat) (n : State) : Prop where
  receiving : n.block.fstate = .receiving
  missed : n.missed = none
  cnt_eq : n.block.cnt = c

theorem inScan_fsAssert (k cap : Nat) (n : State) : InScan 0 (afterEvent k cap .fsAssert n) := by
  obtain ⟨u, hu, hm, -, -⟩ := afterEvent_fsAssert_opens k cap n
  rw [hu]
  exact ⟨rfl, hm, rfl⟩

theorem InScan.byteClk {c : Nat} {n : State} (h : InScan c n) (k cap : Nat) (rx : Rx) :
    InScan (c + 1) (afterEvent k cap (.byteClk rx) n) := by
  rw [afterEvent_byteClk h.missed, byteClk_receiving cap rx n.block h.receiving]
  exact ⟨h.receiving, h.missed, congrArg (· + 1) h.cnt_eq⟩

theorem InScan.fsDeassert {c : Nat} {n : State} (h : InScan c n) (k cap : Nat) :
    (afterEvent k cap .fsDeassert n).block.cnt = c ∧
      (afterEvent k cap .fsDeassert n).block.fstate = if c ≠ 0 ∧ c % 4 = 0 then .frameComplete else .idle := by
  rw [afterEvent_fsDeassert h.missed, withEffect_block, fsDeassert_receiving h.receiving, h.cnt_eq]
  exact ⟨rfl, rfl⟩

/-- The bytes of a scan: every node counts them. -/
theorem inScan_chainBytes (cap : Nat → Nat) (ms : List Byte) {c : Nat} {nodes : List State} (h : ∀ n ∈ nodes, InScan c n) :
    (chainBytes cap ms nodes).1.length = nodes.length ∧ ∀ n ∈ (chainBytes cap ms nodes).1, InScan (c + ms.length) n := by
  induction ms generalizing c nodes with
  | nil => exact ⟨rfl, h⟩
  | cons m ms ih =>
    have hstep : ∀ n ∈ chainByteClk cap (.byte m) nodes, InScan (c + 1) n :=
      forall_mem_chainByteClkFrom (fun k rx n hn => hn.byteClk k (cap k) rx) 1 (.byte m) h
    obtain ⟨hlen, hall⟩ := ih hstep
    rw [List.length_cons, Nat.add_comm ms.length, ← Nat.add_assoc]
    exact ⟨hlen.trans (chainByteClkFrom_length ..), hall⟩

/-- Settles O54: every node opens the scan, counts the same bytes and judges the same count. -/
theorem chainVerdictsAgree : Obligations.ChainVerdictsAgree := by
  intro cap nodes ms
  have hopen : ∀ n ∈ chainFsAssert cap nodes, InScan 0 n :=
    forall_mem_atNodesFrom (P := fun _ => True) (fun k n _ => inScan_fsAssert k (cap k) n) 1 fun _ _ => trivial
  obtain ⟨hlen, hall⟩ := inScan_chainBytes cap ms hopen
  rw [Nat.zero_add] at hall
  refine ⟨?_, forall_mem_atNodesFrom (fun k n hn => hn.fsDeassert k (cap k)) 1 hall⟩
  rw [chainScan, chainFsDeassert, atNodes, atNodesFrom_length, hlen, chainFsAssert, atNodes, atNodesFrom_length]

end Sys2Proof.Machine
end

section
/-! Proofs of the scan law of a chain (44_chain.md R203, R204, R205; R264). The idea: what the windows of the nodes hold, the last
node's first, is one shift register of four bytes a node, which every byte of the master shifts by one. -/

namespace Sys2Proof.Machine

/-! ### Packets and their bytes -/

theorem bytesOfPackets_singleton (p : Packet) : bytesOfPackets [p] = packetBytes p := List.append_nil _

theorem bytesOfPackets_append (ps qs : List Packet) : bytesOfPackets (ps ++ qs) = bytesOfPackets ps ++ bytesOfPackets qs := by
  induction ps with
  | nil => rfl
  | cons p ps ih => rw [List.cons_append, bytesOfPackets, ih, bytesOfPackets, List.append_assoc]

theorem bytesOfPackets_length (ps : List Packet) : (bytesOfPackets ps).length = 4 * ps.length := by
  induction ps with
  | nil => rfl
  | cons p ps ih =>
    have hp : (packetBytes p).length = 4 := rfl
    rw [bytesOfPackets, List.length_append, ih, hp, List.length_cons, Nat.mul_succ, Nat.add_comm]

theorem packetsOf_bytesOfPackets (ps : List Packet) : packetsOf (bytesOfPackets ps) = ps := by
  induction ps with
  | nil => rfl
  | cons p ps ih => exact congrArg (p :: ·) ih

theorem bytesOfPackets_injective {ps qs : List Packet} (h : bytesOfPackets ps = bytesOfPackets qs) : ps = qs := by
  rw [← packetsOf_bytesOfPackets ps, h, packetsOf_bytesOfPackets]

/-- A whole number of packets is the bytes of its packets. -/
theorem bytesOfPackets_packetsOf {j : Nat} {ms : List Byte} (h : ms.length = 4 * j) :
    bytesOfPackets (packetsOf ms) = ms ∧ (packetsOf ms).length = j := by
  induction j generalizing ms with
  | zero =>
    rw [List.eq_nil_of_length_eq_zero h]
    exact ⟨rfl, rfl⟩
  | succ j ih =>
    match ms, h with
    | b0 :: b1 :: b2 :: b3 :: ms, h =>
      have hlen : ms.length = 4 * j := by simp only [List.length_cons] at h; omega
      obtain ⟨hbytes, hcount⟩ := ih hlen
      exact ⟨congrArg (fun bs => b0 :: b1 :: b2 :: b3 :: bs) hbytes, congrArg (· + 1) hcount⟩

/-- Taking off whole packets. -/
theorem bytesOfPackets_drop (j : Nat) (ps : List Packet) : (bytesOfPackets ps).drop (4 * j) = bytesOfPackets (ps.drop j) := by
  induction j generalizing ps with
  | zero => rfl
  | succ j ih =>
    cases ps with
    | nil => simp [bytesOfPackets]
    | cons p ps => exact ih ps

theorem bytesOfPackets_take (j : Nat) (ps : List Packet) : (bytesOfPackets ps).take (4 * j) = bytesOfPackets (ps.take j) := by
  induction j generalizing ps with
  | zero => rfl
  | succ j ih =>
    cases ps with
    | nil => simp [bytesOfPackets]
    | cons p ps => exact congrArg (packetBytes p ++ ·) (ih ps)

/-! ### One node in an open scan -/

/-- A node of capacity `cap` between two exchanges: selected, with no fault standing, the byte armed the oldest of its window. -/
structure LinkOpen (cap : Nat) (n : State) : Prop where
  ok : blockOk cap n.block
  receiving : n.block.fstate = .receiving
  missed : n.missed = none
  armed : n.block.tx = (window cap n.block).b0

/-- `FS_ASSERT` opens a node, its window as it was (R201, R112). -/
theorem linkOpen_fsAssert (k : Nat) {cap : Nat} {n : State} (hok : blockOk cap n.block) :
    LinkOpen cap (afterEvent k cap .fsAssert n) ∧ window cap (afterEvent k cap .fsAssert n).block = window cap n.block := by
  obtain ⟨u, hu, hm, hbuf, hcur⟩ := afterEvent_fsAssert_opens k cap n
  rw [hu]
  refine ⟨⟨blockOk_of_eq hok hbuf hcur, rfl, hm, rfl⟩, ?_⟩
  have hwindow : window cap (fsAssert cap u.block).block = window cap u.block := rfl
  rw [withEffect_block, hwindow]
  simp only [window, hbuf, hcur]

/-- `BYTE_CLK` shifts the received byte into the node's window and keeps it open (R113, R58). -/
theorem LinkOpen.byteClk (k : Nat) {cap : Nat} (h8 : 8 ≤ cap) (m : Byte) {n : State} (h : LinkOpen cap n) :
    LinkOpen cap (afterEvent k cap (.byteClk (.byte m)) n) ∧
      window cap (afterEvent k cap (.byteClk (.byte m)) n).block =
        ⟨(window cap n.block).b1, (window cap n.block).b2, (window cap n.block).b3, m⟩ := by
  have hok := byteClk_ok (by omega : 0 < cap) (.byte m) h.ok
  rw [byteClk_receiving cap (.byte m) n.block h.receiving] at hok
  rw [afterEvent_byteClk h.missed, byteClk_receiving cap (.byte m) n.block h.receiving]
  exact ⟨⟨hok, h.receiving, h.missed, rfl⟩, window_append h8 h.ok m _ rfl rfl⟩

theorem window_fsDeassert (cap : Nat) (b : Block) : window cap (fsDeassert b).block = window cap b := by
  obtain ⟨-, hbuf, hcur⟩ := fsDeassert_quiet b
  simp only [window, hbuf, hcur]

/-- `FS_DEASSERT` leaves the node's window (R114). -/
theorem LinkOpen.window_fsDeassert (k : Nat) {cap : Nat} {n : State} (h : LinkOpen cap n) :
    window cap (afterEvent k cap .fsDeassert n).block = window cap n.block := by
  rw [afterEvent_fsDeassert h.missed]
  exact Machine.window_fsDeassert cap n.block

/-! ### The chain as one shift register -/

section
variable (cap : Nat → Nat)

/-- Every node of the list, the first being node `k`, is open. -/
def LinksOpen : Nat → List State → Prop
  | _, [] => True
  | k, n :: ns => LinkOpen (cap k) n ∧ LinksOpen (k + 1) ns

/-- The bytes that the windows of the nodes hold from node `k` on, the last node's first: in the order in which they leave. -/
def heldFrom : Nat → List State → List Byte
  | _, [] => []
  | k, n :: ns => heldFrom (k + 1) ns ++ windowBytes (cap k) n.block

/-- The windows of the nodes, the first being node `k`. -/
def windowsFrom (k : Nat) (ns : List State) : List Packet := atNodesFrom (fun j n => window (cap j) n.block) k ns

theorem heldFrom_eq (k : Nat) (ns : List State) : heldFrom cap k ns = bytesOfPackets (windowsFrom cap k ns).reverse := by
  induction ns generalizing k with
  | nil => rfl
  | cons n ns ih =>
    rw [heldFrom, ih, windowsFrom, windowsFrom, atNodesFrom, List.reverse_cons, bytesOfPackets_append,
      bytesOfPackets_singleton, windowBytes]

theorem heldFrom_length (k : Nat) (ns : List State) : (heldFrom cap k ns).length = 4 * ns.length := by
  rw [heldFrom_eq, bytesOfPackets_length, List.length_reverse, windowsFrom, atNodesFrom_length]

end

section
variable {cap : Nat → Nat}

/-- A shift of what the later nodes hold, and of the window before it, is one shift of both together. -/
theorem tail_append_window (held : List Byte) (w : Packet) (m : Byte) :
    (held ++ [w.b0]).tail ++ packetBytes ⟨w.b1, w.b2, w.b3, m⟩ = (held ++ packetBytes w ++ [m]).tail := by
  cases held <;> simp [packetBytes]

/-- One exchange shifts the whole chain by one byte (R202). -/
theorem heldFrom_chainByteClkFrom (h8 : ∀ k, 8 ≤ cap k) (k : Nat) (m : Byte) {ns : List State} (h : LinksOpen cap k ns) :
    LinksOpen cap k (chainByteClkFrom cap k (.byte m) ns) ∧
      heldFrom cap k (chainByteClkFrom cap k (.byte m) ns) = (heldFrom cap k ns ++ [m]).tail := by
  induction ns generalizing k m with
  | nil => exact ⟨trivial, rfl⟩
  | cons n ns ih =>
    obtain ⟨hn, hns⟩ := h
    obtain ⟨hopen, hwindow⟩ := hn.byteClk k (h8 k) m
    obtain ⟨hopens, hheld⟩ := ih (k + 1) n.block.tx hns
    rw [chainByteClkFrom, lineByte_of_receiving k hn.receiving, relayRx]
    refine ⟨⟨hopen, hopens⟩, ?_⟩
    rw [heldFrom, hheld, hn.armed, windowBytes, hwindow, tail_append_window, heldFrom, windowBytes]

/-- The master receives the byte that leaves (R202). -/
theorem tailByteFrom_eq_take (k : Nat) {ns : List State} (h : LinksOpen cap k ns) :
    tailByteFrom k ns = (heldFrom cap k ns).take 1 := by
  induction ns generalizing k with
  | nil => rfl
  | cons n ns ih =>
    obtain ⟨hn, hns⟩ := h
    cases ns with
    | nil =>
      rw [tailByteFrom, lineByte_of_receiving k hn.receiving, hn.armed]
      rfl
    | cons n' ns =>
      have hlen : 1 ≤ (heldFrom cap (k + 1) (n' :: ns)).length := by
        rw [heldFrom_length, List.length_cons]; omega
      exact (ih (k + 1) hns).trans (List.take_append_of_le_length hlen).symm

/-- The bytes of a scan shift through the chain: the first out are what it held (R203). -/
theorem chainBytes_shift (h8 : ∀ k, 8 ≤ cap k) (ms : List Byte) {nodes : List State} (hne : nodes ≠ [])
    (h : LinksOpen cap 1 nodes) :
    LinksOpen cap 1 (chainBytes cap ms nodes).1 ∧
      heldFrom cap 1 (chainBytes cap ms nodes).1 = (heldFrom cap 1 nodes ++ ms).drop ms.length ∧
      (chainBytes cap ms nodes).2 = (heldFrom cap 1 nodes ++ ms).take ms.length := by
  induction ms generalizing nodes with
  | nil => exact ⟨h, (List.append_nil _).symm, rfl⟩
  | cons m ms ih =>
    obtain ⟨hopen, hheld⟩ := heldFrom_chainByteClkFrom h8 1 m h
    have hne' : chainByteClk cap (.byte m) nodes ≠ [] := by
      rw [chainByteClk, ← List.length_pos_iff, chainByteClkFrom_length]
      exact List.length_pos_iff.mpr hne
    obtain ⟨hopens, hdrop, htake⟩ := ih hne' hopen
    rw [chainByteClk] at hdrop htake
    rw [hheld] at hdrop htake
    have hfirst : ∃ x xs, heldFrom cap 1 nodes = x :: xs := by
      apply List.exists_cons_of_length_pos
      rw [heldFrom_length]
      have := List.length_pos_iff.mpr hne
      omega
    obtain ⟨x, xs, hx⟩ := hfirst
    refine ⟨hopens, ?_, ?_⟩
    · rw [chainBytes, chainByteClk, hdrop, hx]; simp
    · rw [chainBytes, tailByte, tailByteFrom_eq_take 1 h, chainByteClk, htake, hx]; simp

/-- The chain's `FS_ASSERT` opens every node, the windows as they were (R201). -/
theorem linksOpen_fsAssert (k : Nat) {ns : List State}
    (hok : ∀ (j : Nat) (n : State), ns[j]? = some n → blockOk (cap (k + j)) n.block) :
    LinksOpen cap k (atNodesFrom (fun j n => afterEvent j (cap j) .fsAssert n) k ns) ∧
      windowsFrom cap k (atNodesFrom (fun j n => afterEvent j (cap j) .fsAssert n) k ns) = windowsFrom cap k ns := by
  induction ns generalizing k with
  | nil => exact ⟨trivial, rfl⟩
  | cons n ns ih =>
    obtain ⟨hopen, hwindow⟩ := linkOpen_fsAssert k (hok 0 n rfl)
    obtain ⟨hopens, hwindows⟩ := ih (k + 1) fun j n' hj => by
      rw [Nat.add_assoc, Nat.add_comm 1 j]; exact hok (j + 1) n' hj
    exact ⟨⟨hopen, hopens⟩, List.cons_eq_cons.mpr ⟨hwindow, hwindows⟩⟩

/-- The chain's `FS_DEASSERT` leaves the windows. -/
theorem windowsFrom_fsDeassert (k : Nat) {ns : List State} (h : LinksOpen cap k ns) :
    windowsFrom cap k (atNodesFrom (fun j n => afterEvent j (cap j) .fsDeassert n) k ns) = windowsFrom cap k ns := by
  induction ns generalizing k with
  | nil => rfl
  | cons n ns ih =>
    obtain ⟨hn, hns⟩ := h
    exact List.cons_eq_cons.mpr ⟨hn.window_fsDeassert k, ih (k + 1) hns⟩

theorem chainWindows_length (nodes : List State) : (chainWindows cap nodes).length = nodes.length :=
  atNodesFrom_length ..

/-! ### The scan law -/

/-- After the bytes of a scan, and before it ends: what the windows hold, and what the master has received (R203). -/
theorem chainBytes_of_chainOk {nodes : List State} (hok : chainOk cap nodes) (hne : nodes ≠ []) (ms : List Byte) :
    LinksOpen cap 1 (chainBytes cap ms (chainFsAssert cap nodes)).1 ∧
      bytesOfPackets (chainWindows cap (chainBytes cap ms (chainFsAssert cap nodes)).1).reverse =
        (bytesOfPackets (chainWindows cap nodes).reverse ++ ms).drop ms.length ∧
      (chainBytes cap ms (chainFsAssert cap nodes)).2 =
        (bytesOfPackets (chainWindows cap nodes).reverse ++ ms).take ms.length := by
  obtain ⟨h8, hblocks⟩ := hok
  obtain ⟨hopen, hwindows⟩ := linksOpen_fsAssert (cap := cap) 1 (ns := nodes) fun j n hj => by
    rw [Nat.add_comm]; exact hblocks j n hj
  have hne' : chainFsAssert cap nodes ≠ [] := by
    rw [chainFsAssert, atNodes, ← List.length_pos_iff, atNodesFrom_length]
    exact List.length_pos_iff.mpr hne
  have hshift := chainBytes_shift h8 ms hne' hopen
  have hheld : heldFrom cap 1 (chainFsAssert cap nodes) = bytesOfPackets (chainWindows cap nodes).reverse :=
    (heldFrom_eq cap 1 _).trans (congrArg (fun ps => bytesOfPackets ps.reverse) hwindows)
  rw [hheld, heldFrom_eq] at hshift
  exact hshift

/-- The end of a scan leaves what the windows hold. -/
theorem chainScan_windows {nodes : List State} (hok : chainOk cap nodes) (hne : nodes ≠ []) (ms : List Byte) :
    chainWindows cap (chainScan cap ms nodes).1 = chainWindows cap (chainBytes cap ms (chainFsAssert cap nodes)).1 :=
  windowsFrom_fsDeassert 1 (chainBytes_of_chainOk hok hne ms).1

/-- After whole packets: node `k` (counting from 0) holds what node `k - j` held, or a packet of the master (R204). -/
theorem chainWindows_after_packets {nodes : List State} (hok : chainOk cap nodes) {ms : List Byte} {j k : Nat}
    (hms : ms.length = 4 * j) (hk : k < nodes.length) :
    (chainWindows cap (chainBytes cap ms (chainFsAssert cap nodes)).1)[k]? =
      if j ≤ k then (chainWindows cap nodes)[k - j]? else (packetsOf ms)[j - k - 1]? := by
  have hne : nodes ≠ [] := List.length_pos_iff.mp (by omega)
  obtain ⟨-, hheld, -⟩ := chainBytes_of_chainOk hok hne ms
  obtain ⟨hbytes, hcount⟩ := bytesOfPackets_packetsOf hms
  have hpackets : (chainWindows cap (chainBytes cap ms (chainFsAssert cap nodes)).1).reverse =
      ((chainWindows cap nodes).reverse ++ packetsOf ms).drop j := by
    apply bytesOfPackets_injective
    rw [hheld, hms, ← bytesOfPackets_drop, bytesOfPackets_append, hbytes]
  have hwindows : chainWindows cap (chainBytes cap ms (chainFsAssert cap nodes)).1 =
      (((chainWindows cap nodes).reverse ++ packetsOf ms).drop j).reverse := by
    rw [← hpackets, List.reverse_reverse]
  have hlen : (((chainWindows cap nodes).reverse ++ packetsOf ms).drop j).length = nodes.length := by
    simp [chainWindows_length, hcount]
  rw [hwindows, List.getElem?_reverse (by omega), hlen, List.getElem?_drop]
  split
  · next hjk =>
    rw [List.getElem?_append_left (by rw [List.length_reverse, chainWindows_length]; omega),
      List.getElem?_reverse (by rw [chainWindows_length]; omega), chainWindows_length]
    congr 1
    omega
  · next hjk =>
    rw [List.getElem?_append_right (by rw [List.length_reverse, chainWindows_length]; omega), List.length_reverse,
      chainWindows_length]
    congr 1
    omega

/-- Settles O56: `chainWindows_after_packets`; the end of the scan leaves the windows. -/
theorem chainEndsWithEachNodesPacket : Obligations.ChainEndsWithEachNodesPacket := by
  intro cap nodes ms j k hok _ hms hk
  rw [chainScan_windows hok (List.length_pos_iff.mp (by omega)) ms]
  exact chainWindows_after_packets hok hms hk

/-- Settles O57: a window is `i` nodes further after slot `i`; what the master has received is what the windows held. -/
theorem packetMovesOneNodePerSlot : Obligations.PacketMovesOneNodePerSlot := by
  intro cap nodes k p hok hk hp
  have hkn : k - 1 < nodes.length := by
    rw [← chainWindows_length (cap := cap)]
    exact (List.getElem?_eq_some_iff.mp hp).1
  refine ⟨fun i ms hi hik hms => ?_, fun ms hms => ?_⟩
  · have hpos : k + i - 1 - i = k - 1 := by omega
    rw [chainWindows_after_packets hok hms (by omega), if_pos (by omega), hpos, hp]
  · obtain ⟨-, -, hreceived⟩ := chainBytes_of_chainOk hok (List.length_pos_iff.mp (by omega)) ms
    have hheld : 4 * (nodes.length - k + 1) ≤ (bytesOfPackets (chainWindows cap nodes).reverse).length := by
      rw [bytesOfPackets_length, List.length_reverse, chainWindows_length]
      omega
    have hrev : (chainWindows cap nodes).reverse[nodes.length - k]? = some p := by
      have hpos : nodes.length - 1 - (nodes.length - k) = k - 1 := by omega
      rw [List.getElem?_reverse (by rw [chainWindows_length]; omega), chainWindows_length, hpos, hp]
    rw [hreceived, hms, List.take_append_of_le_length hheld, bytesOfPackets_take, bytesOfPackets_drop, List.take_add_one, hrev,
      List.drop_left' (by rw [List.length_take, List.length_reverse, chainWindows_length]; omega)]
    exact bytesOfPackets_singleton p

/-! ### The first nodes of a chain -/

theorem atNodesFrom_take {α : Type} (f : Nat → State → α) (j k : Nat) (ns : List State) :
    atNodesFrom f j (ns.take k) = (atNodesFrom f j ns).take k := by
  induction ns generalizing j k with
  | nil => simp [atNodesFrom]
  | cons n ns ih =>
    cases k with
    | zero => rfl
    | succ k => exact congrArg (f j n :: ·) (ih (j + 1) k)

theorem chainByteClkFrom_take (cap : Nat → Nat) (j k : Nat) (rx : Rx) (ns : List State) :
    chainByteClkFrom cap j rx (ns.take k) = (chainByteClkFrom cap j rx ns).take k := by
  induction ns generalizing j k rx with
  | nil => simp [chainByteClkFrom]
  | cons n ns ih =>
    cases k with
    | zero => rfl
    | succ k => exact congrArg (afterEvent j (cap j) (.byteClk rx) n :: ·) (ih (j + 1) k _)

/-- The nodes after the first `k` do not change what those do in the bytes of a scan (R202). -/
theorem chainBytes_take (cap : Nat → Nat) (k : Nat) (ms : List Byte) (ns : List State) :
    (chainBytes cap ms (ns.take k)).1 = (chainBytes cap ms ns).1.take k := by
  induction ms generalizing ns with
  | nil => rfl
  | cons m ms ih => rw [chainBytes, chainBytes, chainByteClk, chainByteClkFrom_take, ih, chainByteClk]

theorem chainScan_take (cap : Nat → Nat) (k : Nat) (ms : List Byte) (nodes : List State) :
    (chainScan cap ms (nodes.take k)).1 = (chainScan cap ms nodes).1.take k := by
  simp only [chainScan, chainFsDeassert, chainFsAssert, atNodes, atNodesFrom_take, chainBytes_take]

theorem chainOk_take {nodes : List State} (hok : chainOk cap nodes) (k : Nat) : chainOk cap (nodes.take k) := by
  refine ⟨hok.1, fun j n hj => hok.2 j n ?_⟩
  rw [List.getElem?_take] at hj
  split at hj
  · exact hj
  · cases hj

/-- Settles O55: the scan law of the chain of the first `k` nodes, which the nodes after them do not change. -/
theorem chainSendsItsWindowsLastNodeFirst : Obligations.ChainSendsItsWindowsLastNodeFirst := by
  intro cap nodes ms k hok hk hkn
  have hne : nodes.take k ≠ [] := by
    rw [← List.length_pos_iff, List.length_take]
    omega
  obtain ⟨-, -, hreceived⟩ := chainBytes_of_chainOk (chainOk_take hok k) hne ms
  exact ⟨hreceived, chainScan_take cap k ms nodes⟩

/-! ### The first scan after reset -/

theorem chainReset_getElem? {n j : Nat} {u : State} (h : (chainReset n).nodes[j]? = some u) : u.block = Block.reset := by
  obtain ⟨i, -, rfl⟩ := List.mem_map.mp (List.mem_of_getElem? h)
  rfl

theorem chainReset_length (n : Nat) : (chainReset n).nodes.length = n := by
  rw [chainReset, List.length_map, List.length_range]

theorem chainReset_chainOk (h8 : ∀ k, 8 ≤ cap k) (n : Nat) : chainOk cap (chainReset n).nodes := by
  refine ⟨h8, fun j u hu => ?_⟩
  rw [chainReset_getElem? hu]
  have := h8 (j + 1)
  exact ⟨by show 0 < cap (j + 1); omega, rfl, rfl⟩

/-- Every window after reset holds zeros (R260; D6). -/
theorem chainWindows_chainReset (n : Nat) :
    chainWindows cap (chainReset n).nodes = List.replicate n ⟨0x00, 0x00, 0x00, 0x00⟩ := by
  rw [List.eq_replicate_iff]
  refine ⟨by rw [chainWindows_length, chainReset_length], fun p hp => ?_⟩
  obtain ⟨j, hj⟩ := List.mem_iff_getElem?.mp hp
  rw [chainWindows, atNodes, atNodesFrom_getElem?] at hj
  obtain ⟨u, hu, rfl⟩ := Option.map_eq_some_iff.mp hj
  rw [chainReset_getElem? hu]
  rfl

theorem bytesOfPackets_replicate_zero (n : Nat) :
    bytesOfPackets (List.replicate n ⟨0x00, 0x00, 0x00, 0x00⟩) = List.replicate (4 * n) 0x00 := by
  induction n with
  | zero => rfl
  | succ n ih =>
    rw [List.replicate_succ, bytesOfPackets, ih, Nat.mul_succ, Nat.add_comm, List.replicate_add]
    rfl

/-- Settles O58: the windows after reset hold `4 * n` zeros, and the scan law sends them. -/
theorem firstScanAfterResetReadsZeros : Obligations.FirstScanAfterResetReadsZeros := by
  intro cap n ms h8 hn hms
  have hne : (chainReset n).nodes ≠ [] := by
    rw [← List.length_pos_iff, chainReset_length]
    exact hn
  obtain ⟨-, -, hreceived⟩ := chainBytes_of_chainOk (chainReset_chainOk h8 n) hne ms
  rw [chainWindows_chainReset, List.reverse_replicate, bytesOfPackets_replicate_zero, hms] at hreceived
  exact hreceived.trans (List.take_left' (List.length_replicate ..))

end

end Sys2Proof.Machine
end
